-- ==== Sys2Proof/Word.lean ====
section
/-! DEFINITION. The word types of the LZW codec core (`00_scope.md` R11, R12). Every value is an
unsigned number; bit 0 is the least significant bit. -/

namespace Sys2Proof

/-- A byte of the input, the output, a tag or a character field. -/
abbrev Byte := BitVec 8

/-- A code: a codeword's value, a dictionary value, a code-table index (`00_scope.md` R11). -/
abbrev Code := BitVec 16

/-- The 17-bit quantities L, N and string lengths (`00_scope.md` R11). -/
abbrev Count := BitVec 17

/-- A 32-bit word of the CSR window (`10_state.md` R51). -/
abbrev CsrWord := BitVec 32

end Sys2Proof
end

