-- ==== Sys2Proof/Config.lean ====
section
/-! DEFINITION. The constants of `00_scope.md` R9 and the implementation parameters of R10. -/

namespace Sys2Proof

/-- `RATIO_ARITH`, the arithmetic of the Monitored comparison (`00_scope.md` R10,
`43_reset_policy.md` R278). The value in force is a field of State that no step writes. -/
inductive RatioArith where
  | binary64
  | exact
deriving DecidableEq, Repr

/-- `EOF`, the end-of-stream codeword (`00_scope.md` R9). -/
def Config.eofCode : Nat := 256

/-- `FIRST_CODE`, the first learned code of a generation (`00_scope.md` R9). -/
def Config.firstCode : Nat := 257

/-- `W_MIN`, the initial codeword width (`00_scope.md` R9). -/
def Config.wMin : Nat := 9

/-- `W_MAX`, the maximum codeword width (`00_scope.md` R9). -/
def Config.wMax : Nat := 16

/-- `CEILING`, the absolute code-space ceiling `2^W_MAX` (`00_scope.md` R9). -/
def Config.ceiling : Nat := 65536

/-- `TABLE_DEPTH`, the entries of the code-table register file (`00_scope.md` R10). -/
def Config.tableDepth : Nat := 65536

/-- The bound `2^ACC_BITS` of a Monitored accumulator (`00_scope.md` R10, `43_reset_policy.md` R277). -/
def Config.accBound : Nat := 2 ^ 64

/-- The default of `RATIO_ARITH` (`00_scope.md` R10). -/
def Config.defaultArith : RatioArith := .binary64

end Sys2Proof
end

