-- ==== Sys2Proof/Syntax.lean ====
section
/-! DEFINITION. The instructions: one constructor per row of `opcode_table.json`
(`30_encoding.md` R150), with the operands the row's item carries, and the named values the
encodings stand for. -/

namespace Sys2Proof

/-- SIDE (`10_state.md` R34): compress or expand. -/
inductive Side where
  | enc
  | dec
deriving DecidableEq, Repr

/-- POL (`10_state.md` R35). The value 3 is reserved and never written (DEDUCED, log 22). -/
inductive Policy where
  | frozen
  | saturate
  | monitored
deriving DecidableEq, Repr

/-- ST (`30_encoding.md` R140). The other 5-bit values are reserved and never written (R141; DEDUCED, log 22). -/
inductive Phase where
  | idle
  | done
  | error
  | eTag
  | eFirst
  | eScan
  | eStep
  | eLast
  | eEof
  | dTag
  | dFirst
  | dEmit
  | dRead
  | dReset
deriving DecidableEq, Repr

/-- The instructions of the core (`00_scope.md` R2): wire items, host commands, host accesses and
state-machine transitions. -/
inductive Instr where
  -- format tag8: the mode tag read in D_TAG (`30_encoding.md` R125)
  | tagFrozen
  | tagSaturate
  | tagMonitored
  | tagReserved (t : Byte)
  -- format cw_first: a codeword read in D_FIRST (`30_encoding.md` R126)
  | firstLiteral (b : Byte)
  | firstEof
  | firstReserved (cw : Code)
  -- format cw_read: a codeword read in D_READ (`30_encoding.md` R127)
  | eof
  | hit (cw : Code)
  | kwkwk (cw : Code)
  | codeReserved (cw : Code)
  -- format cmd16: the CMD register as START reads it (`30_encoding.md` R136)
  | compressFrozen
  | compressSaturate
  | compressMonitored
  | expand (policy : Byte)
  -- format csr: host accesses (`45_host_commands.md` R330 to R334)
  | start (v : CsrWord)
  | cmdWrite (v : CsrWord)
  | csrRead (off : Byte)
  -- format fsm: encoder transitions (`40_encoder.md` R160 to R168)
  | encTag
  | encFirstEmpty
  | encFirstByte
  | encScanHit
  | encScanMiss
  | encScanEnd
  | encStep
  | encLast
  | encEof
  -- format fsm: decoder transitions (`41_decoder.md` R200 to R208)
  | decTag
  | decFirstEof
  | decFirstLiteral
  | decFirstReserved
  | decEmit
  | decReadLearn
  | decReadEof
  | decReadReserved
  | decReset
deriving DecidableEq, Repr

end Sys2Proof
end

