-- ==== Sys2Proof/WellFormed.lean ====
section
/-! DEFINITION. Well-formed instructions: the operand ranges the class conditions of
`opcode_table.json` and `30_encoding.md` R125 to R127 and R136 leave to each row. -/

namespace Sys2Proof

/-- The operand ranges of each row. A row with no operand is well formed. -/
def Instr.wf : Instr → Bool
  | .tagReserved t => t != 0x6E && t != 0x72 && t != 0x6D
  | .firstReserved cw => decide (257 ≤ cw.toNat) && decide (cw.toNat < 512)
  | .hit cw => decide (cw.toNat ≠ 256)
  | .kwkwk cw => decide (257 ≤ cw.toNat)
  | .codeReserved cw => decide (257 < cw.toNat)
  | .start v => v.getLsbD 0
  | .csrRead off => decide (off.toNat % 4 = 0)
  | .tagFrozen => true
  | .tagSaturate => true
  | .tagMonitored => true
  | .firstLiteral _ => true
  | .firstEof => true
  | .eof => true
  | .compressFrozen => true
  | .compressSaturate => true
  | .compressMonitored => true
  | .expand _ => true
  | .cmdWrite _ => true
  | .encTag => true
  | .encFirstEmpty => true
  | .encFirstByte => true
  | .encScanHit => true
  | .encScanMiss => true
  | .encScanEnd => true
  | .encStep => true
  | .encLast => true
  | .encEof => true
  | .decTag => true
  | .decFirstEof => true
  | .decFirstLiteral => true
  | .decFirstReserved => true
  | .decEmit => true
  | .decReadLearn => true
  | .decReadEof => true
  | .decReadReserved => true
  | .decReset => true

end Sys2Proof
end

