-- ==== Sys2Proof/Decode.lean ====
section
/-! DEFINITION. Encodings: the numeric codes of the named values, the decoder, the encoder and the
bit order of the wire (`30_encoding.md`, `20_memory.md` R86 to R90).

The rows of `opcode_table.json` live in six formats that share bit patterns: the same byte is a
mode tag on the wire and a state in ST. An encoded item therefore carries its format, and a row
whose condition or guard looks at the core (`30_encoding.md` R127, `00_scope.md` R14) is decoded
against a `View` of it. -/

namespace Sys2Proof

/-! ### Numeric codes of the named values -/

/-- The mode tag of a policy (`30_encoding.md` R124, R125): 'n', 'r', 'm'. -/
def Policy.tag : Policy → Byte
  | .frozen => 0x6E
  | .saturate => 0x72
  | .monitored => 0x6D

/-- The 2-bit value of POL (`10_state.md` R35). -/
def Policy.code : Policy → BitVec 2
  | .frozen => 0
  | .saturate => 1
  | .monitored => 2

/-- The policy a tag or a POLICY field names, if any (`30_encoding.md` R125, R136). -/
def policyOfTag (t : Byte) : Option Policy :=
  if t = 0x6E then some .frozen
  else if t = 0x72 then some .saturate
  else if t = 0x6D then some .monitored
  else none

/-- The 1-bit value of SIDE (`10_state.md` R34). -/
def Side.code : Side → BitVec 1
  | .enc => 0
  | .dec => 1

/-- The 5-bit value of ST (`30_encoding.md` R140). -/
def Phase.code : Phase → BitVec 5
  | .idle => 0
  | .done => 1
  | .error => 2
  | .eTag => 4
  | .eFirst => 5
  | .eScan => 6
  | .eStep => 7
  | .eLast => 8
  | .eEof => 9
  | .dTag => 16
  | .dFirst => 17
  | .dEmit => 18
  | .dRead => 19
  | .dReset => 20

/-- The state a 5-bit value of ST names; the values 3, 10 to 15 and 21 to 31 are reserved
(`30_encoding.md` R140, R141). -/
def phaseOfCode (c : BitVec 5) : Option Phase :=
  if c = 0 then some .idle
  else if c = 1 then some .done
  else if c = 2 then some .error
  else if c = 4 then some .eTag
  else if c = 5 then some .eFirst
  else if c = 6 then some .eScan
  else if c = 7 then some .eStep
  else if c = 8 then some .eLast
  else if c = 9 then some .eEof
  else if c = 16 then some .dTag
  else if c = 17 then some .dFirst
  else if c = 18 then some .dEmit
  else if c = 19 then some .dRead
  else if c = 20 then some .dReset
  else none

/-- The OP byte of compress, '-' (`30_encoding.md` R124, R136). -/
def opCompress : Byte := 0x2D

/-- The OP byte of expand, '+' (`30_encoding.md` R124, R136). -/
def opExpand : Byte := 0x2B

/-- Field OP of CMD (`10_state.md` R53). -/
def cmdOp (c : BitVec 16) : Byte := c.extractLsb' 0 8

/-- Field POLICY of CMD (`10_state.md` R53). -/
def cmdPolicy (c : BitVec 16) : Byte := c.extractLsb' 8 8

/-! ### The bit order of the wire -/

/-- The `w` bits of `v`, most significant first (`20_memory.md` R87). -/
def bitsOf (v : Nat) : Nat → List Bool
  | 0 => []
  | w + 1 => v.testBit w :: bitsOf v w

/-- The number a bit sequence spells, most significant bit first (`20_memory.md` R89). -/
def bitsValue : List Bool → Nat
  | [] => 0
  | b :: bs => b.toNat * 2 ^ bs.length + bitsValue bs

/-- The byte that eight bits spell; missing bits at the end are zero (`20_memory.md` R88). -/
def byteOf (b7 b6 b5 b4 b3 b2 b1 b0 : Bool) : Byte :=
  BitVec.ofNat 8 (bitsValue [b7, b6, b5, b4, b3, b2, b1, b0])

/-- The byte sequence of a bit sequence, each byte filled from bit 7 down, the last one padded with
zero bits (`20_memory.md` R88). -/
def packBytes : List Bool → List Byte
  | [] => []
  | [a] => [byteOf a false false false false false false false]
  | [a, b] => [byteOf a b false false false false false false]
  | [a, b, c] => [byteOf a b c false false false false false]
  | [a, b, c, d] => [byteOf a b c d false false false false]
  | [a, b, c, d, e] => [byteOf a b c d e false false false]
  | [a, b, c, d, e, f] => [byteOf a b c d e f false false]
  | [a, b, c, d, e, f, g] => [byteOf a b c d e f g false]
  | a :: b :: c :: d :: e :: f :: g :: h :: rest => byteOf a b c d e f g h :: packBytes rest

/-- Bit `k` of a byte sequence: each byte gives its most significant bit first
(`20_memory.md` R86). -/
def streamBit (bytes : List Byte) (k : Nat) : Bool :=
  (bytes.getD (k / 8) 0).getLsbD (7 - k % 8)

/-- The `w` bits of a byte sequence from bit `k` on, in stream order (`20_memory.md` R86). -/
def streamBits (bytes : List Byte) (k : Nat) : Nat → List Bool
  | 0 => []
  | w + 1 => streamBit bytes k :: streamBits bytes (k + 1) w

/-! ### Encoded items -/

/-- An access of the host to the CSR window (`10_state.md` R51, `45_host_commands.md` R330 to
R333). -/
inductive CsrAccess where
  | read (off : Byte)
  | write (off : Byte) (v : CsrWord)
deriving DecidableEq, Repr

/-- An encoded item: its format (`30_encoding.md` R150) and its bits. A codeword stands as its
zero-extended value; its bits on the wire are `bitsOf` of it at the width W in force (R122). -/
inductive Encoded where
  | tag8 (t : Byte)
  | cwFirst (cw : Code)
  | cwRead (cw : Code)
  | cmd16 (v : BitVec 16)
  | csr (a : CsrAccess)
  | fsm (st : BitVec 5)
deriving DecidableEq, Repr

/-- What the guards of the transitions and the codeword classes look at. -/
structure View where
  /-- `InEmpty()` (`20_memory.md` R85). -/
  inEmpty : Bool
  /-- `DictLookup(CUR, c)` for the next input byte c (`40_encoder.md` R163). -/
  lookup : Option Code
  /-- The value of the next W input bits, none where fewer remain (`20_memory.md` R89). -/
  next : Option Code
  /-- The counter N (`30_encoding.md` R127). -/
  n : Count
deriving DecidableEq, Repr

/-- Why an encoded item is no instruction. -/
inductive Reject where
  /-- ST is IDLE, DONE or ERROR: no rule fires (`30_encoding.md` R140). -/
  | waiting
  /-- A reserved value of ST (`30_encoding.md` R141). -/
  | reservedState
  /-- A CSR write with no effect (`45_host_commands.md` R332). -/
  | ignoredWrite
  /-- A CSR offset that is not a multiple of 4 (`10_state.md` R51). -/
  | misaligned
  /-- An OP that START refuses (`30_encoding.md` R136). -/
  | badOp (op : Byte)
  /-- A POLICY that START refuses (`30_encoding.md` R136). -/
  | badPolicy (p : Byte)
deriving DecidableEq, Repr

/-- The decoder's answer. -/
inductive Decoded where
  | instr (i : Instr)
  | reject (r : Reject)
deriving DecidableEq, Repr

/-! ### The decoder -/

/-- Classify the mode tag (`30_encoding.md` R125). -/
def decodeTag (t : Byte) : Instr :=
  match policyOfTag t with
  | some .frozen => .tagFrozen
  | some .saturate => .tagSaturate
  | some .monitored => .tagMonitored
  | none => .tagReserved t

/-- Classify the first codeword of a generation (`30_encoding.md` R126). -/
def decodeFirst (cw : Code) : Instr :=
  if cw.toNat < 256 then .firstLiteral (cw.setWidth 8)
  else if cw.toNat = 256 then .firstEof
  else .firstReserved cw

/-- Classify a later codeword against N, first match wins (`30_encoding.md` R127). -/
def decodeRead (n : Count) (cw : Code) : Instr :=
  if cw.toNat = 256 then .eof
  else if cw.toNat < n.toNat then .hit cw
  else if cw.toNat = n.toNat then .kwkwk cw
  else .codeReserved cw

/-- Classify the CMD register as START reads it (`30_encoding.md` R136): OP is tested before
POLICY, and EXPAND ignores POLICY. -/
def decodeCommand (c : BitVec 16) : Decoded :=
  if cmdOp c = opCompress then
    match policyOfTag (cmdPolicy c) with
    | some .frozen => .instr .compressFrozen
    | some .saturate => .instr .compressSaturate
    | some .monitored => .instr .compressMonitored
    | none => .reject (.badPolicy (cmdPolicy c))
  else if cmdOp c = opExpand then .instr (.expand (cmdPolicy c))
  else .reject (.badOp (cmdOp c))

/-- Classify a host access (`10_state.md` R51, `45_host_commands.md` R330 to R333). -/
def decodeCsr : CsrAccess → Decoded
  | .read off => if off.toNat % 4 = 0 then .instr (.csrRead off) else .reject .misaligned
  | .write off v =>
    if off.toNat % 4 ≠ 0 then .reject .misaligned
    else if off = 0x00 then
      if v.getLsbD 0 then .instr (.start v) else .reject .ignoredWrite
    else if off = 0x04 then .instr (.cmdWrite v)
    else .reject .ignoredWrite

/-- The transition of a state whose guard holds (`00_scope.md` R14, guards of `40_encoder.md` and
`41_decoder.md`). Where D_FIRST or D_READ finds too few bits, the read itself raises TRUNCATED
whichever transition is named (`41_decoder.md`, opening; log 16), and the state's first row stands
for it. -/
def decodeFsm (v : View) (c : BitVec 5) : Decoded :=
  match phaseOfCode c with
  | none => .reject .reservedState
  | some .idle => .reject .waiting
  | some .done => .reject .waiting
  | some .error => .reject .waiting
  | some .eTag => .instr .encTag
  | some .eFirst => .instr (if v.inEmpty then .encFirstEmpty else .encFirstByte)
  | some .eScan =>
    .instr (if v.inEmpty then .encScanEnd
      else if v.lookup.isSome then .encScanHit else .encScanMiss)
  | some .eStep => .instr .encStep
  | some .eLast => .instr .encLast
  | some .eEof => .instr .encEof
  | some .dTag => .instr .decTag
  | some .dFirst =>
    .instr (match v.next with
      | none => .decFirstEof
      | some cw =>
        if cw.toNat = 256 then .decFirstEof
        else if cw.toNat < 256 then .decFirstLiteral else .decFirstReserved)
  | some .dEmit => .instr .decEmit
  | some .dRead =>
    .instr (match v.next with
      | none => .decReadLearn
      | some cw =>
        if cw.toNat = 256 then .decReadEof
        else if cw.toNat ≤ v.n.toNat then .decReadLearn else .decReadReserved)
  | some .dReset => .instr .decReset

/-- The decoder: total on every item of every format. -/
def decode (v : View) : Encoded → Decoded
  | .tag8 t => .instr (decodeTag t)
  | .cwFirst cw => .instr (decodeFirst cw)
  | .cwRead cw => .instr (decodeRead v.n cw)
  | .cmd16 c => decodeCommand c
  | .csr a => decodeCsr a
  | .fsm c => decodeFsm v c

/-! ### The encoder -/

/-- The item of each row of `opcode_table.json`, written from its match value and its fields. -/
def encode : Instr → Encoded
  | .tagFrozen => .tag8 0x6E
  | .tagSaturate => .tag8 0x72
  | .tagMonitored => .tag8 0x6D
  | .tagReserved t => .tag8 t
  | .firstLiteral b => .cwFirst (b.setWidth 16)
  | .firstEof => .cwFirst 0x100
  | .firstReserved cw => .cwFirst cw
  | .eof => .cwRead 0x0100
  | .hit cw => .cwRead cw
  | .kwkwk cw => .cwRead cw
  | .codeReserved cw => .cwRead cw
  | .compressFrozen => .cmd16 0x6E2D
  | .compressSaturate => .cmd16 0x722D
  | .compressMonitored => .cmd16 0x6D2D
  | .expand p => .cmd16 (p ++ opExpand)
  | .start v => .csr (.write 0x00 v)
  | .cmdWrite v => .csr (.write 0x04 v)
  | .csrRead off => .csr (.read off)
  | .encTag => .fsm 4
  | .encFirstEmpty => .fsm 5
  | .encFirstByte => .fsm 5
  | .encScanHit => .fsm 6
  | .encScanMiss => .fsm 6
  | .encScanEnd => .fsm 6
  | .encStep => .fsm 7
  | .encLast => .fsm 8
  | .encEof => .fsm 9
  | .decTag => .fsm 16
  | .decFirstEof => .fsm 17
  | .decFirstLiteral => .fsm 17
  | .decFirstReserved => .fsm 17
  | .decEmit => .fsm 18
  | .decReadLearn => .fsm 19
  | .decReadEof => .fsm 19
  | .decReadReserved => .fsm 19
  | .decReset => .fsm 20

/-- The condition a row's class or guard puts on what the core sees (`opcode_table.json`,
"condition" and "guard"); rows without one hold everywhere. -/
def Instr.guardHolds (v : View) : Instr → Bool
  | .hit cw => decide (cw.toNat < v.n.toNat)
  | .kwkwk cw => decide (cw.toNat = v.n.toNat)
  | .codeReserved cw => decide (v.n.toNat < cw.toNat)
  | .encFirstEmpty => v.inEmpty
  | .encFirstByte => !v.inEmpty
  | .encScanHit => !v.inEmpty && v.lookup.isSome
  | .encScanMiss => !v.inEmpty && v.lookup.isNone
  | .encScanEnd => v.inEmpty
  | .decFirstEof => v.next.any (fun cw => decide (cw.toNat = 256))
  | .decFirstLiteral => v.next.any (fun cw => decide (cw.toNat < 256))
  | .decFirstReserved => v.next.any (fun cw => decide (256 < cw.toNat))
  | .decReadLearn =>
    v.next.any (fun cw => decide (cw.toNat ≠ 256) && decide (cw.toNat ≤ v.n.toNat))
  | .decReadEof => v.next.any (fun cw => decide (cw.toNat = 256))
  | .decReadReserved =>
    v.next.any (fun cw => decide (cw.toNat ≠ 256) && decide (v.n.toNat < cw.toNat))
  | .tagFrozen => true
  | .tagSaturate => true
  | .tagMonitored => true
  | .tagReserved _ => true
  | .firstLiteral _ => true
  | .firstEof => true
  | .firstReserved _ => true
  | .eof => true
  | .compressFrozen => true
  | .compressSaturate => true
  | .compressMonitored => true
  | .expand _ => true
  | .start _ => true
  | .cmdWrite _ => true
  | .csrRead _ => true
  | .encTag => true
  | .encStep => true
  | .encLast => true
  | .encEof => true
  | .decTag => true
  | .decEmit => true
  | .decReset => true

/-! ### The words of the opcode table

`opcode_table.json` gives a row's bits without its format, and the formats share bit patterns
(0x04 is the state E_TAG, the offset of CMD and a reserved tag). The two functions below choose one
row for each pattern; log 18 says how. -/

/-- An 8-bit (or shorter) word: a legal tag, else a running state of ST (with the first row of the
state), else OP of EXPAND, else a reserved tag. -/
def decodeTableByte (w : Byte) : Instr :=
  if (policyOfTag w).isSome then decodeTag w
  else if w = opExpand then .expand 0
  else
    match decodeFsm ⟨true, none, none, 257⟩ (w.setWidth 5) with
    | .instr i => if w.toNat < 32 then i else .tagReserved w
    | .reject _ => .tagReserved w

/-- A word of 9 to 16 bits: a legal CMD value, else a codeword (a literal or a reserved value of
D_FIRST where nine bits hold it, EOF, 257 as KWKWK at N = 257, a reserved code of D_READ). -/
def decodeTableHalf (w : Code) : Instr :=
  match decodeCommand w with
  | .instr i => i
  | .reject _ =>
    if w.toNat < 256 then .firstLiteral (w.setWidth 8)
    else if w.toNat = 256 then .eof
    else if w.toNat = 257 then .kwkwk w
    else if w.toNat < 512 then .firstReserved w
    else .codeReserved w

/-- The instruction of a table word of `nbits` bits: up to 8 bits a tag or a state, 9 bits a first
codeword, up to 16 bits a CMD value or a codeword, up to 40 bits a CSR write as offset (bits 7..0)
and value (bits 39..8); none for a longer word or one the decoder rejects. -/
def decodeTableWord (nbits w : Nat) : Option Instr :=
  if nbits ≤ 8 then some (decodeTableByte (BitVec.ofNat 8 w))
  else if nbits ≤ 9 then some (decodeFirst (BitVec.ofNat 16 (w % 512)))
  else if nbits ≤ 16 then some (decodeTableHalf (BitVec.ofNat 16 w))
  else if nbits ≤ 40 then
    match decodeCsr (.write (BitVec.ofNat 8 w) (BitVec.ofNat 32 (w / 256))) with
    | .instr i => some i
    | .reject _ => none
  else none

end Sys2Proof
end

