-- ==== Sys2Proof/Machine/State.lean ====
section
/-! DEFINITION. The machine's state (`10_state.md` R30), grouped as the table of R30 groups it, the
ports and collaborators beside it, the pending actions of the host, and the state after reset
(R67, `70_reset_and_hazards.md` R400). All of it is plain data. -/

namespace Sys2Proof.Machine

/-- The control group (`10_state.md` R33 to R37). -/
structure Control where
  /-- ST (R33). -/
  st : Phase
  /-- SIDE (R34). -/
  side : Side
  /-- POL (R35). -/
  pol : Policy
  /-- BUSY (R36). -/
  busy : Bool
  /-- DONE (R36). -/
  done : Bool
  /-- ERROR (R36). -/
  error : Bool
  /-- CMD (R37, R53). -/
  cmd : BitVec 16
deriving DecidableEq, Repr

/-- The width controller's registers (`10_state.md` R31). -/
structure Width where
  /-- W (R31). -/
  w : BitVec 5
  /-- L (R31). -/
  l : Count
  /-- N (R31, R32). -/
  n : Count
deriving DecidableEq, Repr

/-- The reset policy arbiter's registers (`10_state.md` R38, R39). -/
structure Arbiter where
  /-- ACC_NUM (R38). -/
  accNum : BitVec 64
  /-- ACC_DEN (R38). -/
  accDen : BitVec 64
  /-- BASE_VALID (R39). -/
  baseValid : Bool
  /-- BASE_NUM (R39). -/
  baseNum : BitVec 64
  /-- BASE_DEN (R39). -/
  baseDen : BitVec 64
deriving DecidableEq, Repr

/-- The encoder datapath (`10_state.md` R40, R41). -/
structure EncData where
  /-- CUR (R40). -/
  cur : Code
  /-- CUR_LEN (R40). -/
  curLen : Count
  /-- NXT (R41). -/
  nxt : Byte
deriving DecidableEq, Repr

/-- The decoder datapath (`10_state.md` R42, R43). -/
structure DecData where
  /-- PREV (R42). -/
  prev : Code
  /-- CW (R43). -/
  cw : Code
deriving DecidableEq, Repr

/-- One entry of the code-table register file (`10_state.md` R44). -/
structure TabEntry where
  /-- PREFIX: the code of the string without its last byte. -/
  prefixCode : Code
  /-- SUFFIX: the last byte. -/
  suffix : Byte
  /-- FIRST: the first byte. -/
  first : Byte
  /-- LEN: the length. -/
  len : Count
deriving DecidableEq, Repr

/-- The two addressed stores (`20_memory.md` R80): the code-table register file TAB
(`10_state.md` R44) and the external dictionary (`44_code_table.md` R310). Each is a list of
(key, value) pairs whose keys rise strictly; `Memory.wf` states the form. -/
structure Memory where
  /-- TAB: the entries at indices 256 to 65535 that differ from the all-zero entry, by index. -/
  tab : List (Nat × TabEntry)
  /-- The learned keys of the dictionary, key (p, b) standing as 256 p + b. -/
  dict : List (Nat × Code)
deriving DecidableEq, Repr

/-- The observability counters (`10_state.md` R45, R46). -/
structure Counters where
  /-- GEN (R45). -/
  gen : BitVec 32
  /-- CW_COUNT (R46). -/
  cwCount : BitVec 32
deriving DecidableEq, Repr

/-- The error latch (`10_state.md` R47). -/
structure ErrLatch where
  /-- ERR_CAUSE. -/
  cause : BitVec 4
  /-- ERR_DETAIL. -/
  detail : BitVec 4
  /-- ERR_CW. -/
  cw : Code
  /-- ERR_N. -/
  n : Count
deriving DecidableEq, Repr

/-- The ports IN and OUT with their positions (`20_memory.md` R84 to R88). The output is
held as its bits (DEDUCED, log 26). -/
structure Ports where
  /-- The input byte sequence `in` (R84). -/
  inp : List Byte
  /-- The input position in bytes (R85). -/
  ip : Nat
  /-- The input position in bits (R86). -/
  bp : Nat
  /-- The output bit sequence, first bit first (R87). -/
  ob : List Bool
  /-- Whether Close() has ended the output (R88). -/
  closed : Bool
deriving DecidableEq, Repr

/-- What the host does next (`30_encoding.md` R146, `70_reset_and_hazards.md` R400). DESIGN CHOICE
(log 4): the list of these is the schedule of host and core. -/
inductive HostAction where
  /-- An access to the CSR window: RD or WR (R146). -/
  | csr (a : CsrAccess)
  /-- LOAD IN: place the bytes on the input port (R146). -/
  | load (bytes : List Byte)
  /-- The host lets the core fire one transition. -/
  | turn
  /-- WAIT: read STATUS until BUSY is clear (R146). -/
  | wait
  /-- CHECK: read STATUS, then ERRINFO if ERROR is set (R146). -/
  | check
  /-- Assert hardware reset (`70_reset_and_hazards.md` R400). -/
  | hardwareReset
deriving DecidableEq, Repr

/-- The host's side of the CSR port. -/
structure HostPort where
  /-- The value the CSR port last returned (`45_host_commands.md` R330; log 11). -/
  rdata : CsrWord
  /-- The pending host actions, oldest first (log 4). -/
  pending : List HostAction
deriving DecidableEq, Repr

/-- The whole machine. -/
structure State where
  /-- ST, SIDE, POL, BUSY, DONE, ERROR, CMD. -/
  ctl : Control
  /-- W, L, N. -/
  wid : Width
  /-- ACC_NUM, ACC_DEN, BASE_VALID, BASE_NUM, BASE_DEN. -/
  arb : Arbiter
  /-- CUR, CUR_LEN, NXT. -/
  enc : EncData
  /-- PREV, CW. -/
  dec : DecData
  /-- TAB and the dictionary. -/
  mem : Memory
  /-- GEN, CW_COUNT. -/
  cnt : Counters
  /-- ERR_CAUSE, ERR_DETAIL, ERR_CW, ERR_N. -/
  err : ErrLatch
  /-- IN and OUT. -/
  port : Ports
  /-- The host's side. -/
  host : HostPort
  /-- `RATIO_ARITH`, a parameter no step writes (`00_scope.md` R10; log 12). -/
  ratioArith : RatioArith
deriving DecidableEq, Repr

/-- The faults of the core (`60_exceptions.md` R360). Raising one is no stop of the model: the
fault entry R370 gives a next state in ERROR. -/
inductive FaultKind where
  | badOp
  | badPolicy
  | badCode
  | badFirst
  | badTag
  | truncated
  | counter
  | value
  | accNum
  | accDen
deriving DecidableEq, Repr

/-- Where the model itself stops with a fault. -/
inductive Fault where
  /-- Raised by DEC_EMIT and DEC_RESET: the recursion of `Str(PREV)` (`44_code_table.md` R302) meets
  no entry of LEN 1, so the string does not exist. Only in states no run reaches (R304). Safe
  (log 13). -/
  | unresolvedString
  /-- Raised by a step that takes LOAD IN while BUSY = 1: `70_reset_and_hazards.md` R415 forbids the
  host to change IN during a pass and says no effect. Safe (log 14). -/
  | inputChangedDuringPass
deriving DecidableEq, Repr

/-- Where the model refuses. -/
inductive Refusal where
  /-- Raised by exec for an instruction whose meaning is not written yet. Safe. -/
  | notModelled (mnemonic : String)
  /-- Raised by the meaning of a transition, a wire item or a command that is not enabled in the
  state it is asked of: its guard does not hold or its item does not stand there, so by
  `00_scope.md` R14 it does not fire. `step` never asks this of a transition. Safe (log 1). -/
  | notEnabled
  /-- Raised by CSR_READ and by a step that takes a CSR access at an offset that is not a multiple
  of 4, against `10_state.md` R51. Safe (log 15). -/
  | misalignedAccess
deriving DecidableEq, Repr

/-- The state after hardware reset at power-on (`10_state.md` R67, `70_reset_and_hazards.md` R400).
DESIGN CHOICE (logs 6, 8, 9, 10, 11): the registers and ports R67 leaves unspecified are zero or
empty. -/
def State.reset : State where
  ctl :=
    { st := .idle, side := .enc, pol := .frozen, busy := false, done := false, error := false,
      cmd := 0 }
  wid := { w := 9, l := 512, n := 257 }
  arb := { accNum := 0, accDen := 0, baseValid := false, baseNum := 0, baseDen := 0 }
  enc := { cur := 0, curLen := 0, nxt := 0 }
  dec := { prev := 0, cw := 0 }
  mem := { tab := [], dict := [] }
  cnt := { gen := 0, cwCount := 0 }
  err := { cause := 0, detail := 0, cw := 0, n := 0 }
  port := { inp := [], ip := 0, bp := 0, ob := [], closed := false }
  host := { rdata := 0, pending := [] }
  ratioArith := Config.defaultArith

/-- The outcomes of this machine's steps. -/
abbrev Result := Host.Outcome State Fault Refusal

end Sys2Proof.Machine
end

