-- ==== Sys2Proof/Machine/Store.lean ====
section
/-! DEFINITION. Sparse stores: lists of (key, value) pairs with strictly rising keys, and the
canonical form of the machine's two stores. -/

namespace Sys2Proof.Machine

/-- The value listed at a key, if any. -/
def storeGet {α : Type} : List (Nat × α) → Nat → Option α
  | [], _ => none
  | (k, v) :: rest, key => if key = k then some v else storeGet rest key

/-- List a value at a key, replacing what the key had; rising keys stay rising. -/
def storePut {α : Type} : List (Nat × α) → Nat → α → List (Nat × α)
  | [], key, val => [(key, val)]
  | (k, v) :: rest, key, val =>
    if key < k then (key, val) :: (k, v) :: rest
    else if key = k then (key, val) :: rest
    else (k, v) :: storePut rest key val

/-- Remove a key. -/
def storeErase {α : Type} : List (Nat × α) → Nat → List (Nat × α)
  | [], _ => []
  | (k, v) :: rest, key => if key = k then rest else (k, v) :: storeErase rest key

/-- Every key is at least `lo` and the keys rise strictly. -/
def storeSortedFrom {α : Type} : Nat → List (Nat × α) → Bool
  | _, [] => true
  | lo, (k, _) :: rest => decide (lo ≤ k) && storeSortedFrom (k + 1) rest

/-- What an unlisted index of TAB[256..65535] reads as. DESIGN CHOICE (log 8): `10_state.md` R67
leaves these registers unspecified after hardware reset, and no rule reads one before it is
written. -/
def tabBlank : TabEntry := { prefixCode := 0, suffix := 0, first := 0, len := 0 }

/-- The canonical form of the code table: indices 256 to 65535, rising, none listed at the value an
unlisted index reads as. -/
def tabWf (tab : List (Nat × TabEntry)) : Bool :=
  storeSortedFrom 256 tab
    && tab.all (fun c => decide (c.1 < Config.tableDepth) && decide (c.2 ≠ tabBlank))

/-- The canonical form of the dictionary: keys below 2^24, rising. -/
def dictWf (dict : List (Nat × Code)) : Bool :=
  storeSortedFrom 0 dict && dict.all (fun c => decide (c.1 < 2 ^ 24))

/-- The canonical form of the machine's stores. -/
def Memory.wf (m : Memory) : Bool := tabWf m.tab && dictWf m.dict

/-! ### The code-table register file (`44_code_table.md` R301, R303) -/

/-- `TabRead(j)` (R301): entries 0 to 255 are hardwired single bytes. -/
def tabRead (m : Memory) (j : Code) : TabEntry :=
  if j.toNat < 256 then
    { prefixCode := 0, suffix := j.setWidth 8, first := j.setWidth 8, len := 1 }
  else (storeGet m.tab j.toNat).getD tabBlank

/-- `TabWrite(j, e)` (R303). The hardwired entries 0 to 255 discard a write (`10_state.md` R44; no
rule makes one; DEDUCED, log 24). -/
def tabWrite (m : Memory) (j : Code) (e : TabEntry) : Memory :=
  if j.toNat < 256 then m
  else if e = tabBlank then { m with tab := storeErase m.tab j.toNat }
  else { m with tab := storePut m.tab j.toNat e }

/-- The recursion of `Str` (R302), at most `fuel` entries deep. -/
def strFuel (m : Memory) : Nat → Code → Option (List Byte)
  | 0, _ => none
  | fuel + 1, j =>
    if (tabRead m j).len = 1 then some [(tabRead m j).suffix]
    else (strFuel m fuel (tabRead m j).prefixCode).map (· ++ [(tabRead m j).suffix])

/-- `Str(j)` (R302), the byte string entry j denotes. A recursion that meets no entry of LEN 1 in
as many entries as the table has never ends, and then there is no string (log 13). -/
def str (m : Memory) (j : Code) : Option (List Byte) := strFuel m Config.tableDepth j

/-! ### The dictionary port (`44_code_table.md` R310 to R316) -/

/-- The key (p, b) as one number. -/
def dictKey (p : Code) (b : Byte) : Nat := 256 * p.toNat + b.toNat

/-- `DictLookup(p, b)` (R312). -/
def dictLookup (m : Memory) (p : Code) (b : Byte) : Option Code := storeGet m.dict (dictKey p b)

/-- `DictInsert(p, b, k)` (R313): replaces any earlier mapping of the key. -/
def dictInsert (m : Memory) (p : Code) (b : Byte) (k : Code) : Memory :=
  { m with dict := storePut m.dict (dictKey p b) k }

/-- `DictClear()` (R314). -/
def dictClear (m : Memory) : Memory := { m with dict := [] }

end Sys2Proof.Machine
end

