-- ==== Sys2Proof/Machine/Operands.lean ====
section
/-! DEFINITION. Reading operands: the input port on both sides (`20_memory.md` R85, R86, R89), the
view the guards look at, and the registers of the CSR window (`10_state.md` R51 to R66). -/

namespace Sys2Proof.Machine

/-! ### The input port -/

/-- The next input byte `in[ip]` of the encoder side, if one remains (`20_memory.md` R85). -/
def nextByte (s : State) : Option Byte := s.port.inp[s.port.ip]?

/-- `InEmpty()` (`20_memory.md` R85, `00_scope.md` R13): no input byte remains (log 25). -/
def inEmpty (s : State) : Bool := (nextByte s).isNone

/-- The next `w` bits of the input as a number, or none where fewer remain (`20_memory.md` R89). -/
def nextBits (s : State) (w : Nat) : Option Nat :=
  if s.port.bp + w ≤ 8 * s.port.inp.length then
    some (bitsValue (streamBits s.port.inp s.port.bp w))
  else none

/-- The next 8 bits as a byte: the mode tag (`41_decoder.md` R200). -/
def nextTag (s : State) : Option Byte := (nextBits s 8).map (BitVec.ofNat 8)

/-- The next W bits as a codeword, zero-extended (`30_encoding.md` R122). -/
def nextCode (s : State) : Option Code := (nextBits s s.wid.w.toNat).map (BitVec.ofNat 16)

/-- `DictLookup(CUR, c)` for the next input byte c (guards of `40_encoder.md` R163, R164). -/
def nextLookup (s : State) : Option Code :=
  match nextByte s with
  | some c => dictLookup s.mem s.enc.cur c
  | none => none

/-- What the guards look at. -/
def viewOf (s : State) : View :=
  { inEmpty := inEmpty s, lookup := nextLookup s, next := nextCode s, n := s.wid.n }

/-! ### The CSR window -/

/-- STATUS (`10_state.md` R54). -/
def csrStatus (s : State) : CsrWord :=
  (0 : BitVec 13) ++ s.ctl.side.code ++ s.ctl.pol.code ++ (0 : BitVec 3) ++ s.ctl.st.code
    ++ (0 : BitVec 5) ++ BitVec.ofBool s.ctl.error ++ BitVec.ofBool s.ctl.done
    ++ BitVec.ofBool s.ctl.busy

/-- WIDTH (`10_state.md` R55). -/
def csrWidth (s : State) : CsrWord := (0 : BitVec 7) ++ s.wid.l ++ (0 : BitVec 3) ++ s.wid.w

/-- NEXT (`10_state.md` R56). -/
def csrNext (s : State) : CsrWord := (0 : BitVec 15) ++ s.wid.n

/-- ERRINFO (`10_state.md` R59). -/
def csrErrInfo (s : State) : CsrWord :=
  (0 : BitVec 8) ++ s.err.cw ++ s.err.detail ++ s.err.cause

/-- ERRN (`10_state.md` R60). -/
def csrErrN (s : State) : CsrWord := (0 : BitVec 15) ++ s.err.n

/-- CMD as read (`10_state.md` R53): bits 31:16 are reserved and read 0. -/
def csrCmd (s : State) : CsrWord := (0 : BitVec 16) ++ s.ctl.cmd

/-- BASEFLAG (`10_state.md` R65). -/
def csrBaseFlag (s : State) : CsrWord := (0 : BitVec 31) ++ BitVec.ofBool s.arb.baseValid

/-- Bits 31:0 of a 64-bit register (`10_state.md` R61 to R64). -/
def lowHalf (v : BitVec 64) : CsrWord := v.extractLsb' 0 32

/-- Bits 63:32 of a 64-bit register (`10_state.md` R61 to R64). -/
def highHalf (v : BitVec 64) : CsrWord := v.extractLsb' 32 32

/-- The value a CSR read returns at a byte offset (`45_host_commands.md` R330, `10_state.md` R52 to
R66). CTRL is write-only and reads 0; every other offset is reserved and reads 0. -/
def csrValue (s : State) (off : Byte) : CsrWord :=
  if off = 0x04 then csrCmd s
  else if off = 0x08 then csrStatus s
  else if off = 0x0C then csrWidth s
  else if off = 0x10 then csrNext s
  else if off = 0x14 then s.cnt.gen
  else if off = 0x18 then s.cnt.cwCount
  else if off = 0x1C then csrErrInfo s
  else if off = 0x20 then csrErrN s
  else if off = 0x24 then lowHalf s.arb.accNum
  else if off = 0x28 then highHalf s.arb.accNum
  else if off = 0x2C then lowHalf s.arb.accDen
  else if off = 0x30 then highHalf s.arb.accDen
  else if off = 0x34 then lowHalf s.arb.baseNum
  else if off = 0x38 then highHalf s.arb.baseNum
  else if off = 0x3C then lowHalf s.arb.baseDen
  else if off = 0x40 then highHalf s.arb.baseDen
  else if off = 0x44 then csrBaseFlag s
  else 0

end Sys2Proof.Machine
end

