-- ==== Sys2Proof/Machine/Flags.lean ====
section
/-! DEFINITION. The tests and flags of the core: the width controller's tests
(`42_width_controller.md` R250 to R254), the ratio comparison of the Monitored policy
(`43_reset_policy.md` R278) and the status flags (`10_state.md` R36). -/

namespace Sys2Proof.Machine

/-! ### The width controller's tests -/

/-- The side offset δ (R250). -/
def delta : Side → Nat
  | .enc => 0
  | .dec => 1

/-- `ShouldGrow()` (R251): W < 16 and N = L - δ. -/
def shouldGrow (s : State) : Bool :=
  decide (s.wid.w.toNat < Config.wMax)
    && decide (s.wid.n.toNat + delta s.ctl.side = s.wid.l.toNat)

/-- `CanInsert()` (R252): N < L. -/
def canInsert (s : State) : Bool := decide (s.wid.n.toNat < s.wid.l.toNat)

/-- `AtCeiling()` (R254): N >= 65536 - δ. -/
def atCeiling (s : State) : Bool :=
  decide (Config.ceiling ≤ s.wid.n.toNat + delta s.ctl.side)

/-! ### Binary64 values

The comparison divides natural numbers, so every finite value is zero or a normal number, and no
value leaves the normal range: the operands are below 2^64, the quotients lie between 2^-130 and
2^130. Infinity and NaN are what IEEE 754 gives a division by zero; R279 shows that none is
reached (PRESUMED, log 17). -/

/-- A non-negative binary64 value: a normal number is `m × 2^e` with `2^52 ≤ m < 2^53`. -/
inductive F64 where
  | zero
  | normal (m : Nat) (e : Int)
  | inf
  | nan
deriving DecidableEq, Repr

/-- The exponent e that makes `num / (den × 2^e)` lie in [2^52, 2^53), for positive operands. -/
def quotExp (num den : Nat) : Int :=
  let e : Int := (Nat.log2 num : Int) - (Nat.log2 den : Int) - 52
  if num * 2 ^ (-e).toNat < den * 2 ^ e.toNat * 2 ^ 52 then e - 1 else e

/-- The natural number nearest `a / b`, ties to even, for positive `b`. -/
def divNearest (a b : Nat) : Nat :=
  let q := a / b
  let r := a % b
  if 2 * r < b then q else if b < 2 * r then q + 1 else if q % 2 = 0 then q else q + 1

/-- The binary64 value nearest `num / den × 2^shift` for positive `num` and `den`, ties to even. -/
def roundQuot (num den : Nat) (shift : Int) : F64 :=
  let e := quotExp num den
  let m := divNearest (num * 2 ^ (-e).toNat) (den * 2 ^ e.toNat)
  if m = 2 ^ 53 then .normal (2 ^ 52) (e + 1 + shift) else .normal m (e + shift)

/-- `cvt(x)` (R278): the binary64 value nearest the natural number x, ties to even. -/
def cvt (x : Nat) : F64 := if x = 0 then .zero else roundQuot x 1 0

/-- `fdiv(x, y)` (R278): the binary64 quotient, rounded to nearest with ties to even. -/
def fdiv : F64 → F64 → F64
  | .normal m e, .normal m' e' => roundQuot m m' (e - e')
  | .normal _ _, .zero => .inf
  | .normal _ _, .inf => .zero
  | .zero, .normal _ _ => .zero
  | .zero, .inf => .zero
  | .inf, .normal _ _ => .inf
  | .inf, .zero => .inf
  | .zero, .zero => .nan
  | .inf, .inf => .nan
  | .nan, _ => .nan
  | _, .nan => .nan

/-- `x > y` on binary64 values, as reals (R278); a comparison with NaN is false. -/
def fgt : F64 → F64 → Bool
  | .normal m e, .normal m' e' => decide (e' < e) || (decide (e = e') && decide (m' < m))
  | .normal _ _, .zero => true
  | .inf, .normal _ _ => true
  | .inf, .zero => true
  | .normal _ _, .inf => false
  | .normal _ _, .nan => false
  | .inf, .inf => false
  | .inf, .nan => false
  | .zero, _ => false
  | .nan, _ => false

/-- The bits of a binary64 value (R278, general knowledge there); NaN as the default quiet NaN. -/
def f64Bits : F64 → BitVec 64
  | .zero => 0
  | .normal m e => BitVec.ofNat 64 ((e + 1075).toNat * 2 ^ 52 + (m - 2 ^ 52))
  | .inf => 0x7FF0000000000000
  | .nan => 0x7FF8000000000000

/-- T, the binary64 value nearest 1.1, `0x3FF199999999999A` (R278). -/
def threshold : F64 := .normal 0x1199999999999A (-52)

/-- `Degraded(bn, bd, an, ad)` (R278). -/
def degraded (arith : RatioArith) (bn bd an ad : Nat) : Bool :=
  match arith with
  | .exact => decide (11 * bd * an < 10 * bn * ad)
  | .binary64 =>
    fgt (fdiv (fdiv (cvt bn) (cvt bd)) (fdiv (cvt an) (cvt ad))) threshold

/-! ### Status flags and state changes -/

/-- `goto S` (`00_scope.md` R13). -/
def goto (p : Phase) (s : State) : State := { s with ctl.st := p }

/-- A pass ends well: BUSY <- 0; DONE <- 1; goto DONE (`40_encoder.md` R168, `41_decoder.md` R201,
R206). -/
def finishPass (s : State) : State :=
  { s with ctl.busy := false, ctl.done := true, ctl.st := .done }

end Sys2Proof.Machine
end

