-- ==== Sys2Proof/Machine/Ops.lean ====
section
/-! DEFINITION. The named operations the transitions share: taking a fault and hardware reset, the
ports, the width promotion, the arbiter, reinitialization. -/

namespace Sys2Proof.Machine

/-! ### Taking a fault, and leaving ERROR -/

/-- ERR_CAUSE of a fault (`60_exceptions.md` R360). -/
def FaultKind.cause : FaultKind → BitVec 4
  | .badOp => 1
  | .badPolicy => 1
  | .badCode => 2
  | .badFirst => 2
  | .badTag => 2
  | .truncated => 2
  | .counter => 3
  | .value => 3
  | .accNum => 4
  | .accDen => 4

/-- ERR_DETAIL of a fault (`60_exceptions.md` R360). -/
def FaultKind.detail : FaultKind → BitVec 4
  | .badOp => 1
  | .badPolicy => 2
  | .badCode => 1
  | .badFirst => 2
  | .badTag => 3
  | .truncated => 4
  | .counter => 1
  | .value => 2
  | .accNum => 1
  | .accDen => 2

/-- `raise Fault(cause, detail, v)`, the fault entry (`60_exceptions.md` R370). The state given is
the one the steps before the raise have made (R371). -/
def raiseFault (k : FaultKind) (v : Code) (s : State) : State :=
  { s with
    err := { cause := k.cause, detail := k.detail, cw := v, n := s.wid.n }
    ctl.busy := false
    ctl.done := false
    ctl.error := true
    ctl.st := .error }

/-- Hardware reset (`70_reset_and_hazards.md` R400, `10_state.md` R67). A fault has no return
(`60_exceptions.md` R373): this and START are the two ways out of ERROR. Registers R67 leaves
unspecified are not written (DESIGN CHOICE, log 7), and the dictionary and the ports are not
touched. -/
def hardwareReset (s : State) : State :=
  { s with
    ctl :=
      { st := .idle, side := .enc, pol := .frozen, busy := false, done := false, error := false,
        cmd := 0 }
    wid := { w := 9, l := 512, n := 257 }
    arb := { accNum := 0, accDen := 0, baseValid := false, baseNum := 0, baseDen := 0 }
    cnt := { gen := 0, cwCount := 0 }
    err := { cause := 0, detail := 0, cw := 0, n := 0 } }

/-- A run of the steps of a transition: it goes on, or a raise has ended it (`00_scope.md` R13,
`60_exceptions.md` R370). Both hold a state; the raised one is after the fault entry. -/
inductive Flow where
  | cont (s : State)
  | raised (s : State)
deriving DecidableEq, Repr

/-- Go on with further steps unless a raise has ended the transition. -/
def Flow.andThen (f : Flow) (k : State → Flow) : Flow :=
  match f with
  | .cont s => k s
  | .raised s => .raised s

/-- The outcome of a whole transition. -/
def Flow.outcome (f : Flow) : Result :=
  match f with
  | .cont s => .next s
  | .raised s => .next s

/-- A meaning that fires only where its guard holds (`00_scope.md` R14; log 1). -/
def whenEnabled (guard : Bool) (r : Result) : Result :=
  if guard then r else .refused .notEnabled

/-! ### The ports (`20_memory.md` R85 to R89) -/

/-- `InByte()` moves past the byte it returns (R85). -/
def skipByte (s : State) : State := { s with port.ip := s.port.ip + 1 }

/-- `BitWrite(v, w)` (R87); of a value of more than `w` bits the low `w` bits (log 19). -/
def bitWrite (v w : Nat) (s : State) : State :=
  { s with port.ob := s.port.ob ++ bitsOf v w }

/-- The bits of a byte sequence in stream order (R86, R87). -/
def bytesBits : List Byte → List Bool
  | [] => []
  | b :: bs => bitsOf b.toNat 8 ++ bytesBits bs

/-- `BytesWrite(bs)` (R87). -/
def bytesWrite (bs : List Byte) (s : State) : State :=
  { s with port.ob := s.port.ob ++ bytesBits bs }

/-- `Close()` (R88). -/
def closeOut (s : State) : State :=
  { s with
    port.ob := s.port.ob ++ List.replicate ((8 - s.port.ob.length % 8) % 8) false
    port.closed := true }

/-- The OUT byte sequence (R88). -/
def outBytes (s : State) : List Byte := packBytes s.port.ob

/-- `BitRead(w)` moves past the bits it returns (R89). -/
def skipBits (w : Nat) (s : State) : State := { s with port.bp := s.port.bp + w }

/-- CW_COUNT <- CW_COUNT + 1, modulo 2^32 (`10_state.md` R46). -/
def countCode (s : State) : State := { s with cnt.cwCount := s.cnt.cwCount + 1 }

/-- Write a codeword at the width in force: BitWrite(v, W); CW_COUNT <- CW_COUNT + 1. -/
def writeCode (v : Nat) (s : State) : State := countCode (bitWrite v s.wid.w.toNat s)

/-- Take the codeword read: CW <- zext_16(BitRead(W)); CW_COUNT <- CW_COUNT + 1. -/
def takeCode (cw : Code) (s : State) : State :=
  countCode { skipBits s.wid.w.toNat s with dec.cw := cw }

/-- Read a codeword and go on; too few bits raise TRUNCATED before anything else
(`20_memory.md` R89). -/
def readCode (s : State) (k : Code → Result) : Result :=
  match nextCode s with
  | none => .next (raiseFault .truncated 0 s)
  | some cw => k cw

/-! ### The width controller -/

/-- `Grow()` (`42_width_controller.md` R253). -/
def grow (s : State) : State :=
  { s with wid.w := s.wid.w + 1, wid.l := 2 * s.wid.l }

/-- N <- N + 1, in 17 bits (log 23). -/
def bumpN (s : State) : State := { s with wid.n := s.wid.n + 1 }

/-- The check `N > L` after a step's insertions (`60_exceptions.md` R366). -/
def checkCounter (s : State) : Flow :=
  if s.wid.l.toNat < s.wid.n.toNat then .raised (raiseFault .counter 0 s) else .cont s

/-! ### The arbiter (`43_reset_policy.md`) -/

/-- The source's ResetDecision (R270). -/
inductive Decision where
  | noOp
  | reinit
deriving DecidableEq, Repr

/-- `Accumulate(len, w)` (R276, R277). -/
def accumulate (len w : Nat) (s : State) : Flow :=
  if s.ctl.pol ≠ .monitored then .cont s
  else if Config.accBound ≤ s.arb.accNum.toNat + 8 * len then .raised (raiseFault .accNum 0 s)
  else if Config.accBound ≤ s.arb.accDen.toNat + w then .raised (raiseFault .accDen 0 s)
  else
    .cont { s with
      arb.accNum := s.arb.accNum + BitVec.ofNat 64 (8 * len)
      arb.accDen := s.arb.accDen + BitVec.ofNat 64 w }

/-- The writes of `Capture()` (R273). -/
def capture (s : State) : State :=
  { s with arb.baseNum := s.arb.accNum, arb.baseDen := s.arb.accDen, arb.baseValid := true }

/-- Whether the current ratio is degraded against the baseline (R274). -/
def ratioDegraded (s : State) : Bool :=
  degraded s.ratioArith s.arb.baseNum.toNat s.arb.baseDen.toNat s.arb.accNum.toNat
    s.arb.accDen.toNat

/-- The decision of `Arbitrate()` (R270 to R274). -/
def arbitrate (s : State) : Decision :=
  match s.ctl.pol with
  | .frozen => .noOp
  | .saturate => .reinit
  | .monitored => if s.arb.baseValid && ratioDegraded s then .reinit else .noOp

/-- The state `Arbitrate()` leaves: only `Capture` writes (R270, R273). -/
def afterArbitrate (s : State) : State :=
  if s.ctl.pol = .monitored ∧ s.arb.baseValid = false then capture s else s

/-- `Reinit()` (`70_reset_and_hazards.md` R405). On DEC the old entries stay in the storage and no
rule reads them (`44_code_table.md` R307). -/
def reinit (s : State) : State :=
  { s with
    mem := match s.ctl.side with
      | .enc => dictClear s.mem
      | .dec => s.mem
    wid := { w := 9, l := 512, n := 257 }
    arb := { accNum := 0, accDen := 0, baseValid := false, baseNum := 0, baseDen := 0 }
    cnt.gen := s.cnt.gen + 1 }

end Sys2Proof.Machine
end

