-- ==== Sys2Proof/Machine/Decoder.lean ====
section
/-! DEFINITION. The decoder's transitions (`41_decoder.md` R200 to R208) and the wire items they
consume (`30_encoding.md` R125 to R127). A transition reads its item and raises TRUNCATED where too
few bits remain; a wire item is enabled where it stands next on the wire (log 2). -/

namespace Sys2Proof.Machine

/-! ### What the transitions do with the item they read -/

/-- The tag T has been read (R200). -/
def takeTag (t : Byte) (s : State) : State :=
  match policyOfTag t with
  | some p => goto .dFirst { skipBits 8 s with ctl.pol := p }
  | none => raiseFault .badTag (t.setWidth 16) (skipBits 8 s)

/-- EOF has been read (R201, R206). -/
def endStream (cw : Code) (s : State) : State := finishPass (closeOut (takeCode cw s))

/-- A literal has been read in D_FIRST (R202). -/
def startGeneration (cw : Code) (s : State) : Flow :=
  (accumulate 1 s.wid.w.toNat { takeCode cw s with dec.prev := cw }).andThen fun t =>
  .cont (goto .dEmit t)

/-- The first byte and the length of the string of the codeword `cw` (R205): a HIT reads its entry,
KWKWK derives it from PREV. -/
def codeFirst (cw : Code) (s : State) : Byte :=
  if cw.toNat < s.wid.n.toNat then (tabRead s.mem cw).first
  else (tabRead s.mem s.dec.prev).first

/-- See `codeFirst`. -/
def codeLen (cw : Code) (s : State) : Nat :=
  if cw.toNat < s.wid.n.toNat then (tabRead s.mem cw).len.toNat
  else (tabRead s.mem s.dec.prev).len.toNat + 1

/-- The entry `val + s[0]` learned at a codeword (R205, `44_code_table.md` R303). -/
def learnedEntry (cw : Code) (s : State) : TabEntry :=
  { prefixCode := s.dec.prev
    suffix := codeFirst cw s
    first := (tabRead s.mem s.dec.prev).first
    len := (tabRead s.mem s.dec.prev).len + 1 }

/-- TabWrite(N, e); N <- N + 1. The index is the low 16 bits of N (log 23). -/
def insertEntry (e : TabEntry) (s : State) : State :=
  bumpN { s with mem := tabWrite s.mem (s.wid.n.setWidth 16) e }

/-- Steps 3c and 3d of R205: learn the entry; at a promotion, write the waste slot and grow. -/
def learnEntry (e : TabEntry) (s : State) : State :=
  let s := if canInsert s then insertEntry e s else s
  if shouldGrow s then grow (insertEntry e s) else s

/-- Consult the arbiter at the ceiling; a reinitialization goes through D_RESET (R205,
`43_reset_policy.md` R270). -/
def consultDec (s : State) : State :=
  if atCeiling s then
    match arbitrate s with
    | .noOp => goto .dEmit (afterArbitrate s)
    | .reinit => goto .dReset (afterArbitrate s)
  else goto .dEmit s

/-- A HIT or KWKWK codeword has been read in D_READ (R205). -/
def learnCode (cw : Code) (s : State) : Flow :=
  (checkCounter (learnEntry (learnedEntry cw s) (takeCode cw s))).andThen fun s1 =>
  (accumulate (codeLen cw s) s.wid.w.toNat { s1 with dec.prev := cw }).andThen fun s2 =>
  .cont (consultDec s2)

/-- A reserved first codeword has been read (R203). -/
def rejectFirst (cw : Code) (s : State) : State := raiseFault .badFirst cw (takeCode cw s)

/-- A codeword beyond N has been read in D_READ (R207). -/
def rejectCode (cw : Code) (s : State) : State := raiseFault .badCode cw (takeCode cw s)

/-- Write `Str(PREV)` and go on (R204, R208). -/
def emitPrev (s : State) (k : State → State) : Result :=
  match str s.mem s.dec.prev with
  | some bs => .next (k (bytesWrite bs s))
  | none => .fault .unresolvedString

/-! ### The transitions -/

/-- DEC_TAG (R200): read the mode tag and select the policy. -/
def execDecTag (s : State) : Result :=
  whenEnabled (s.ctl.st = .dTag)
    (match nextTag s with
    | none => .next (raiseFault .truncated 0 s)
    | some t => .next (takeTag t s))

/-- DEC_FIRST_EOF (R201): EOF as the first codeword of a generation. -/
def execDecFirstEof (s : State) : Result :=
  whenEnabled (s.ctl.st = .dFirst)
    (readCode s fun cw => whenEnabled (cw.toNat = Config.eofCode) (.next (endStream cw s)))

/-- DEC_FIRST_LITERAL (R202): a literal starts the generation. -/
def execDecFirstLiteral (s : State) : Result :=
  whenEnabled (s.ctl.st = .dFirst)
    (readCode s fun cw => whenEnabled (cw.toNat < 256) (startGeneration cw s).outcome)

/-- DEC_FIRST_RESERVED (R203): any other first codeword faults. -/
def execDecFirstReserved (s : State) : Result :=
  whenEnabled (s.ctl.st = .dFirst)
    (readCode s fun cw => whenEnabled (Config.firstCode ≤ cw.toNat) (.next (rejectFirst cw s)))

/-- DEC_EMIT (R204): write the string of PREV. -/
def execDecEmit (s : State) : Result :=
  whenEnabled (s.ctl.st = .dEmit) (emitPrev s (goto .dRead))

/-- DEC_READ_LEARN (R205): a hit or a self-referential codeword. -/
def execDecReadLearn (s : State) : Result :=
  whenEnabled (s.ctl.st = .dRead)
    (readCode s fun cw =>
      whenEnabled (cw.toNat ≠ Config.eofCode && cw.toNat ≤ s.wid.n.toNat)
        (learnCode cw s).outcome)

/-- DEC_READ_EOF (R206): EOF ends the stream. -/
def execDecReadEof (s : State) : Result :=
  whenEnabled (s.ctl.st = .dRead)
    (readCode s fun cw => whenEnabled (cw.toNat = Config.eofCode) (.next (endStream cw s)))

/-- DEC_READ_RESERVED (R207): a code beyond N faults. -/
def execDecReadReserved (s : State) : Result :=
  whenEnabled (s.ctl.st = .dRead)
    (readCode s fun cw =>
      whenEnabled (cw.toNat ≠ Config.eofCode && s.wid.n.toNat < cw.toNat)
        (.next (rejectCode cw s)))

/-- DEC_RESET (R208): write the pending string, then reinitialize. -/
def execDecReset (s : State) : Result :=
  whenEnabled (s.ctl.st = .dReset) (emitPrev s fun t => goto .dFirst (reinit t))

/-! ### The wire items -/

/-- The tag `t` stands next on the wire in D_TAG. -/
def tagAt (t : Byte) (s : State) : Bool := s.ctl.st = .dTag && nextTag s = some t

/-- The codeword `cw` stands next on the wire in the state `p`. -/
def codeAt (p : Phase) (cw : Code) (s : State) : Bool := s.ctl.st = p && nextCode s = some cw

/-- TAG_FROZEN (`30_encoding.md` R125, R200). -/
def execTagFrozen (s : State) : Result := whenEnabled (tagAt 0x6E s) (.next (takeTag 0x6E s))

/-- TAG_SATURATE (`30_encoding.md` R125, R200). -/
def execTagSaturate (s : State) : Result := whenEnabled (tagAt 0x72 s) (.next (takeTag 0x72 s))

/-- TAG_MONITORED (`30_encoding.md` R125, R200). -/
def execTagMonitored (s : State) : Result := whenEnabled (tagAt 0x6D s) (.next (takeTag 0x6D s))

/-- TAG_RESERVED (`30_encoding.md` R125, R200): the fault BAD_TAG. -/
def execTagReserved (t : Byte) (s : State) : Result :=
  whenEnabled (tagAt t s && (policyOfTag t).isNone) (.next (takeTag t s))

/-- FIRST_LITERAL (`30_encoding.md` R126, R202). -/
def execFirstLiteral (b : Byte) (s : State) : Result :=
  whenEnabled (codeAt .dFirst (b.setWidth 16) s) (startGeneration (b.setWidth 16) s).outcome

/-- FIRST_EOF (`30_encoding.md` R126, R201). -/
def execFirstEof (s : State) : Result :=
  whenEnabled (codeAt .dFirst 256 s) (.next (endStream 256 s))

/-- FIRST_RESERVED (`30_encoding.md` R126, R203): the fault BAD_FIRST. -/
def execFirstReserved (cw : Code) (s : State) : Result :=
  whenEnabled (codeAt .dFirst cw s && Config.firstCode ≤ cw.toNat) (.next (rejectFirst cw s))

/-- EOF (`30_encoding.md` R127, R206). -/
def execEof (s : State) : Result :=
  whenEnabled (codeAt .dRead 256 s) (.next (endStream 256 s))

/-- HIT (`30_encoding.md` R127, R205). -/
def execHit (cw : Code) (s : State) : Result :=
  whenEnabled
    (codeAt .dRead cw s && cw.toNat ≠ Config.eofCode && cw.toNat < s.wid.n.toNat)
    (learnCode cw s).outcome

/-- KWKWK (`30_encoding.md` R127, R205). -/
def execKwkwk (cw : Code) (s : State) : Result :=
  whenEnabled
    (codeAt .dRead cw s && cw.toNat ≠ Config.eofCode && cw.toNat = s.wid.n.toNat)
    (learnCode cw s).outcome

/-- CODE_RESERVED (`30_encoding.md` R127, R207): the fault BAD_CODE. -/
def execCodeReserved (cw : Code) (s : State) : Result :=
  whenEnabled
    (codeAt .dRead cw s && cw.toNat ≠ Config.eofCode && s.wid.n.toNat < cw.toNat)
    (.next (rejectCode cw s))

end Sys2Proof.Machine
end

