-- ==== Sys2Proof/Machine/Encoder.lean ====
section
/-! DEFINITION. The encoder's transitions (`40_encoder.md` R160 to R168). -/

namespace Sys2Proof.Machine

/-! ### Steps of E_STEP and E_LAST -/

/-- The check `CUR >= L` before the codeword is written (R166, `60_exceptions.md` R366). -/
def checkValue (s : State) : Flow :=
  if s.wid.l.toNat ≤ s.enc.cur.toNat then .raised (raiseFault .value s.enc.cur s) else .cont s

/-- DictInsert(CUR, NXT, N); N <- N + 1. The code is the low 16 bits of N (log 23). -/
def insertKey (s : State) : State :=
  bumpN { s with mem := dictInsert s.mem s.enc.cur s.enc.nxt (s.wid.n.setWidth 16) }

/-- Source step 3 and the boundary rule of E_STEP (R166). -/
def learnKey (s : State) : State :=
  let s := if canInsert s then insertKey s else s
  if shouldGrow s then insertKey (grow s) else s

/-- The same on the last step: the counter only, no DictInsert (R167). -/
def advanceCounter (s : State) : State :=
  let s := if canInsert s then bumpN s else s
  if shouldGrow s then bumpN (grow s) else s

/-- Consult the arbiter at the ceiling, and reinitialize in the same transition (R166,
`43_reset_policy.md` R270). -/
def consultEnc (s : State) : State :=
  if atCeiling s then
    match arbitrate s with
    | .noOp => afterArbitrate s
    | .reinit => reinit (afterArbitrate s)
  else s

/-- Source step 5: CUR <- zext_16(NXT); CUR_LEN <- 1. -/
def restartMatch (s : State) : State :=
  { s with enc.cur := s.enc.nxt.setWidth 16, enc.curLen := 1 }

/-- The common steps of R166 and R167: write CUR, take the bookkeeping `learn`, check, accumulate
at the width before any promotion, consult the arbiter. -/
def emitMatch (learn : State → State) (s : State) : Flow :=
  (checkValue s).andThen fun s1 =>
  (checkCounter (learn (writeCode s1.enc.cur.toNat s1))).andThen fun s2 =>
  (accumulate s2.enc.curLen.toNat s.wid.w.toNat s2).andThen fun s3 =>
  .cont (consultEnc s3)

/-! ### The transitions -/

/-- ENC_TAG (R160): write the mode tag. -/
def execEncTag (s : State) : Result :=
  whenEnabled (s.ctl.st = .eTag)
    (.next (goto .eFirst (bitWrite s.ctl.pol.tag.toNat 8 s)))

/-- ENC_FIRST_EMPTY (R161): empty input. -/
def execEncFirstEmpty (s : State) : Result :=
  whenEnabled (s.ctl.st = .eFirst && inEmpty s) (.next (goto .eEof s))

/-- ENC_FIRST_BYTE (R162): the first byte starts the first match. -/
def execEncFirstByte (s : State) : Result :=
  match nextByte s with
  | some b =>
    whenEnabled (s.ctl.st = .eFirst)
      (.next (goto .eScan
        { skipByte s with enc.cur := b.setWidth 16, enc.curLen := 1 }))
  | none => .refused .notEnabled

/-- ENC_SCAN_HIT (R163): extend the match. -/
def execEncScanHit (s : State) : Result :=
  match nextLookup s with
  | some k =>
    whenEnabled (s.ctl.st = .eScan)
      (.next (goto .eScan
        { skipByte s with enc.cur := k, enc.curLen := s.enc.curLen + 1 }))
  | none => .refused .notEnabled

/-- ENC_SCAN_MISS (R164): end the match, keep the byte that missed. -/
def execEncScanMiss (s : State) : Result :=
  match nextByte s with
  | some c =>
    whenEnabled (s.ctl.st = .eScan && (nextLookup s).isNone)
      (.next (goto .eStep { skipByte s with enc.nxt := c }))
  | none => .refused .notEnabled

/-- ENC_SCAN_END (R165): the input is exhausted. -/
def execEncScanEnd (s : State) : Result :=
  whenEnabled (s.ctl.st = .eScan && inEmpty s) (.next (goto .eLast s))

/-- ENC_STEP (R166): emit, learn, promote, consult, restart the match. -/
def execEncStep (s : State) : Result :=
  whenEnabled (s.ctl.st = .eStep)
    ((emitMatch learnKey s).andThen fun t => .cont (goto .eScan (restartMatch t))).outcome

/-- ENC_LAST (R167): emit the last match and advance the counter. -/
def execEncLast (s : State) : Result :=
  whenEnabled (s.ctl.st = .eLast)
    ((emitMatch advanceCounter s).andThen fun t => .cont (goto .eEof t)).outcome

/-- ENC_EOF (R168): write EOF and close the stream. -/
def execEncEof (s : State) : Result :=
  whenEnabled (s.ctl.st = .eEof)
    (.next (finishPass (closeOut (writeCode Config.eofCode s))))

end Sys2Proof.Machine
end

