-- ==== Sys2Proof/Machine/HostCommands.lean ====
section
/-! DEFINITION. The host commands (`45_host_commands.md` R330 to R334) and the CMD values START
accepts (`30_encoding.md` R136). -/

namespace Sys2Proof.Machine

/-- The first lines of START (R333): flags, error latch, counters, width controller and arbiter at
their start-of-pass values. -/
def clearForStart (s : State) : State :=
  { s with
    ctl.done := false
    ctl.error := false
    err := { cause := 0, detail := 0, cw := 0, n := 0 }
    cnt := { gen := 0, cwCount := 0 }
    wid := { w := 9, l := 512, n := 257 }
    arb := { accNum := 0, accDen := 0, baseValid := false, baseNum := 0, baseDen := 0 } }

/-- ip <- 0; bp <- 0; OUT <- empty (R333). -/
def openPorts (s : State) : State :=
  { s with port.ip := 0, port.bp := 0, port.ob := [], port.closed := false }

/-- START accepts a compress under policy `p` (R333). -/
def startCompress (p : Policy) (s : State) : State :=
  let s := openPorts { clearForStart s with ctl.side := .enc, ctl.pol := p }
  { s with mem := dictClear s.mem, ctl.st := .eTag, ctl.busy := true }

/-- START accepts an expand (R333): POL keeps its old value until D_TAG writes it. -/
def startExpand (s : State) : State :=
  let s := openPorts { clearForStart s with ctl.side := .dec }
  { s with ctl.st := .dTag, ctl.busy := true }

/-- START with BUSY = 0 (R333): OP is tested first, then POLICY; a refused command takes the fault
entry where its test stands (`60_exceptions.md` R361, R372). -/
def startPass (s : State) : State :=
  if cmdOp s.ctl.cmd = opCompress then
    match policyOfTag (cmdPolicy s.ctl.cmd) with
    | some p => startCompress p s
    | none =>
      raiseFault .badPolicy ((cmdPolicy s.ctl.cmd).setWidth 16)
        { clearForStart s with ctl.side := .enc }
  else if cmdOp s.ctl.cmd = opExpand then startExpand s
  else raiseFault .badOp ((cmdOp s.ctl.cmd).setWidth 16) (clearForStart s)

/-- START (R333); ignored while BUSY = 1 (R334). A value with bit 0 clear does nothing (R332). -/
def execStart (v : CsrWord) (s : State) : Result :=
  .next (if v.getLsbD 0 && !s.ctl.busy then startPass s else s)

/-- CMD_WRITE (R331): CMD <- v[15:0] while BUSY = 0, ignored while BUSY = 1. -/
def execCmdWrite (v : CsrWord) (s : State) : Result :=
  .next (if s.ctl.busy then s else { s with ctl.cmd := v.extractLsb' 0 16 })

/-- CSR_READ (R330): the value goes to the host, nothing of the core changes. -/
def execCsrRead (off : Byte) (s : State) : Result :=
  if off.toNat % 4 = 0 then .next { s with host.rdata := csrValue s off }
  else .refused .misalignedAccess

/-- COMPRESS_FROZEN (`30_encoding.md` R136): START reads CMD = 0x6E2D (log 3). -/
def execCompressFrozen (s : State) : Result :=
  whenEnabled (s.ctl.cmd = 0x6E2D) (.next (if s.ctl.busy then s else startCompress .frozen s))

/-- COMPRESS_SATURATE (`30_encoding.md` R136): START reads CMD = 0x722D (log 3). -/
def execCompressSaturate (s : State) : Result :=
  whenEnabled (s.ctl.cmd = 0x722D) (.next (if s.ctl.busy then s else startCompress .saturate s))

/-- COMPRESS_MONITORED (`30_encoding.md` R136): START reads CMD = 0x6D2D (log 3). -/
def execCompressMonitored (s : State) : Result :=
  whenEnabled (s.ctl.cmd = 0x6D2D) (.next (if s.ctl.busy then s else startCompress .monitored s))

/-- EXPAND (`30_encoding.md` R136): START reads CMD with OP = 0x2B; POLICY is ignored (log 3). -/
def execExpand (policy : Byte) (s : State) : Result :=
  whenEnabled (s.ctl.cmd = policy ++ opExpand) (.next (if s.ctl.busy then s else startExpand s))

end Sys2Proof.Machine
end

