-- ==== Sys2Proof/Machine/Dispatch.lean ====
section
/-! DEFINITION. exec: the one dispatch from an instruction to its meaning. -/

namespace Sys2Proof.Machine

def exec (i : Instr) (s : State) : Host.Outcome State Fault Refusal :=
  match i with
  | .tagFrozen => Sys2Proof.Machine.execTagFrozen s
  | .tagSaturate => Sys2Proof.Machine.execTagSaturate s
  | .tagMonitored => Sys2Proof.Machine.execTagMonitored s
  | .tagReserved t => Sys2Proof.Machine.execTagReserved t s
  | .firstLiteral b => Sys2Proof.Machine.execFirstLiteral b s
  | .firstEof => Sys2Proof.Machine.execFirstEof s
  | .firstReserved cw => Sys2Proof.Machine.execFirstReserved cw s
  | .eof => Sys2Proof.Machine.execEof s
  | .hit cw => Sys2Proof.Machine.execHit cw s
  | .kwkwk cw => Sys2Proof.Machine.execKwkwk cw s
  | .codeReserved cw => Sys2Proof.Machine.execCodeReserved cw s
  | .compressFrozen => Sys2Proof.Machine.execCompressFrozen s
  | .compressSaturate => Sys2Proof.Machine.execCompressSaturate s
  | .compressMonitored => Sys2Proof.Machine.execCompressMonitored s
  | .expand policy => Sys2Proof.Machine.execExpand policy s
  | .start v => Sys2Proof.Machine.execStart v s
  | .cmdWrite v => Sys2Proof.Machine.execCmdWrite v s
  | .csrRead off => Sys2Proof.Machine.execCsrRead off s
  | .encTag => Sys2Proof.Machine.execEncTag s
  | .encFirstEmpty => Sys2Proof.Machine.execEncFirstEmpty s
  | .encFirstByte => Sys2Proof.Machine.execEncFirstByte s
  | .encScanHit => Sys2Proof.Machine.execEncScanHit s
  | .encScanMiss => Sys2Proof.Machine.execEncScanMiss s
  | .encScanEnd => Sys2Proof.Machine.execEncScanEnd s
  | .encStep => Sys2Proof.Machine.execEncStep s
  | .encLast => Sys2Proof.Machine.execEncLast s
  | .encEof => Sys2Proof.Machine.execEncEof s
  | .decTag => Sys2Proof.Machine.execDecTag s
  | .decFirstEof => Sys2Proof.Machine.execDecFirstEof s
  | .decFirstLiteral => Sys2Proof.Machine.execDecFirstLiteral s
  | .decFirstReserved => Sys2Proof.Machine.execDecFirstReserved s
  | .decEmit => Sys2Proof.Machine.execDecEmit s
  | .decReadLearn => Sys2Proof.Machine.execDecReadLearn s
  | .decReadEof => Sys2Proof.Machine.execDecReadEof s
  | .decReadReserved => Sys2Proof.Machine.execDecReadReserved s
  | .decReset => Sys2Proof.Machine.execDecReset s

end Sys2Proof.Machine
end

