-- ==== Sys2Proof/Machine/Turn.lean ====
section
/-! DEFINITION. Whose turn it is and what is fetched: the core's enabled transition
(`00_scope.md` R14, `45_host_commands.md` R335), the host's pending action (`30_encoding.md` R146),
and how an instruction is placed where the next step finds it. -/

namespace Sys2Proof.Machine

/-- The transition the core fires next: none while BUSY = 0 (`45_host_commands.md` R335), else the
one ST and the guards select (`00_scope.md` R14). -/
def fetchTransition (s : State) : Decoded :=
  if s.ctl.busy then decode (viewOf s) (.fsm s.ctl.st.code) else .reject .waiting

/-- The core's turn: it fires its transition, or waits with all state kept (`60_exceptions.md`
R381; log 20). -/
def coreTurn (s : State) : Result :=
  match fetchTransition s with
  | .instr i => exec i s
  | .reject _ => .next s

/-- The host's access to the CSR window. A write with no effect does nothing
(`45_host_commands.md` R332). -/
def csrTurn (a : CsrAccess) (s : State) : Result :=
  match decode (viewOf s) (.csr a) with
  | .instr i => exec i s
  | .reject .misaligned => .refused .misalignedAccess
  | .reject _ => .next s

/-- The host reads a CSR on behalf of WAIT or CHECK. -/
def pollStatus (s : State) : State := { s with host.rdata := csrStatus s }

/-- Put an action in front of the pending ones. -/
def pushAction (a : HostAction) (s : State) : State :=
  { s with host.pending := a :: s.host.pending }

/-- One host action, already taken from the pending list. WAIT reads STATUS and, while BUSY is set,
lets the core fire one transition before it reads again (`30_encoding.md` R146; log 5). -/
def hostTurn (a : HostAction) (s : State) : Result :=
  match a with
  | .csr acc => csrTurn acc s
  | .load bytes =>
    if s.ctl.busy then .fault .inputChangedDuringPass
    else .next { s with port.inp := bytes }
  | .turn => coreTurn s
  | .wait =>
    if s.ctl.busy then coreTurn (pushAction .wait (pollStatus s)) else .next (pollStatus s)
  | .check =>
    .next (if s.ctl.error then pushAction (.csr (.read 0x1C)) (pollStatus s) else pollStatus s)
  | .hardwareReset => .next (hardwareReset s)

/-- One step: the first pending host action, or the core's turn where none is pending. -/
def stepTurn (s : State) : Result :=
  match s.host.pending with
  | [] => coreTurn s
  | a :: rest => hostTurn a { s with host.pending := rest }

/-! ### Host programs (`30_encoding.md` R146) -/

/-- `COMPRESS p`: write CMD, START, WAIT. -/
def compressProgram (p : Policy) : List HostAction :=
  [.csr (.write 0x04 ((0 : BitVec 16) ++ p.tag ++ opCompress)), .csr (.write 0x00 1), .wait]

/-- `EXPAND`: write CMD, START, WAIT. -/
def expandProgram : List HostAction :=
  [.csr (.write 0x04 ((0 : BitVec 24) ++ opExpand)), .csr (.write 0x00 1), .wait]

/-! ### Placing an instruction where the next step finds it (log 21) -/

/-- A pass is running in the state `p` of the side `d`, and no host action is pending. -/
def placePhase (d : Side) (p : Phase) (s : State) : State :=
  { s with ctl.st := p, ctl.side := d, ctl.busy := true, ctl.done := false, ctl.error := false,
           host.pending := [] }

/-- A bit sequence stands next on the decoder's input. -/
def placeBits (bits : List Bool) (s : State) : State :=
  { s with port.inp := packBytes bits, port.bp := 0 }

/-- A tag stands next in D_TAG. -/
def placeTag (t : Byte) (s : State) : State :=
  placeBits (bitsOf t.toNat 8) (placePhase .dec .dTag s)

/-- A codeword stands next in D_FIRST, at width 9 (`42_width_controller.md` R255). -/
def placeFirst (cw : Code) (s : State) : State :=
  { placeBits (bitsOf cw.toNat 9) (placePhase .dec .dFirst s) with
    wid := { w := 9, l := 512, n := 257 } }

/-- A codeword stands next in D_READ, at width 16, with the counter at `n`. -/
def placeRead (cw : Code) (n : Count) (s : State) : State :=
  { placeBits (bitsOf cw.toNat 16) (placePhase .dec .dRead s) with
    wid := { w := 16, l := 65536, n := n } }

/-- The remaining input of the encoder is `bytes`. -/
def placeInput (bytes : List Byte) (s : State) : State :=
  { s with port.inp := bytes, port.ip := 0 }

/-- A host access is the next action. -/
def placeAccess (a : CsrAccess) (s : State) : State := { s with host.pending := [.csr a] }

/-- CMD holds a value, BUSY is clear and the host's next action is START. -/
def placeCommand (c : BitVec 16) (s : State) : State :=
  placeAccess (.write 0x00 1) { s with ctl.cmd := c, ctl.busy := false }

/-- `s` with the instruction where the next step fetches it: the wire, CMD, the host's pending
actions or ST, with what its guard asks for. -/
def placeInstr (i : Instr) (s : State) : State :=
  match i with
  | .tagFrozen => placeTag 0x6E s
  | .tagSaturate => placeTag 0x72 s
  | .tagMonitored => placeTag 0x6D s
  | .tagReserved t => placeTag t s
  | .firstLiteral b => placeFirst (b.setWidth 16) s
  | .firstEof => placeFirst 256 s
  | .firstReserved cw => placeFirst cw s
  | .eof => placeRead 256 257 s
  | .hit cw => placeRead cw (if cw.toNat < 257 then 257 else cw.setWidth 17 + 1) s
  | .kwkwk cw => placeRead cw (cw.setWidth 17) s
  | .codeReserved cw => placeRead cw 257 s
  | .compressFrozen => placeCommand 0x6E2D s
  | .compressSaturate => placeCommand 0x722D s
  | .compressMonitored => placeCommand 0x6D2D s
  | .expand p => placeCommand (p ++ opExpand) s
  | .start v => placeAccess (.write 0x00 v) { s with ctl.busy := false }
  | .cmdWrite v => placeAccess (.write 0x04 v) { s with ctl.busy := false }
  | .csrRead off => placeAccess (.read off) s
  | .encTag => placePhase .enc .eTag s
  | .encFirstEmpty => placeInput [] (placePhase .enc .eFirst s)
  | .encFirstByte => placeInput [0] (placePhase .enc .eFirst s)
  | .encScanHit =>
    placeInput [0] (placePhase .enc .eScan { s with mem := dictInsert s.mem s.enc.cur 0 257 })
  | .encScanMiss => placeInput [0] (placePhase .enc .eScan { s with mem := dictClear s.mem })
  | .encScanEnd => placeInput [] (placePhase .enc .eScan s)
  | .encStep => placePhase .enc .eStep s
  | .encLast => placePhase .enc .eLast s
  | .encEof => placePhase .enc .eEof s
  | .decTag => placeTag 0x6E s
  | .decFirstEof => placeFirst 256 s
  | .decFirstLiteral => placeFirst 0 s
  | .decFirstReserved => placeFirst 257 s
  | .decEmit => placePhase .dec .dEmit s
  | .decReadLearn => placeRead 0 257 s
  | .decReadEof => placeRead 256 257 s
  | .decReadReserved => placeRead 258 257 s
  | .decReset => placePhase .dec .dReset s

end Sys2Proof.Machine
end

