-- ==== Sys2Proof/Machine/Step.lean ====
section
/-! DEFINITION. The step of the machine, and the placing of a table word where it is fetched. -/

namespace Sys2Proof.Machine

/-- One step: a pending host action, or one transition of the core (`70_reset_and_hazards.md`
R430). The model has no time (log 27). -/
def step (s : State) : Host.Outcome State Fault Refusal := stepTurn s

/-- `s` with the instruction of a table word where the next step fetches it; `s` itself where the
word is no instruction (log 18, log 21). -/
def State.withFetchWord (s : State) (nbits w : Nat) : State :=
  match decodeTableWord nbits w with
  | some i => placeInstr i s
  | none => s

end Sys2Proof.Machine
end

