-- ==== Sys2Proof/Safety.lean ====
section
/-! DEFINITION. What counts as a sound state of the machine (the invariants the rules state for
every point between two transitions), and the vocabulary the claims use. -/

namespace Sys2Proof.Machine

/-! ### Phases and groups of instructions -/

/-- ST names a state of the encoder (`30_encoding.md` R140, side ENC). -/
def encPhase : Phase → Bool
  | .eTag => true
  | .eFirst => true
  | .eScan => true
  | .eStep => true
  | .eLast => true
  | .eEof => true
  | .idle => false
  | .done => false
  | .error => false
  | .dTag => false
  | .dFirst => false
  | .dEmit => false
  | .dRead => false
  | .dReset => false

/-- ST names a state of the decoder (`30_encoding.md` R140, side DEC). -/
def decPhase : Phase → Bool
  | .dTag => true
  | .dFirst => true
  | .dEmit => true
  | .dRead => true
  | .dReset => true
  | .idle => false
  | .done => false
  | .error => false
  | .eTag => false
  | .eFirst => false
  | .eScan => false
  | .eStep => false
  | .eLast => false
  | .eEof => false

/-- CUR and CUR_LEN hold the current match. -/
def matchPhase (p : Phase) : Bool := p = .eScan || p = .eStep || p = .eLast

/-- PREV holds the previous codeword. -/
def prevPhase (p : Phase) : Bool := p = .dEmit || p = .dRead || p = .dReset

/-- The rows of format fsm (`30_encoding.md` R150). -/
def fsmRows : List Instr :=
  [.encTag, .encFirstEmpty, .encFirstByte, .encScanHit, .encScanMiss, .encScanEnd, .encStep,
   .encLast, .encEof, .decTag, .decFirstEof, .decFirstLiteral, .decFirstReserved, .decEmit,
   .decReadLearn, .decReadEof, .decReadReserved, .decReset]

/-- The instruction fires in the state: it is not turned away as not enabled (log 1). -/
def fires (i : Instr) (s : State) : Prop := exec i s ≠ .refused .notEnabled

/-- START, or a CMD value START accepts. -/
def isStart : Instr → Bool
  | .start _ => true
  | .compressFrozen => true
  | .compressSaturate => true
  | .compressMonitored => true
  | .expand _ => true
  | _ => false

/-- The tag transition, or a tag it reads. -/
def isTag : Instr → Bool
  | .decTag => true
  | .tagFrozen => true
  | .tagSaturate => true
  | .tagMonitored => true
  | .tagReserved _ => true
  | _ => false

/-- The transition that starts a generation, or the literal it reads. -/
def isLiteral : Instr → Bool
  | .decFirstLiteral => true
  | .firstLiteral _ => true
  | _ => false

/-- The transition that learns a table entry, or a codeword it reads. -/
def isLearn : Instr → Bool
  | .decReadLearn => true
  | .hit _ => true
  | .kwkwk _ => true
  | _ => false

/-- A transition that reads a codeword, or a codeword. -/
def isCodeRead : Instr → Bool
  | .decFirstEof => true
  | .decFirstLiteral => true
  | .decFirstReserved => true
  | .decReadLearn => true
  | .decReadEof => true
  | .decReadReserved => true
  | .firstLiteral _ => true
  | .firstEof => true
  | .firstReserved _ => true
  | .eof => true
  | .hit _ => true
  | .kwkwk _ => true
  | .codeReserved _ => true
  | _ => false

/-- A host access that only reads or writes a CSR. -/
def isCsr : Instr → Bool
  | .cmdWrite _ => true
  | .csrRead _ => true
  | _ => false

/-- ENC_STEP or ENC_LAST. -/
def isEmit : Instr → Bool
  | .encStep => true
  | .encLast => true
  | _ => false

/-! ### The invariant -/

/-- The arbiter's registers at their start-of-pass values (`43_reset_policy.md` R275). -/
def arbZero : Arbiter :=
  { accNum := 0, accDen := 0, baseValid := false, baseNum := 0, baseDen := 0 }

/-- The width controller's registers at the start of a generation (`42_width_controller.md`
R255). -/
def widStart : Width := { w := 9, l := 512, n := 257 }

/-- The seven codes assigned and then shadowed at a promotion (`20_memory.md` R81). -/
def shadowedCodes : List Nat := [511, 1023, 2047, 4095, 8191, 16383, 32767]

/-- The listed pairs of ERR_CAUSE and ERR_DETAIL (`60_exceptions.md` R360). -/
def errorCodes : List (BitVec 4 × BitVec 4) :=
  [(0, 0), (1, 1), (1, 2), (2, 1), (2, 2), (2, 3), (2, 4), (3, 1), (3, 2), (4, 1), (4, 2)]

/-- ST, SIDE and the flags agree (`10_state.md` R36, `30_encoding.md` R140). -/
structure ControlInv (s : State) : Prop where
  busy_running : s.ctl.busy = (encPhase s.ctl.st || decPhase s.ctl.st)
  done_state : s.ctl.done = decide (s.ctl.st = .done)
  error_state : s.ctl.error = decide (s.ctl.st = .error)
  enc_side : encPhase s.ctl.st = true → s.ctl.side = .enc
  dec_side : decPhase s.ctl.st = true → s.ctl.side = .dec

/-- The width controller's invariants (`10_state.md` R31), and that N is past the middle of the code
space (`42_width_controller.md` R256). -/
structure WidthInv (s : State) : Prop where
  w_min : 9 ≤ s.wid.w.toNat
  w_max : s.wid.w.toNat ≤ 16
  l_pow : s.wid.l.toNat = 2 ^ s.wid.w.toNat
  n_min : 257 ≤ s.wid.n.toNat
  n_max : s.wid.n.toNat ≤ s.wid.l.toNat
  n_half : s.wid.l.toNat ≤ 2 * s.wid.n.toNat
  dec_room : s.ctl.side = .dec → s.wid.w.toNat < 16 → s.wid.n.toNat + 2 ≤ s.wid.l.toNat

/-- The arbiter's registers are zero while unused (`10_state.md` R38, `43_reset_policy.md` R275), a
baseline is positive (R279), and FROZEN counts and asks for no reinitialization (`40_encoder.md`
R174, `43_reset_policy.md` R271). -/
structure ArbiterInv (s : State) : Prop where
  unused : s.ctl.pol ≠ .monitored ∨ s.ctl.st = .dTag → s.arb = arbZero
  no_base : s.arb.baseValid = false → s.arb.baseNum = 0 ∧ s.arb.baseDen = 0
  base_pos : s.arb.baseValid = true → 8 ≤ s.arb.baseNum.toNat ∧ 9 ≤ s.arb.baseDen.toNat
  frozen_gen : s.ctl.pol = .frozen ∨ s.ctl.st = .dTag → s.cnt.gen = 0
  reset_asked : s.ctl.st = .dReset → s.ctl.pol ≠ .frozen

/-- The ports: positions inside the input, the output open during a pass and closed at DONE, whole
bytes on DEC (`20_memory.md` R85 to R88). -/
structure PortInv (s : State) : Prop where
  ip_bound : encPhase s.ctl.st = true → s.port.ip ≤ s.port.inp.length
  bp_bound : decPhase s.ctl.st = true → s.port.bp ≤ 8 * s.port.inp.length
  is_open : s.ctl.busy = true → s.port.closed = false
  is_closed : s.ctl.st = .done → s.port.closed = true ∧ s.port.ob.length % 8 = 0
  whole_bytes : decPhase s.ctl.st = true → s.port.ob.length % 8 = 0

/-- The encoder: learned codes lie in 257..N-1, none is shadowed, each is greater than the code its
key extends, and CUR names a string of the dictionary, of at least one byte and at most one byte
more than the codes below it (`20_memory.md` R81, `40_encoder.md` R171, `44_code_table.md` R306,
R311). -/
structure EncoderInv (s : State) : Prop where
  fresh : s.ctl.st = .eTag ∨ s.ctl.st = .eFirst →
    s.mem.dict = [] ∧ s.wid = widStart
  learned : encPhase s.ctl.st = true → ∀ p b k, dictLookup s.mem p b = some k →
    257 ≤ k.toNat ∧ k.toNat < s.wid.n.toNat ∧ k.toNat ∉ shadowedCodes
      ∧ p.toNat < k.toNat ∧ p.toNat ≠ 256
  current : matchPhase s.ctl.st = true →
    s.enc.cur.toNat < s.wid.n.toNat ∧ s.enc.cur.toNat ≠ 256
      ∧ s.enc.cur.toNat ∉ shadowedCodes
      ∧ 1 ≤ s.enc.curLen.toNat ∧ s.enc.curLen.toNat + 255 ≤ max s.enc.cur.toNat 256

/-- Entry `j` is a link of the code table (`44_code_table.md` R304). -/
structure LinkOk (m : Memory) (j : Code) : Prop where
  below : (tabRead m j).prefixCode.toNat < j.toNat
  not_eof : (tabRead m j).prefixCode.toNat ≠ 256
  first_eq : (tabRead m j).first = (tabRead m (tabRead m j).prefixCode).first
  len_eq : (tabRead m j).len.toNat = (tabRead m (tabRead m j).prefixCode).len.toNat + 1

/-- Every learned entry below `n` is a link (`44_code_table.md` R304). -/
def LinksOk (m : Memory) (n : Nat) : Prop :=
  ∀ j : Code, 257 ≤ j.toNat → j.toNat < n → LinkOk m j

/-- The decoder: the learned entries are links, and PREV names one of them or a single byte
(`44_code_table.md` R301, R304). -/
structure DecoderInv (s : State) : Prop where
  fresh : s.ctl.st = .dTag ∨ s.ctl.st = .dFirst → s.wid = widStart
  links : decPhase s.ctl.st = true → LinksOk s.mem s.wid.n.toNat
  previous : prevPhase s.ctl.st = true →
    s.dec.prev.toNat < s.wid.n.toNat ∧ s.dec.prev.toNat ≠ 256

/-- The machine's invariant, between any two steps. -/
structure Inv (s : State) : Prop where
  control : ControlInv s
  width : WidthInv s
  arbiter : ArbiterInv s
  ports : PortInv s
  encoder : EncoderInv s
  decoder : DecoderInv s
  memory : s.mem.wf = true
  errors : (s.err.cause, s.err.detail) ∈ errorCodes

/-- The host's next action is one the spec lets it take: it does not change IN during a pass
(`70_reset_and_hazards.md` R415) and accesses the CSR window at aligned offsets (`10_state.md`
R51). -/
def hostKeepsRules (s : State) : Bool :=
  match s.host.pending with
  | .load _ :: _ => !s.ctl.busy
  | .csr (.read off) :: _ => decide (off.toNat % 4 = 0)
  | .csr (.write off _) :: _ => decide (off.toNat % 4 = 0)
  | _ => true

/-! ### What a data step does, as the rules' text counts it -/

/-- 1 where the step's entry has a code, N < L (`42_width_controller.md` R252). -/
def gain (s : State) : Nat := if s.wid.n.toNat < s.wid.l.toNat then 1 else 0

/-- The step promotes the width: after the step's entry N = L - δ, and W < 16
(`42_width_controller.md` R251). -/
def promotes (s : State) : Bool :=
  decide (s.wid.w.toNat < 16)
    && decide (s.wid.n.toNat + gain s + delta s.ctl.side = s.wid.l.toNat)

/-- N after the step's entry and, at a promotion, the boundary slot (`40_encoder.md` R172). -/
def nextN (s : State) : Nat := s.wid.n.toNat + gain s + (promotes s).toNat

/-- The step is a ceiling sample (`42_width_controller.md` R254). -/
def samples (s : State) : Bool := decide (65536 ≤ nextN s + delta s.ctl.side)

/-- A match of `len` bytes still fits the Monitored accumulators (`43_reset_policy.md` R277). -/
def accFits (len : Nat) (s : State) : Bool :=
  decide (s.ctl.pol ≠ .monitored)
    || (decide (s.arb.accNum.toNat + 8 * len < 2 ^ 64)
      && decide (s.arb.accDen.toNat + s.wid.w.toNat < 2 ^ 64))

/-- The arbiter's registers with a match of `len` bytes added at the width in force
(`43_reset_policy.md` R276). -/
def accumulated (len : Nat) (s : State) : Arbiter :=
  if s.ctl.pol = .monitored then
    { s.arb with
      accNum := BitVec.ofNat 64 (s.arb.accNum.toNat + 8 * len)
      accDen := BitVec.ofNat 64 (s.arb.accDen.toNat + s.wid.w.toNat) }
  else s.arb

/-- The step's ceiling sample reinitializes (`43_reset_policy.md` R271, R272, R274). -/
def reinitializes (len : Nat) (s : State) : Bool :=
  samples s &&
    match s.ctl.pol with
    | .frozen => false
    | .saturate => true
    | .monitored =>
      s.arb.baseValid
        && degraded s.ratioArith s.arb.baseNum.toNat s.arb.baseDen.toNat
          (s.arb.accNum.toNat + 8 * len) (s.arb.accDen.toNat + s.wid.w.toNat)

/-- The arbiter's registers after the step where it does not reinitialize: a first sample of
MONITORED becomes the baseline (`43_reset_policy.md` R273). -/
def sampled (len : Nat) (s : State) : Arbiter :=
  let a := accumulated len s
  if samples s ∧ s.ctl.pol = .monitored ∧ s.arb.baseValid = false then
    { a with baseNum := a.accNum, baseDen := a.accDen, baseValid := true }
  else a

/-- The width controller's registers after the step where it does not reinitialize. -/
def nextWidth (s : State) : Width :=
  { w := if promotes s then s.wid.w + 1 else s.wid.w
    l := if promotes s then 2 * s.wid.l else s.wid.l
    n := BitVec.ofNat 17 (nextN s) }

/-! ### Two states of one pass -/

/-- Two states agree on everything a rule of the running pass can read: they may differ in the stale
registers of `10_state.md` R67, in POL before the decoder has read the tag, and in the dictionary or
table contents that belong to no generation (`45_host_commands.md` R337). -/
structure SamePass (s t : State) : Prop where
  ctl_eq : { s.ctl with pol := .frozen } = { t.ctl with pol := .frozen }
  pol_eq : s.ctl.st ≠ .dTag → s.ctl.pol = t.ctl.pol
  wid_eq : s.wid = t.wid
  arb_eq : s.arb = t.arb
  cnt_eq : s.cnt = t.cnt
  err_eq : s.err = t.err
  port_eq : s.port = t.port
  host_eq : s.host = t.host
  arith_eq : s.ratioArith = t.ratioArith
  dict_eq : encPhase s.ctl.st = true → s.mem.dict = t.mem.dict
  tab_eq : decPhase s.ctl.st = true → ∀ j : Code, j.toNat < s.wid.n.toNat → j.toNat ≠ 256 →
    tabRead s.mem j = tabRead t.mem j
  match_eq : matchPhase s.ctl.st = true → s.enc.cur = t.enc.cur ∧ s.enc.curLen = t.enc.curLen
  nxt_eq : s.ctl.st = .eStep → s.enc.nxt = t.enc.nxt
  prev_eq : prevPhase s.ctl.st = true → s.dec.prev = t.dec.prev

end Sys2Proof.Machine
end

