-- ==== Sys2Proof/Certificates/Slice0/Obligations.lean ====
section
/-! DEFINITION. The statements for the provers. Each docstring names the rules of `spec/` it
formalises, and says where a clause is the model's own choice. -/

open Sys2Proof Sys2Proof.Machine

/-! ### Reset -/

/-- `70_reset_and_hazards.md` R400 ("This rule is the spec's own."): hardware reset, at any time,
sets every register to its value of `10_state.md` R67 and touches neither the dictionary nor the
ports. -/
def Obligations.HardwareResetSetsEveryRegister : Prop :=
  ∀ (s : State) (rest : List HostAction), s.host.pending = .hardwareReset :: rest →
    ∃ t, step s = .next t
      ∧ t.ctl = { st := .idle, side := .enc, pol := .frozen, busy := false, done := false,
                  error := false, cmd := 0 }
      ∧ t.wid.w = 9 ∧ t.wid.l = 512 ∧ t.wid.n = 257
      ∧ t.arb.accNum = 0 ∧ t.arb.accDen = 0 ∧ t.arb.baseValid = false ∧ t.arb.baseNum = 0
      ∧ t.arb.baseDen = 0
      ∧ t.cnt.gen = 0 ∧ t.cnt.cwCount = 0
      ∧ t.err.cause = 0 ∧ t.err.detail = 0 ∧ t.err.cw = 0 ∧ t.err.n = 0
      ∧ t.mem.dict = s.mem.dict ∧ t.port = s.port ∧ t.host = { s.host with pending := rest }
      ∧ t.ratioArith = s.ratioArith

/-- The power-on state: the values of `10_state.md` R67 where it gives them; the registers and ports
it leaves unspecified at the values the model names (DESIGN CHOICE, logs 6, 8, 9, 10, 11);
`RATIO_ARITH` at its default (log 12). -/
def Obligations.PowerOnStateHoldsTheNamedValues : Prop :=
  State.reset.ctl.st = .idle ∧ State.reset.ctl.side = .enc ∧ State.reset.ctl.pol = .frozen
    ∧ State.reset.ctl.busy = false ∧ State.reset.ctl.done = false
    ∧ State.reset.ctl.error = false ∧ State.reset.ctl.cmd = 0
    ∧ State.reset.wid = widStart ∧ State.reset.arb = arbZero
    ∧ State.reset.cnt = { gen := 0, cwCount := 0 }
    ∧ State.reset.err = { cause := 0, detail := 0, cw := 0, n := 0 }
    ∧ State.reset.enc = { cur := 0, curLen := 0, nxt := 0 }
    ∧ State.reset.dec = { prev := 0, cw := 0 }
    ∧ (∀ j : Code, 256 ≤ j.toNat →
        tabRead State.reset.mem j = { prefixCode := 0, suffix := 0, first := 0, len := 0 })
    ∧ (∀ p b, dictLookup State.reset.mem p b = none)
    ∧ State.reset.port = { inp := [], ip := 0, bp := 0, ob := [], closed := false }
    ∧ State.reset.host = { rdata := 0, pending := [] }
    ∧ State.reset.ratioArith = .binary64

/-! ### The CSR window -/

/-- `45_host_commands.md` R330: a CSR read returns the register of the offset, changes nothing of
the core and may happen at any time; CTRL and the reserved offsets read 0. The offsets are those of
`10_state.md` R52 to R66 ("The register map is this spec's own."). -/
def Obligations.CsrReadHasNoSideEffect : Prop :=
  ∀ (s : State) (off : Byte), off.toNat % 4 = 0 →
    ∃ v, exec (.csrRead off) s = .next { s with host := { s.host with rdata := v } }
      ∧ (off.toNat = 0 ∨ 0x48 ≤ off.toNat → v = 0)
      ∧ (off = 0x04 → v = s.ctl.cmd.setWidth 32)
      ∧ (off = 0x08 → v = csrStatus s)
      ∧ (off = 0x0C → v = csrWidth s)
      ∧ (off = 0x10 → v = s.wid.n.setWidth 32)
      ∧ (off = 0x14 → v = s.cnt.gen)
      ∧ (off = 0x18 → v = s.cnt.cwCount)
      ∧ (off = 0x1C → v = csrErrInfo s)
      ∧ (off = 0x20 → v = s.err.n.setWidth 32)
      ∧ (off = 0x24 → v = s.arb.accNum.extractLsb' 0 32)
      ∧ (off = 0x28 → v = s.arb.accNum.extractLsb' 32 32)
      ∧ (off = 0x2C → v = s.arb.accDen.extractLsb' 0 32)
      ∧ (off = 0x30 → v = s.arb.accDen.extractLsb' 32 32)
      ∧ (off = 0x34 → v = s.arb.baseNum.extractLsb' 0 32)
      ∧ (off = 0x38 → v = s.arb.baseNum.extractLsb' 32 32)
      ∧ (off = 0x3C → v = s.arb.baseDen.extractLsb' 0 32)
      ∧ (off = 0x40 → v = s.arb.baseDen.extractLsb' 32 32)
      ∧ (off = 0x44 → v = (BitVec.ofBool s.arb.baseValid).setWidth 32)

/-- `10_state.md` R54, R55 and R59 ("The register map is this spec's own."): the fields of STATUS,
WIDTH and ERRINFO stand at their bits, the reserved bits read 0, and after reset the words are those
of the reset columns. -/
def Obligations.StatusWidthAndErrorFieldsStandAtTheirBits : Prop :=
  (∀ s : State, ∃ v, exec (.csrRead 0x08) s = .next { s with host := { s.host with rdata := v } }
      ∧ v.getLsbD 0 = s.ctl.busy ∧ v.getLsbD 1 = s.ctl.done ∧ v.getLsbD 2 = s.ctl.error
      ∧ v.extractLsb' 3 5 = 0 ∧ v.extractLsb' 8 5 = s.ctl.st.code ∧ v.extractLsb' 13 3 = 0
      ∧ v.extractLsb' 16 2 = s.ctl.pol.code ∧ v.getLsbD 18 = decide (s.ctl.side = .dec)
      ∧ v.extractLsb' 19 13 = 0)
  ∧ (∀ s : State, ∃ v, exec (.csrRead 0x0C) s = .next { s with host := { s.host with rdata := v } }
      ∧ v.extractLsb' 0 5 = s.wid.w ∧ v.extractLsb' 5 3 = 0 ∧ v.extractLsb' 8 17 = s.wid.l
      ∧ v.extractLsb' 25 7 = 0)
  ∧ (∀ s : State, ∃ v, exec (.csrRead 0x1C) s = .next { s with host := { s.host with rdata := v } }
      ∧ v.extractLsb' 0 4 = s.err.cause ∧ v.extractLsb' 4 4 = s.err.detail
      ∧ v.extractLsb' 8 16 = s.err.cw ∧ v.extractLsb' 24 8 = 0)
  ∧ csrStatus State.reset = 0 ∧ csrWidth State.reset = 0x00020009 ∧ csrErrInfo State.reset = 0

/-- `45_host_commands.md` R332: a write to CTRL with bit 0 clear, and a write to a read-only or
reserved offset, does nothing: the step only takes the access from the host. -/
def Obligations.WritesWithoutEffectDoNothing : Prop :=
  ∀ (s : State) (off : Byte) (v : CsrWord) (rest : List HostAction),
    s.host.pending = .csr (.write off v) :: rest → off.toNat % 4 = 0 → off.toNat ≠ 4 →
    (off.toNat = 0 → v.getLsbD 0 = false) →
    step s = .next { s with host := { s.host with pending := rest } }

/-- The model's choice for an access that `10_state.md` R51 excludes (log 15): an offset that is not
a multiple of 4 is refused by name. -/
def Obligations.MisalignedOffsetsAreRefused : Prop :=
  ∀ (s : State) (off : Byte), off.toNat % 4 ≠ 0 →
    exec (.csrRead off) s = .refused .misalignedAccess
    ∧ ∀ (a : CsrAccess) (rest : List HostAction),
        (a = .read off ∨ ∃ v, a = .write off v) → s.host.pending = .csr a :: rest →
        step s = .refused .misalignedAccess

/-- `45_host_commands.md` R331: CMD takes bits 15:0 of the value while BUSY = 0; a write while
BUSY = 1 is ignored. -/
def Obligations.CmdWriteSetsCmdWhileIdle : Prop :=
  ∀ (s : State) (v : CsrWord),
    (s.ctl.busy = false →
      exec (.cmdWrite v) s = .next { s with ctl := { s.ctl with cmd := v.extractLsb' 0 16 } })
    ∧ (s.ctl.busy = true → exec (.cmdWrite v) s = .next s)

/-- `45_host_commands.md` R334: START while BUSY = 1 is ignored, whatever command CMD holds. That
the command's own row does what START does is the model's choice (DESIGN CHOICE, log 3). -/
def Obligations.StartIsIgnoredWhileBusy : Prop :=
  ∀ s : State, s.ctl.busy = true →
    (∀ v : CsrWord, v.getLsbD 0 = true → exec (.start v) s = .next s)
    ∧ (s.ctl.cmd = 0x6E2D → exec .compressFrozen s = .next s)
    ∧ (s.ctl.cmd = 0x722D → exec .compressSaturate s = .next s)
    ∧ (s.ctl.cmd = 0x6D2D → exec .compressMonitored s = .next s)
    ∧ (∀ p : Byte, s.ctl.cmd = p ++ (0x2B : Byte) → exec (.expand p) s = .next s)

/-- `45_host_commands.md` R333: START with BUSY = 0 clears the flags, the error latch and the
counters, sets the width controller and the arbiter to their start values, and either starts the
pass CMD names or takes the fault entry where the test of OP or POLICY stands. -/
def Obligations.StartBeginsThePassOfCmd : Prop :=
  ∀ (s : State) (v : CsrWord), v.getLsbD 0 = true → s.ctl.busy = false →
    (∀ p : Policy, cmdOp s.ctl.cmd = 0x2D → cmdPolicy s.ctl.cmd = p.tag →
      exec (.start v) s = .next { s with
        ctl := { st := .eTag, side := .enc, pol := p, busy := true, done := false,
                 error := false, cmd := s.ctl.cmd }
        wid := widStart, arb := arbZero, cnt := { gen := 0, cwCount := 0 }
        err := { cause := 0, detail := 0, cw := 0, n := 0 }
        mem := { s.mem with dict := [] }
        port := { inp := s.port.inp, ip := 0, bp := 0, ob := [], closed := false } })
    ∧ (cmdOp s.ctl.cmd = 0x2B →
      exec (.start v) s = .next { s with
        ctl := { st := .dTag, side := .dec, pol := s.ctl.pol, busy := true, done := false,
                 error := false, cmd := s.ctl.cmd }
        wid := widStart, arb := arbZero, cnt := { gen := 0, cwCount := 0 }
        err := { cause := 0, detail := 0, cw := 0, n := 0 }
        port := { inp := s.port.inp, ip := 0, bp := 0, ob := [], closed := false } })
    ∧ (cmdOp s.ctl.cmd = 0x2D → (∀ p : Policy, cmdPolicy s.ctl.cmd ≠ p.tag) →
      exec (.start v) s = .next { s with
        ctl := { st := .error, side := .enc, pol := s.ctl.pol, busy := false, done := false,
                 error := true, cmd := s.ctl.cmd }
        wid := widStart, arb := arbZero, cnt := { gen := 0, cwCount := 0 }
        err := { cause := 1, detail := 2, cw := (cmdPolicy s.ctl.cmd).setWidth 16, n := 257 } })
    ∧ (cmdOp s.ctl.cmd ≠ 0x2D → cmdOp s.ctl.cmd ≠ 0x2B →
      exec (.start v) s = .next { s with
        ctl := { st := .error, side := s.ctl.side, pol := s.ctl.pol, busy := false, done := false,
                 error := true, cmd := s.ctl.cmd }
        wid := widStart, arb := arbZero, cnt := { gen := 0, cwCount := 0 }
        err := { cause := 1, detail := 1, cw := (cmdOp s.ctl.cmd).setWidth 16, n := 257 } })

/-- `30_encoding.md` R136: START accepts exactly the four commands, and every other value ends in the
fault it names. That the command's own row answers START's next state is the model's choice (DESIGN
CHOICE, log 3). -/
def Obligations.CommandWordsStartTheirPass : Prop :=
  ∀ s : State, s.ctl.busy = false →
    (s.ctl.cmd = 0x6E2D → ∃ t, exec .compressFrozen s = .next t ∧ exec (.start 1) s = .next t
      ∧ t.ctl.st = .eTag ∧ t.ctl.side = .enc ∧ t.ctl.pol = .frozen ∧ t.ctl.busy = true)
    ∧ (s.ctl.cmd = 0x722D → ∃ t, exec .compressSaturate s = .next t ∧ exec (.start 1) s = .next t
      ∧ t.ctl.st = .eTag ∧ t.ctl.side = .enc ∧ t.ctl.pol = .saturate ∧ t.ctl.busy = true)
    ∧ (s.ctl.cmd = 0x6D2D → ∃ t, exec .compressMonitored s = .next t ∧ exec (.start 1) s = .next t
      ∧ t.ctl.st = .eTag ∧ t.ctl.side = .enc ∧ t.ctl.pol = .monitored ∧ t.ctl.busy = true)
    ∧ (∀ p : Byte, s.ctl.cmd = p ++ (0x2B : Byte) →
      ∃ t, exec (.expand p) s = .next t ∧ exec (.start 1) s = .next t
        ∧ t.ctl.st = .dTag ∧ t.ctl.side = .dec ∧ t.ctl.pol = s.ctl.pol ∧ t.ctl.busy = true)
    ∧ (s.ctl.cmd.extractLsb' 0 8 ≠ 0x2D → s.ctl.cmd.extractLsb' 0 8 ≠ 0x2B →
      ∃ t, exec (.start 1) s = .next t ∧ t.ctl.st = .error ∧ t.err.cause = 1 ∧ t.err.detail = 1
        ∧ t.err.cw = (s.ctl.cmd.extractLsb' 0 8).setWidth 16)
    ∧ (s.ctl.cmd.extractLsb' 0 8 = 0x2D → s.ctl.cmd.extractLsb' 8 8 ≠ 0x6E →
      s.ctl.cmd.extractLsb' 8 8 ≠ 0x72 → s.ctl.cmd.extractLsb' 8 8 ≠ 0x6D →
      ∃ t, exec (.start 1) s = .next t ∧ t.ctl.st = .error ∧ t.err.cause = 1 ∧ t.err.detail = 2
        ∧ t.err.cw = (s.ctl.cmd.extractLsb' 8 8).setWidth 16)

/-! ### The encoder -/

/-- `40_encoder.md` R160: the tag byte of POL goes out, CW_COUNT keeps its value. -/
def Obligations.EncTagWritesTheModeTag : Prop :=
  ∀ s : State, s.ctl.st = .eTag →
    exec .encTag s = .next { s with
      ctl := { s.ctl with st := .eFirst }
      port := { s.port with ob := s.port.ob ++
        (match s.ctl.pol with
          | .frozen => [false, true, true, false, true, true, true, false]
          | .saturate => [false, true, true, true, false, false, true, false]
          | .monitored => [false, true, true, false, true, true, false, true]) } }

/-- `40_encoder.md` R161 and R162: on empty input E_FIRST goes to E_EOF and writes nothing else; on
a byte it starts the first match. -/
def Obligations.EncFirstTakesTheFirstByte : Prop :=
  ∀ s : State, s.ctl.st = .eFirst →
    (s.port.inp.length ≤ s.port.ip →
      exec .encFirstEmpty s = .next { s with ctl := { s.ctl with st := .eEof } })
    ∧ (∀ b, s.port.inp[s.port.ip]? = some b →
      exec .encFirstByte s = .next { s with
        ctl := { s.ctl with st := .eScan }
        enc := { s.enc with cur := b.setWidth 16, curLen := 1 }
        port := { s.port with ip := s.port.ip + 1 } })

/-- `40_encoder.md` R163, R164 and R165: E_SCAN extends the match on a dictionary hit, ends it on a
miss, and goes to E_LAST at the end of input. -/
def Obligations.EncScanExtendsOrEndsTheMatch : Prop :=
  ∀ s : State, s.ctl.st = .eScan →
    (∀ c k, s.port.inp[s.port.ip]? = some c → dictLookup s.mem s.enc.cur c = some k →
      exec .encScanHit s = .next { s with
        enc := { s.enc with cur := k, curLen := s.enc.curLen + 1 }
        port := { s.port with ip := s.port.ip + 1 } })
    ∧ (∀ c, s.port.inp[s.port.ip]? = some c → dictLookup s.mem s.enc.cur c = none →
      exec .encScanMiss s = .next { s with
        ctl := { s.ctl with st := .eStep }
        enc := { s.enc with nxt := c }
        port := { s.port with ip := s.port.ip + 1 } })
    ∧ (s.port.inp.length ≤ s.port.ip →
      exec .encScanEnd s = .next { s with ctl := { s.ctl with st := .eLast } })

/-- `40_encoder.md` R166 under the invariants of `10_state.md` R31: the match goes out at the width
before any promotion, the key (CUR, NXT) is mapped to the last code the step assigns, the counter
advances by 1, 2 or 0, the arbiter is consulted at the ceiling, and the next match starts at NXT. -/
def Obligations.EncStepEmitsLearnsAndConsults : Prop :=
  ∀ s : State, s.ctl.st = .eStep → s.ctl.side = .enc → WidthInv s →
    s.enc.cur.toNat < s.wid.l.toNat → accFits s.enc.curLen.toNat s = true →
    ∃ t, exec .encStep s = .next t
      ∧ t.ctl = { s.ctl with st := .eScan }
      ∧ t.port = { s.port with ob := s.port.ob ++ bitsOf s.enc.cur.toNat s.wid.w.toNat }
      ∧ t.cnt.cwCount = s.cnt.cwCount + 1
      ∧ t.enc = { cur := s.enc.nxt.setWidth 16, curLen := 1, nxt := s.enc.nxt }
      ∧ t.mem.tab = s.mem.tab ∧ t.dec = s.dec ∧ t.err = s.err ∧ t.host = s.host
      ∧ t.ratioArith = s.ratioArith
      ∧ (reinitializes s.enc.curLen.toNat s = false →
          t.wid = nextWidth s ∧ t.arb = sampled s.enc.curLen.toNat s ∧ t.cnt.gen = s.cnt.gen
          ∧ ∀ p b, dictLookup t.mem p b =
              if p = s.enc.cur ∧ b = s.enc.nxt ∧ s.wid.n.toNat < nextN s
              then some (BitVec.ofNat 16 (nextN s - 1)) else dictLookup s.mem p b)
      ∧ (reinitializes s.enc.curLen.toNat s = true →
          t.wid = widStart ∧ t.arb = arbZero ∧ t.cnt.gen = s.cnt.gen + 1 ∧ t.mem.dict = [])

/-- `40_encoder.md` R167 under the invariants of `10_state.md` R31: the last match goes out and the
counter, the promotion and the arbiter act as if an entry had been inserted, but no key is
mapped. -/
def Obligations.EncLastAdvancesTheCounterOnly : Prop :=
  ∀ s : State, s.ctl.st = .eLast → s.ctl.side = .enc → WidthInv s →
    s.enc.cur.toNat < s.wid.l.toNat → accFits s.enc.curLen.toNat s = true →
    ∃ t, exec .encLast s = .next t
      ∧ t.ctl = { s.ctl with st := .eEof }
      ∧ t.port = { s.port with ob := s.port.ob ++ bitsOf s.enc.cur.toNat s.wid.w.toNat }
      ∧ t.cnt.cwCount = s.cnt.cwCount + 1
      ∧ t.enc = s.enc ∧ t.mem.tab = s.mem.tab ∧ t.dec = s.dec ∧ t.err = s.err
      ∧ t.host = s.host ∧ t.ratioArith = s.ratioArith
      ∧ (reinitializes s.enc.curLen.toNat s = false →
          t.wid = nextWidth s ∧ t.arb = sampled s.enc.curLen.toNat s ∧ t.cnt.gen = s.cnt.gen
          ∧ t.mem.dict = s.mem.dict)
      ∧ (reinitializes s.enc.curLen.toNat s = true →
          t.wid = widStart ∧ t.arb = arbZero ∧ t.cnt.gen = s.cnt.gen + 1 ∧ t.mem.dict = [])

/-- `40_encoder.md` R168: EOF goes out at the width in force, the output is padded with zero bits to
a whole byte and closed, and the pass is DONE. -/
def Obligations.EncEofClosesTheStream : Prop :=
  ∀ s : State, s.ctl.st = .eEof →
    ∃ pad : Nat, pad < 8 ∧ (s.port.ob.length + s.wid.w.toNat + pad) % 8 = 0
      ∧ exec .encEof s = .next { s with
          ctl := { s.ctl with busy := false, done := true, st := .done }
          cnt := { s.cnt with cwCount := s.cnt.cwCount + 1 }
          port := { s.port with
            ob := s.port.ob ++ bitsOf 256 s.wid.w.toNat ++ List.replicate pad false
            closed := true } }

/-! ### The decoder -/

/-- `41_decoder.md` R200 and `30_encoding.md` R125: D_TAG reads eight bits; a legal tag selects the
policy, any other raises BAD_TAG with the bit position moved, too few bits raise TRUNCATED. That the
tag's own row does the same is the model's choice (DESIGN CHOICE, log 2). -/
def Obligations.DecTagSelectsThePolicy : Prop :=
  ∀ s : State, s.ctl.st = .dTag →
    (∀ p : Policy, nextTag s = some p.tag → ∃ u, exec .decTag s = .next u
      ∧ exec (match p with
          | .frozen => .tagFrozen
          | .saturate => .tagSaturate
          | .monitored => .tagMonitored) s = .next u
      ∧ u = { s with
          ctl := { s.ctl with st := .dFirst, pol := p }
          port := { s.port with bp := s.port.bp + 8 } })
    ∧ (∀ t : Byte, nextTag s = some t → t ≠ 0x6E → t ≠ 0x72 → t ≠ 0x6D →
      ∃ u, exec .decTag s = .next u ∧ exec (.tagReserved t) s = .next u
        ∧ u = { s with
            ctl := { s.ctl with st := .error, busy := false, done := false, error := true }
            port := { s.port with bp := s.port.bp + 8 }
            err := { cause := 2, detail := 3, cw := t.setWidth 16, n := s.wid.n } })
    ∧ (nextTag s = none → exec .decTag s = .next { s with
        ctl := { s.ctl with st := .error, busy := false, done := false, error := true }
        err := { cause := 2, detail := 4, cw := 0, n := s.wid.n } })

/-- `41_decoder.md` R201, R202 and R203, `30_encoding.md` R126: the first codeword of a generation
ends the stream, starts the generation or raises BAD_FIRST; a literal that no longer fits the
accumulators raises ACC_OVERFLOW and too few bits raise TRUNCATED. That the codeword's own row does the
same is the model's choice (DESIGN CHOICE, log 2); that every transition of the state takes the
short read is DEDUCED (log 16). -/
def Obligations.FirstCodewordEndsStartsOrFaults : Prop :=
  ∀ s : State, s.ctl.st = .dFirst →
    (nextCode s = some 256 → ∃ (pad : Nat) (u : State), pad < 8
      ∧ (s.port.ob.length + pad) % 8 = 0
      ∧ exec .decFirstEof s = .next u ∧ exec .firstEof s = .next u
      ∧ u = { s with
          ctl := { s.ctl with busy := false, done := true, st := .done }
          dec := { s.dec with cw := 256 }
          cnt := { s.cnt with cwCount := s.cnt.cwCount + 1 }
          port := { s.port with
            bp := s.port.bp + s.wid.w.toNat
            ob := s.port.ob ++ List.replicate pad false
            closed := true } })
    ∧ (∀ b : Byte, nextCode s = some (b.setWidth 16) → ∃ u,
      exec .decFirstLiteral s = .next u ∧ exec (.firstLiteral b) s = .next u
      ∧ (accFits 1 s = true → u = { s with
          ctl := { s.ctl with st := .dEmit }
          dec := { prev := b.setWidth 16, cw := b.setWidth 16 }
          cnt := { s.cnt with cwCount := s.cnt.cwCount + 1 }
          arb := accumulated 1 s
          port := { s.port with bp := s.port.bp + s.wid.w.toNat } })
      ∧ (accFits 1 s = false → u = { s with
          ctl := { s.ctl with busy := false, done := false, error := true, st := .error }
          dec := { prev := b.setWidth 16, cw := b.setWidth 16 }
          cnt := { s.cnt with cwCount := s.cnt.cwCount + 1 }
          err := { cause := 4
                   detail := if 2 ^ 64 ≤ s.arb.accNum.toNat + 8 then 1 else 2
                   cw := 0
                   n := s.wid.n }
          port := { s.port with bp := s.port.bp + s.wid.w.toNat } }))
    ∧ (∀ cw : Code, nextCode s = some cw → 257 ≤ cw.toNat → ∃ u,
      exec .decFirstReserved s = .next u ∧ exec (.firstReserved cw) s = .next u
      ∧ u = { s with
          ctl := { s.ctl with busy := false, done := false, error := true, st := .error }
          dec := { s.dec with cw := cw }
          cnt := { s.cnt with cwCount := s.cnt.cwCount + 1 }
          err := { cause := 2, detail := 2, cw := cw, n := s.wid.n }
          port := { s.port with bp := s.port.bp + s.wid.w.toNat } })
    ∧ (nextCode s = none → ∀ i ∈ [Instr.decFirstEof, .decFirstLiteral, .decFirstReserved],
      exec i s = .next { s with
        ctl := { s.ctl with busy := false, done := false, error := true, st := .error }
        err := { cause := 2, detail := 4, cw := 0, n := s.wid.n } })

/-- `41_decoder.md` R204: D_EMIT appends the bytes of `Str(PREV)`, each most significant bit first,
and nothing else changes but ST. -/
def Obligations.DecEmitWritesTheString : Prop :=
  ∀ (s : State) (bs : List Byte), s.ctl.st = .dEmit → str s.mem s.dec.prev = some bs →
    exec .decEmit s = .next { s with
      ctl := { s.ctl with st := .dRead }
      port := { s.port with ob := s.port.ob ++ bs.flatMap fun b => bitsOf b.toNat 8 } }

/-- `41_decoder.md` R205 under the invariants of `10_state.md` R31: a HIT or KWKWK codeword learns
the entry `val + s[0]` at N (and at the waste slot of a promotion), accumulates the string of the
codeword just read at the width it was read at, becomes PREV, and consults the arbiter. That the
codeword's own row (HIT, KWKWK) does the same is the model's choice (DESIGN CHOICE, log 2). -/
def Obligations.DecReadLearnsOneEntry : Prop :=
  ∀ (s : State) (cw : Code) (first : Byte) (len : Nat), s.ctl.st = .dRead → s.ctl.side = .dec →
    WidthInv s → s.mem.wf = true → nextCode s = some cw → cw.toNat ≠ 256 →
    (cw.toNat < s.wid.n.toNat ∧ first = (tabRead s.mem cw).first
        ∧ len = (tabRead s.mem cw).len.toNat
      ∨ cw.toNat = s.wid.n.toNat ∧ first = (tabRead s.mem s.dec.prev).first
        ∧ len = (tabRead s.mem s.dec.prev).len.toNat + 1) →
    accFits len s = true →
    ∃ t, exec .decReadLearn s = .next t
      ∧ (cw.toNat < s.wid.n.toNat → exec (.hit cw) s = .next t)
      ∧ (cw.toNat = s.wid.n.toNat → exec (.kwkwk cw) s = .next t)
      ∧ t.ctl = { s.ctl with st := if reinitializes len s then .dReset else .dEmit }
      ∧ t.dec = { prev := cw, cw := cw }
      ∧ t.port = { s.port with bp := s.port.bp + s.wid.w.toNat }
      ∧ t.cnt = { s.cnt with cwCount := s.cnt.cwCount + 1 }
      ∧ t.wid = nextWidth s
      ∧ t.arb = (if reinitializes len s then accumulated len s else sampled len s)
      ∧ (∀ j : Code, tabRead t.mem j =
          if s.wid.n.toNat ≤ j.toNat ∧ j.toNat < nextN s then
            { prefixCode := s.dec.prev, suffix := first,
              first := (tabRead s.mem s.dec.prev).first,
              len := (tabRead s.mem s.dec.prev).len + 1 }
          else tabRead s.mem j)
      ∧ t.mem.dict = s.mem.dict ∧ t.enc = s.enc ∧ t.err = s.err ∧ t.host = s.host
      ∧ t.ratioArith = s.ratioArith

/-- `41_decoder.md` R206 and R207, `30_encoding.md` R127: in D_READ, EOF ends the stream, a code
beyond N raises BAD_CODE with CW, CW_COUNT and the bit position written, and too few bits raise
TRUNCATED. That the codeword's own row does the same is the model's choice (DESIGN CHOICE, log 2);
that every transition of the state takes the short read is DEDUCED (log 16). -/
def Obligations.DecReadEndsOrFaults : Prop :=
  ∀ s : State, s.ctl.st = .dRead →
    (nextCode s = some 256 → ∃ (pad : Nat) (u : State), pad < 8
      ∧ (s.port.ob.length + pad) % 8 = 0
      ∧ exec .decReadEof s = .next u ∧ exec .eof s = .next u
      ∧ u = { s with
          ctl := { s.ctl with busy := false, done := true, st := .done }
          dec := { s.dec with cw := 256 }
          cnt := { s.cnt with cwCount := s.cnt.cwCount + 1 }
          port := { s.port with
            bp := s.port.bp + s.wid.w.toNat
            ob := s.port.ob ++ List.replicate pad false
            closed := true } })
    ∧ (∀ cw : Code, nextCode s = some cw → cw.toNat ≠ 256 → s.wid.n.toNat < cw.toNat → ∃ u,
      exec .decReadReserved s = .next u ∧ exec (.codeReserved cw) s = .next u
      ∧ u = { s with
          ctl := { s.ctl with busy := false, done := false, error := true, st := .error }
          dec := { s.dec with cw := cw }
          cnt := { s.cnt with cwCount := s.cnt.cwCount + 1 }
          err := { cause := 2, detail := 1, cw := cw, n := s.wid.n }
          port := { s.port with bp := s.port.bp + s.wid.w.toNat } })
    ∧ (nextCode s = none → ∀ i ∈ [Instr.decReadLearn, .decReadEof, .decReadReserved],
      exec i s = .next { s with
        ctl := { s.ctl with busy := false, done := false, error := true, st := .error }
        err := { cause := 2, detail := 4, cw := 0, n := s.wid.n } })

/-- `41_decoder.md` R208: D_RESET appends the bytes of `Str(PREV)` built from the old table, then
reinitializes the generation and goes to D_FIRST. -/
def Obligations.DecResetWritesThenReinitializes : Prop :=
  ∀ (s : State) (bs : List Byte), s.ctl.st = .dReset → s.ctl.side = .dec →
    str s.mem s.dec.prev = some bs →
    exec .decReset s = .next { s with
      ctl := { s.ctl with st := .dFirst }
      wid := widStart, arb := arbZero, cnt := { s.cnt with gen := s.cnt.gen + 1 }
      port := { s.port with ob := s.port.ob ++ bs.flatMap fun b => bitsOf b.toNat 8 } }

/-- `60_exceptions.md` R365: where the input ends before a whole tag or codeword, every transition
of the state raises TRUNCATED before anything else: the bit position and CW_COUNT stay, ERR_CW is 0
and ERR_N is N. That each row of D_FIRST and D_READ does so, whatever its guard, is DEDUCED
(log 16). -/
def Obligations.ShortReadRaisesTruncated : Prop :=
  ∀ (s : State) (i : Instr),
    (s.ctl.st = .dTag ∧ 8 * s.port.inp.length < s.port.bp + 8 ∧ i = .decTag
      ∨ s.ctl.st = .dFirst ∧ 8 * s.port.inp.length < s.port.bp + s.wid.w.toNat
        ∧ i ∈ [.decFirstEof, .decFirstLiteral, .decFirstReserved]
      ∨ s.ctl.st = .dRead ∧ 8 * s.port.inp.length < s.port.bp + s.wid.w.toNat
        ∧ i ∈ [.decReadLearn, .decReadEof, .decReadReserved]) →
    exec i s = .next { s with
      ctl := { s.ctl with busy := false, done := false, error := true, st := .error }
      err := { cause := 2, detail := 4, cw := 0, n := s.wid.n } }

/-! ### Faults -/

/-- `60_exceptions.md` R370 over every instruction: whichever raises a fault ends with BUSY and DONE
clear, ERROR set, a listed cause and detail latched with the N it leaves, the output neither closed
nor retracted. -/
def Obligations.FaultEntryLatchesAndStops : Prop :=
  ∀ (i : Instr) (s t : State), s.ctl.st ≠ .error → exec i s = .next t → t.ctl.st = .error →
    t.ctl.busy = false ∧ t.ctl.done = false ∧ t.ctl.error = true
      ∧ t.err.n = t.wid.n
      ∧ (t.err.cause, t.err.detail) ∈ errorCodes ∧ t.err.cause ≠ 0
      ∧ t.port.closed = s.port.closed ∧ s.port.ob <+: t.port.ob
      ∧ t.host = s.host ∧ t.ratioArith = s.ratioArith

/-- `60_exceptions.md` R373: in ERROR no transition fires: but for START and hardware reset, which
alone leave ERROR, a step changes nothing except what the host itself writes, CMD and the input, and
the host's own port. -/
def Obligations.ErrorIsLeftOnlyByStartOrReset : Prop :=
  ∀ s t : State, ControlInv s → s.ctl.st = .error → step s = .next t →
    t = { s with
        ctl := { s.ctl with cmd := t.ctl.cmd }
        port := { s.port with inp := t.port.inp }
        host := t.host }
      ∨ (∃ v rest, s.host.pending = .csr (.write 0x00 v) :: rest ∧ v.getLsbD 0 = true)
      ∨ ∃ rest, s.host.pending = .hardwareReset :: rest

/-- `60_exceptions.md` R366: a code not below L raises WIDTH_OVERFLOW / VALUE before anything is
written; a counter above L raises WIDTH_OVERFLOW / COUNTER after the codeword, on both sides. -/
def Obligations.OverflowChecksRaiseWidthOverflow : Prop :=
  (∀ s : State, s.ctl.st = .eStep → s.wid.l.toNat ≤ s.enc.cur.toNat →
    exec .encStep s = .next { s with
      ctl := { s.ctl with busy := false, done := false, error := true, st := .error }
      err := { cause := 3, detail := 2, cw := s.enc.cur, n := s.wid.n } })
  ∧ (∀ s : State, s.ctl.st = .eLast → s.wid.l.toNat ≤ s.enc.cur.toNat →
    exec .encLast s = .next { s with
      ctl := { s.ctl with busy := false, done := false, error := true, st := .error }
      err := { cause := 3, detail := 2, cw := s.enc.cur, n := s.wid.n } })
  ∧ (∀ s : State, s.enc.cur.toNat < s.wid.l.toNat → s.wid.l.toNat < s.wid.n.toNat →
    ∀ t : State, t = { s with
        ctl := { s.ctl with busy := false, done := false, error := true, st := .error }
        cnt := { s.cnt with cwCount := s.cnt.cwCount + 1 }
        port := { s.port with ob := s.port.ob ++ bitsOf s.enc.cur.toNat s.wid.w.toNat }
        err := { cause := 3, detail := 1, cw := 0, n := s.wid.n } } →
    (s.ctl.side = .enc → s.ctl.st = .eStep → exec .encStep s = .next t)
    ∧ (s.ctl.side = .enc → s.ctl.st = .eLast → exec .encLast s = .next t))
  ∧ (∀ (s : State) (cw : Code), s.ctl.st = .dRead → s.ctl.side = .dec → nextCode s = some cw →
    cw.toNat ≠ 256 → cw.toNat ≤ s.wid.n.toNat → s.wid.l.toNat < s.wid.n.toNat →
    exec .decReadLearn s = .next { s with
      ctl := { s.ctl with busy := false, done := false, error := true, st := .error }
      dec := { s.dec with cw := cw }
      cnt := { s.cnt with cwCount := s.cnt.cwCount + 1 }
      port := { s.port with bp := s.port.bp + s.wid.w.toNat }
      err := { cause := 3, detail := 1, cw := 0, n := s.wid.n } })

/-- `43_reset_policy.md` R277 at the four transitions that accumulate: a match that no longer fits
raises ACC_OVERFLOW, NUM before DEN, with neither accumulator and no baseline changed, after the
codeword has been counted. -/
def Obligations.AccumulatorOverflowStopsTheStep : Prop :=
  ∀ (s : State) (i : Instr) (len : Nat), WidthInv s → s.mem.wf = true → accFits len s = false →
    (s.ctl.st = .eStep ∧ i = .encStep ∧ len = s.enc.curLen.toNat
        ∧ s.enc.cur.toNat < s.wid.l.toNat
      ∨ s.ctl.st = .eLast ∧ i = .encLast ∧ len = s.enc.curLen.toNat
        ∧ s.enc.cur.toNat < s.wid.l.toNat
      ∨ s.ctl.st = .dFirst ∧ i = .decFirstLiteral ∧ len = 1
        ∧ (∃ cw, nextCode s = some cw ∧ cw.toNat < 256)
      ∨ s.ctl.st = .dRead ∧ i = .decReadLearn
        ∧ (∃ cw, nextCode s = some cw ∧ cw.toNat ≠ 256 ∧ cw.toNat ≤ s.wid.n.toNat
          ∧ len = if cw.toNat < s.wid.n.toNat then (tabRead s.mem cw).len.toNat
              else (tabRead s.mem s.dec.prev).len.toNat + 1)) →
    ∃ t, exec i s = .next t
      ∧ t.ctl = { s.ctl with busy := false, done := false, error := true, st := .error }
      ∧ t.arb = s.arb ∧ t.cnt = { s.cnt with cwCount := s.cnt.cwCount + 1 }
      ∧ t.err = { cause := 4
                  detail := if 2 ^ 64 ≤ s.arb.accNum.toNat + 8 * len then 1 else 2
                  cw := 0
                  n := t.wid.n }

/-- The model's stops (logs 1 and 13): a wire item that does not stand next in its state, or a CMD
value the register does not hold, is refused as not enabled, and a string that does not exist stops
DEC_EMIT and DEC_RESET. -/
def Obligations.DisabledInstructionsAreRefused : Prop :=
  ∀ s : State,
    (∀ t, s.ctl.st ≠ .dTag ∨ nextTag s ≠ some t →
      exec (.tagReserved t) s = .refused .notEnabled
      ∧ (t = 0x6E → exec .tagFrozen s = .refused .notEnabled)
      ∧ (t = 0x72 → exec .tagSaturate s = .refused .notEnabled)
      ∧ (t = 0x6D → exec .tagMonitored s = .refused .notEnabled))
    ∧ (∀ cw, s.ctl.st ≠ .dFirst ∨ nextCode s ≠ some cw →
      exec (.firstReserved cw) s = .refused .notEnabled
      ∧ (cw = 256 → exec .firstEof s = .refused .notEnabled)
      ∧ (∀ b : Byte, cw = b.setWidth 16 → exec (.firstLiteral b) s = .refused .notEnabled))
    ∧ (∀ cw, s.ctl.st ≠ .dRead ∨ nextCode s ≠ some cw →
      exec (.hit cw) s = .refused .notEnabled
      ∧ exec (.kwkwk cw) s = .refused .notEnabled
      ∧ exec (.codeReserved cw) s = .refused .notEnabled
      ∧ (cw = 256 → exec .eof s = .refused .notEnabled))
    ∧ (s.ctl.cmd ≠ 0x6E2D → exec .compressFrozen s = .refused .notEnabled)
    ∧ (s.ctl.cmd ≠ 0x722D → exec .compressSaturate s = .refused .notEnabled)
    ∧ (s.ctl.cmd ≠ 0x6D2D → exec .compressMonitored s = .refused .notEnabled)
    ∧ (∀ p : Byte, s.ctl.cmd ≠ p ++ (0x2B : Byte) →
      exec (.expand p) s = .refused .notEnabled)
    ∧ (str s.mem s.dec.prev = none →
      (s.ctl.st = .dEmit → exec .decEmit s = .fault .unresolvedString)
      ∧ (s.ctl.st = .dReset → exec .decReset s = .fault .unresolvedString))

/-! ### Width controller and arbiter -/

/-- `42_width_controller.md` R251, R252 and R254 with the side offset of R250; the saturation test
holds at W = 16 only. -/
def Obligations.WidthTestsFollowTheSideOffset : Prop :=
  ∀ s : State,
    (canInsert s = true ↔ s.wid.n.toNat < s.wid.l.toNat)
    ∧ (s.ctl.side = .enc →
      (shouldGrow s = true ↔ s.wid.w.toNat < 16 ∧ s.wid.n.toNat = s.wid.l.toNat)
      ∧ (atCeiling s = true ↔ 65536 ≤ s.wid.n.toNat))
    ∧ (s.ctl.side = .dec →
      (shouldGrow s = true ↔ s.wid.w.toNat < 16 ∧ (s.wid.n.toNat : Int) = s.wid.l.toNat - 1)
      ∧ (atCeiling s = true ↔ 65535 ≤ s.wid.n.toNat))
    ∧ (WidthInv s → atCeiling s = true → s.wid.w.toNat = 16)

/-- `42_width_controller.md` R257 from every sound state: while a pass goes on without a
reinitialization W does not fall, and it lies in 9..16; only a reinitialization lowers it. -/
def Obligations.WidthNeverFallsWithinAGeneration : Prop :=
  ∀ s t : State, Inv s → s.ctl.busy = true → step s = .next t → t.ctl.busy = true →
    9 ≤ t.wid.w.toNat ∧ t.wid.w.toNat ≤ 16
      ∧ (s.wid.w.toNat ≤ t.wid.w.toNat ∨ t.cnt.gen = s.cnt.gen + 1 ∧ t.wid = widStart)

/-- `43_reset_policy.md` R270 to R274: FROZEN returns NoOp, SATURATE returns Reinitialize, MONITORED
captures its first sample and then reinitializes exactly when the ratio is degraded; nothing but the
capture writes. -/
def Obligations.ArbiterDecidesByPolicy : Prop :=
  ∀ s : State,
    (s.ctl.pol = .frozen → arbitrate s = .noOp ∧ afterArbitrate s = s)
    ∧ (s.ctl.pol = .saturate → arbitrate s = .reinit ∧ afterArbitrate s = s)
    ∧ (s.ctl.pol = .monitored → s.arb.baseValid = false →
      arbitrate s = .noOp ∧ afterArbitrate s =
        { s with arb := { s.arb with baseNum := s.arb.accNum, baseDen := s.arb.accDen,
                                     baseValid := true } })
    ∧ (s.ctl.pol = .monitored → s.arb.baseValid = true →
      afterArbitrate s = s
      ∧ (arbitrate s = .reinit ↔ degraded s.ratioArith s.arb.baseNum.toNat s.arb.baseDen.toNat
          s.arb.accNum.toNat s.arb.accDen.toNat = true))

/-- `43_reset_policy.md` R276 and R277: MONITORED adds the match's bits and the codeword's width;
a sum that would reach 2^64 raises ACC_OVERFLOW, NUM first, and changes neither accumulator; the
other policies do nothing. -/
def Obligations.AccumulateAddsOrFaults : Prop :=
  ∀ (s : State) (len w : Nat),
    (s.ctl.pol ≠ .monitored → accumulate len w s = .cont s)
    ∧ (s.ctl.pol = .monitored →
      (s.arb.accNum.toNat + 8 * len < 2 ^ 64 → s.arb.accDen.toNat + w < 2 ^ 64 →
        ∃ t, accumulate len w s = .cont t ∧ t = { s with arb := t.arb }
          ∧ t.arb.accNum.toNat = s.arb.accNum.toNat + 8 * len
          ∧ t.arb.accDen.toNat = s.arb.accDen.toNat + w
          ∧ t.arb.baseValid = s.arb.baseValid ∧ t.arb.baseNum = s.arb.baseNum
          ∧ t.arb.baseDen = s.arb.baseDen)
      ∧ (2 ^ 64 ≤ s.arb.accNum.toNat + 8 * len →
        accumulate len w s = .raised { s with
          ctl := { s.ctl with busy := false, done := false, error := true, st := .error }
          err := { cause := 4, detail := 1, cw := 0, n := s.wid.n } })
      ∧ (s.arb.accNum.toNat + 8 * len < 2 ^ 64 → 2 ^ 64 ≤ s.arb.accDen.toNat + w →
        accumulate len w s = .raised { s with
          ctl := { s.ctl with busy := false, done := false, error := true, st := .error }
          err := { cause := 4, detail := 2, cw := 0, n := s.wid.n } }))

/-- `43_reset_policy.md` R278: `cvt` and `fdiv` give the binary64 value nearest the exact one, ties
to even, `cvt` is exact below 2^53, and `>` compares as reals. That this is so for every positive
operand, with no bound on the exponent, is PRESUMED (log 17; the format is general knowledge in
R278). -/
def Obligations.RatioValuesAreNearestEven : Prop :=
  (∀ num den : Nat, 0 < num → 0 < den →
    ∃ (m : Nat) (e : Int), roundQuot num den 0 = .normal m e ∧ 2 ^ 52 ≤ m ∧ m < 2 ^ 53
      ∧ ∀ (m' : Nat) (e' : Int), 2 ^ 52 ≤ m' → m' < 2 ^ 53 →
        |(num : ℚ) / den - m * 2 ^ e| ≤ |(num : ℚ) / den - m' * 2 ^ e'|
        ∧ (|(num : ℚ) / den - m * 2 ^ e| = |(num : ℚ) / den - m' * 2 ^ e'| →
            (m' : ℚ) * 2 ^ e' ≠ m * 2 ^ e → m % 2 = 0))
  ∧ (∀ x : Nat, 0 < x → cvt x = roundQuot x 1 0)
  ∧ (∀ x : Nat, 0 < x → x < 2 ^ 53 → ∃ (m : Nat) (e : Int), cvt x = .normal m e
      ∧ (m : ℚ) * 2 ^ e = x)
  ∧ (∀ (m m' : Nat) (e e' : Int), 0 < m → 0 < m' →
      ∃ (a : Nat) (d : Int), roundQuot m m' 0 = .normal a d
        ∧ fdiv (.normal m e) (.normal m' e') = .normal a (d + (e - e')))
  ∧ (∀ (m m' : Nat) (e e' : Int), 2 ^ 52 ≤ m → m < 2 ^ 53 → 2 ^ 52 ≤ m' → m' < 2 ^ 53 →
      (fgt (.normal m e) (.normal m' e') = true ↔ (m' : ℚ) * 2 ^ e' < (m : ℚ) * 2 ^ e))

/-- `43_reset_policy.md` R278, R274: under EXACT the test is that the baseline ratio exceeds the
current one by more than the factor 1.1, as rationals; a ratio of exactly 1.1 is not degraded. Under
BINARY64 it is the comparison of three rounded quotients with the value nearest 1.1 (the arithmetic
is PRESUMED, log 17). -/
def Obligations.DegradedComparesTheRatios : Prop :=
  (∀ bn bd an ad : Nat, 0 < bd → 0 < an → 0 < ad →
    (degraded .exact bn bd an ad = true ↔
      (11 / 10 : ℚ) < ((bn : ℚ) / bd) / ((an : ℚ) / ad)))
  ∧ (∀ bn bd an ad : Nat,
    degraded .binary64 bn bd an ad =
      fgt (fdiv (fdiv (cvt bn) (cvt bd)) (fdiv (cvt an) (cvt ad)))
        (.normal 0x1199999999999A (-52)))
  ∧ f64Bits (.normal 0x1199999999999A (-52)) = 0x3FF199999999999A

/-- `70_reset_and_hazards.md` R405: Reinit restores the generation-start values, clears the
dictionary on ENC, counts GEN modulo 2^32, and changes nothing else. -/
def Obligations.ReinitRestoresTheGenerationStart : Prop :=
  ∀ s : State,
    (s.ctl.side = .enc →
      reinit s = { s with
        mem := { s.mem with dict := [] }, wid := widStart, arb := arbZero
        cnt := { s.cnt with gen := s.cnt.gen + 1 } })
    ∧ (s.ctl.side = .dec →
      reinit s = { s with
        wid := widStart, arb := arbZero, cnt := { s.cnt with gen := s.cnt.gen + 1 } })

/-- `40_encoder.md` R174 from every sound state: an encoder pass under FROZEN never reinitializes:
GEN stays 0, W stays 16 once it is 16, and no key loses its code but to the replacement of a
boundary insertion. -/
def Obligations.FrozenNeverReinitializes : Prop :=
  ∀ s t : State, Inv s → encPhase s.ctl.st = true → s.ctl.pol = .frozen → step s = .next t →
    t.ctl.busy = true →
    t.ctl.pol = .frozen ∧ t.cnt.gen = 0 ∧ (s.wid.w.toNat = 16 → t.wid.w.toNat = 16)
      ∧ s.wid.n.toNat ≤ t.wid.n.toNat
      ∧ ∀ p b, (dictLookup s.mem p b).isSome = true → (dictLookup t.mem p b).isSome = true

/-! ### The code table and the dictionary -/

/-- `44_code_table.md` R301 and R303: entries 0 to 255 are hardwired; any other entry reads back what
was written; no other entry changes; the canonical form is kept. That a write below 256 is discarded
is DEDUCED (log 24). -/
def Obligations.TableReadsBackWhatWasWritten : Prop :=
  ∀ (m : Memory) (j : Code) (e : TabEntry), m.wf = true →
    (tabWrite m j e).wf = true
    ∧ (tabWrite m j e).dict = m.dict
    ∧ (256 ≤ j.toNat → tabRead (tabWrite m j e) j = e)
    ∧ (∀ j' : Code, j' ≠ j ∨ j.toNat < 256 → tabRead (tabWrite m j e) j' = tabRead m j')
    ∧ (∀ b : Byte, tabRead m (b.setWidth 16) =
        { prefixCode := 0, suffix := b, first := b, len := 1 })

/-- `44_code_table.md` R302 and R304: where the learned entries are links, `Str(j)` exists, has
length LEN(j) and first byte FIRST(j), and satisfies the recursion of R302. -/
def Obligations.StringHasItsLengthAndFirstByte : Prop :=
  ∀ (m : Memory) (n : Nat) (j : Code), LinksOk m n → j.toNat < n → j.toNat ≠ 256 →
    ∃ bs, str m j = some bs
      ∧ bs.length = (tabRead m j).len.toNat
      ∧ bs.head? = some (tabRead m j).first
      ∧ (j.toNat < 256 → bs = [j.setWidth 8])
      ∧ (257 ≤ j.toNat → ∃ init, str m (tabRead m j).prefixCode = some init
          ∧ bs = init ++ [(tabRead m j).suffix])

/-- `44_code_table.md` R312, R313 and R314: an insertion replaces the mapping of its own key and no
other, a clear unmaps every key, and both keep the canonical form. -/
def Obligations.DictInsertReplacesOneKey : Prop :=
  ∀ (m : Memory) (p : Code) (b : Byte) (k : Code),
    dictLookup (dictInsert m p b k) p b = some k
    ∧ (∀ p' b', p' ≠ p ∨ b' ≠ b →
        dictLookup (dictInsert m p b k) p' b' = dictLookup m p' b')
    ∧ (∀ p' b', dictLookup (dictClear m) p' b' = none)
    ∧ (∀ j, tabRead (dictInsert m p b k) j = tabRead m j ∧ tabRead (dictClear m) j = tabRead m j)
    ∧ (m.wf = true → (dictInsert m p b k).wf = true ∧ (dictClear m).wf = true)

/-! ### The wire -/

/-- `20_memory.md` R86 to R90: a value below 2^w written with BitWrite anywhere in a stream is what
BitRead reads at its position, whatever stands before and after it. -/
def Obligations.WrittenValueReadsBack : Prop :=
  ∀ (before after : List Bool) (v w : Nat) (s : State), v < 2 ^ w →
    s.port.inp = packBytes (before ++ bitsOf v w ++ after) → s.port.bp = before.length →
    nextBits s w = some v

/-- `20_memory.md` R88: Close appends 0 to 7 zero bits up to a whole byte and ends the output, and
byte k of OUT is the number its bits 8k to 8k + 7 spell. -/
def Obligations.ClosedOutputIsWholeBytes : Prop :=
  ∀ s : State, ∃ pad : Nat, pad < 8
    ∧ (closeOut s).port.ob = s.port.ob ++ List.replicate pad false
    ∧ (closeOut s).port.closed = true
    ∧ (closeOut s).port.ob.length = 8 * (outBytes (closeOut s)).length
    ∧ ∀ k < (outBytes (closeOut s)).length,
        ((outBytes (closeOut s)).getD k 0).toNat =
          ∑ j ∈ Finset.range 8,
            if (closeOut s).port.ob.getD (8 * k + j) false then 2 ^ (7 - j) else 0

/-! ### The step -/

/-- `00_scope.md` R14, `45_host_commands.md` R335: with no host action pending (or where the host
gives the core a turn) and BUSY set, the step is exec of the transition ST and the guards decode to;
a host access is exec of what its word decodes to, once taken from the pending list. -/
def Obligations.StepRunsTheDecodedInstruction : Prop :=
  ∀ (s : State) (i : Instr),
    (s.host.pending = [] → s.ctl.busy = true →
      decode (viewOf s) (.fsm s.ctl.st.code) = .instr i → step s = exec i s)
    ∧ (∀ rest, s.host.pending = .turn :: rest → s.ctl.busy = true →
      decode (viewOf s) (.fsm s.ctl.st.code) = .instr i →
      step s = exec i { s with host := { s.host with pending := rest } })
    ∧ (∀ a rest, s.host.pending = .csr a :: rest → decode (viewOf s) (.csr a) = .instr i →
      step s = exec i { s with host := { s.host with pending := rest } })

/-- The wire items and the CMD values are the instructions too (`00_scope.md` R2, logs 2 and 3):
where the decoder reads one, or START reads a command, the step is exec of it. -/
def Obligations.StepRunsTheItemItReads : Prop :=
  ∀ s : State,
    (∀ t, s.host.pending = [] → s.ctl.busy = true → s.ctl.st = .dTag → nextTag s = some t →
      ∃ i, decode (viewOf s) (.tag8 t) = .instr i ∧ step s = exec i s)
    ∧ (∀ cw, s.host.pending = [] → s.ctl.busy = true → s.ctl.st = .dFirst →
      nextCode s = some cw →
      ∃ i, decode (viewOf s) (.cwFirst cw) = .instr i ∧ step s = exec i s)
    ∧ (∀ cw, s.host.pending = [] → s.ctl.busy = true → s.ctl.st = .dRead →
      nextCode s = some cw →
      ∃ i, decode (viewOf s) (.cwRead cw) = .instr i ∧ step s = exec i s)
    ∧ (∀ v rest i, s.host.pending = .csr (.write 0x00 v) :: rest → v.getLsbD 0 = true →
      s.ctl.busy = false → decode (viewOf s) (.cmd16 s.ctl.cmd) = .instr i →
      step s = exec i { s with host := { s.host with pending := rest } })

/-- `00_scope.md` R14: in every running state exactly one transition fires, given that the bits
D_FIRST and D_READ read are there (where they are not, every transition of the state takes the same
TRUNCATED entry: `ShortReadRaisesTruncated`). -/
def Obligations.ExactlyOneTransitionFires : Prop :=
  ∀ s : State, (encPhase s.ctl.st || decPhase s.ctl.st) = true →
    (s.ctl.st = .dFirst ∨ s.ctl.st = .dRead → (nextCode s).isSome = true) →
    ∃ i ∈ fsmRows, fires i s ∧ decode (viewOf s) (.fsm s.ctl.st.code) = .instr i
      ∧ ∀ j ∈ fsmRows, fires j s → j = i

/-- `60_exceptions.md` R381 and `45_host_commands.md` R335: with no host action pending and BUSY clear,
the core waits with all state kept. That a step of it answers the same state, and that BUSY decides
where ST does not agree with it, is the model's choice (DESIGN CHOICE, log 20). -/
def Obligations.WaitingCoreKeepsAllState : Prop :=
  ∀ s : State, s.host.pending = [] → s.ctl.busy = false → step s = .next s

/-- `30_encoding.md` R146, with the turn-taking of logs 4, 5 and 14: LOAD places the input before a
pass and is a fault during one; WAIT reads STATUS and ends once BUSY is clear; CHECK reads STATUS
and asks for ERRINFO exactly where ERROR is set. -/
def Obligations.HostActionsFollowTheirWords : Prop :=
  ∀ (s : State) (rest : List HostAction),
    (∀ bytes, s.host.pending = .load bytes :: rest →
      (s.ctl.busy = false → step s = .next { s with
        port := { s.port with inp := bytes }, host := { s.host with pending := rest } })
      ∧ (s.ctl.busy = true → step s = .fault .inputChangedDuringPass))
    ∧ (s.host.pending = .wait :: rest →
      (s.ctl.busy = false →
        step s = .next { s with host := { rdata := csrStatus s, pending := rest } })
      ∧ (s.ctl.busy = true → ∀ i, decode (viewOf s) (.fsm s.ctl.st.code) = .instr i →
        step s = exec i { s with host := { rdata := csrStatus s, pending := .wait :: rest } }))
    ∧ (s.host.pending = .check :: rest →
      step s = .next { s with host :=
        { rdata := csrStatus s
          pending := if s.ctl.error then .csr (.read 0x1C) :: rest else rest } })

/-! ### Encoding -/

/-- Decode and encode agree: for every well-formed instruction, in every view its own condition or
guard admits, decoding its item gives the instruction back with every operand. -/
def Obligations.DecodeOfEncodeIsTheInstruction : Prop :=
  ∀ (i : Instr) (v : View), i.wf = true → i.guardHolds v = true →
    decode v (encode i) = .instr i

/-- Each item has one meaning: an item the decoder reads as an instruction is that instruction's own
item, bit for bit. -/
def Obligations.EncodeOfDecodeIsTheItem : Prop :=
  ∀ (e : Encoded) (v : View) (i : Instr), decode v e = .instr i → encode i = e

/-- Words written out from the opcode table (`30_encoding.md` R125, R126, R127, R136, R140). -/
def Obligations.OpcodeWordsDecodeToTheirRows : Prop :=
  ∀ v : View,
    decode v (.tag8 0b01101110#8) = .instr .tagFrozen
    ∧ decode v (.tag8 0b01110010#8) = .instr .tagSaturate
    ∧ decode v (.tag8 0b01101101#8) = .instr .tagMonitored
    ∧ decode v (.tag8 0b01111000#8) = .instr (.tagReserved 0x78)
    ∧ decode v (.cwFirst 0b001000001#16) = .instr (.firstLiteral 0x41)
    ∧ decode v (.cwFirst 0b100000000#16) = .instr .firstEof
    ∧ decode v (.cwFirst 0b100101100#16) = .instr (.firstReserved 300)
    ∧ decode v (.cwRead 0b100000000#16) = .instr .eof
    ∧ decode v (.cmd16 0b0110111000101101#16) = .instr .compressFrozen
    ∧ decode v (.cmd16 0b1111111100101011#16) = .instr (.expand 0xFF)
    ∧ decode v (.cmd16 0b0111100000101101#16) = .reject (.badPolicy 0x78)
    ∧ decode v (.csr (.write 0x00 1)) = .instr (.start 1)
    ∧ decode v (.fsm 0b00111#5) = .instr .encStep
    ∧ decode v (.fsm 0b10100#5) = .instr .decReset
    ∧ decode v (.fsm 0b00011#5) = .reject .reservedState

/-- An instruction placed in a state is what the next step runs there (log 21): the host's access or
the wire item is taken and exec of the instruction is the step, from every state. -/
def Obligations.PlacedInstructionRunsNext : Prop :=
  ∀ (i : Instr) (s : State), i.wf = true →
    step (placeInstr i s) =
      exec i { placeInstr i s with host := { (placeInstr i s).host with pending := [] } }

/-! ### Invariants and whole-machine rules -/

/-- The power-on state meets the invariant. -/
def Obligations.ResetMeetsTheInvariant : Prop := Inv State.reset

/-- Every step keeps the invariant: `10_state.md` R31 and R36, `44_code_table.md` R304,
`40_encoder.md` R171, `20_memory.md` R81 and R88, and the canonical form of the stores. -/
def Obligations.StepKeepsTheInvariant : Prop :=
  ∀ s t : State, Inv s → step s = .next t → Inv t

/-- `40_encoder.md` R171, `41_decoder.md` R212: from a sound state no step raises WIDTH_OVERFLOW: a
latched cause 3 was latched before. -/
def Obligations.SoundStateNeverOverflowsTheWidth : Prop :=
  ∀ s t : State, Inv s → step s = .next t → t.err.cause = 3 → t.err = s.err

/-- From a sound state a step always gives a next state, unless the host breaks a rule of its own:
no transition is refused, no string is unresolved. -/
def Obligations.SoundStateAlwaysSteps : Prop :=
  ∀ s : State, Inv s → hostKeepsRules s = true → ∃ t, step s = .next t

/-- `70_reset_and_hazards.md` R431: a running pass, left alone by the host, ends in DONE or
ERROR. -/
def Obligations.EveryPassEnds : Prop :=
  ∀ s : State, Inv s → s.ctl.busy = true → s.host.pending = [] →
    ∃ k t, Sys2Proof.core.run k s = .next t ∧ (t.ctl.st = .done ∨ t.ctl.st = .error)

/-- `41_decoder.md` R213: compressing any input under any policy ends in DONE, and expanding the
stream with the same `RATIO_ARITH` ends in DONE with the input as output, from any two states in
which no pass is running. Under MONITORED alone the length is bounded, so that the 64-bit
accumulators do not overflow (`43_reset_policy.md` R277). -/
def Obligations.DecodingTheEncodedStreamGivesTheInput : Prop :=
  ∀ (s0 d0 : State) (p : Policy) (input : List Byte), s0.ctl.busy = false → d0.ctl.busy = false →
    s0.mem.wf = true → d0.mem.wf = true → d0.ratioArith = s0.ratioArith →
    (p = .monitored → input.length < 2 ^ 60) →
    ∃ k e j d,
      Sys2Proof.core.run k { s0 with
        port := { s0.port with inp := input }
        host := { s0.host with pending := compressProgram p } } = .next e
      ∧ e.ctl.st = .done ∧ e.host.pending = []
      ∧ Sys2Proof.core.run j { d0 with
        port := { d0.port with inp := outBytes e }
        host := { d0.host with pending := expandProgram } } = .next d
      ∧ d.ctl.st = .done ∧ d.host.pending = [] ∧ outBytes d = input

/-- `20_memory.md` R105, `45_host_commands.md` R330: what the host has read and has pending does not
disturb a transition: exec of any instruction but CSR_READ does the same beside another host
port. -/
def Obligations.HostReadsDoNotDisturbThePass : Prop :=
  ∀ (i : Instr) (s : State) (h : HostPort), (∀ off, i ≠ .csrRead off) →
    exec i { s with host := h } =
      match exec i s with
      | .next t => .next { t with host := h }
      | .fault f => .fault f
      | .refused r => .refused r

/-- `10_state.md` R48: each register is written only by the rules its row names. -/
def Obligations.OnlyTheNamedRulesWriteARegister : Prop :=
  ∀ (i : Instr) (s t : State), exec i s = .next t →
    -- W, L, N
    (t.wid = s.wid ∨ isStart i ∨ isEmit i ∨ isLearn i ∨ i = .decReset)
    -- ST and the flags: every transition, START, fault entry; no other host access
    ∧ (isCsr i → { t.ctl with cmd := s.ctl.cmd } = s.ctl)
    -- SIDE, POL, CMD
    ∧ (t.ctl.side = s.ctl.side ∨ isStart i)
    ∧ (t.ctl.pol = s.ctl.pol ∨ isStart i ∨ isTag i)
    ∧ (t.ctl.cmd = s.ctl.cmd ∨ ∃ v, i = .cmdWrite v)
    -- BUSY, DONE, ERROR
    ∧ ((t.ctl.busy = s.ctl.busy ∧ t.ctl.done = s.ctl.done ∧ t.ctl.error = s.ctl.error)
        ∨ isStart i ∨ t.ctl.st = .done ∨ t.ctl.st = .error)
    -- ACC_NUM, ACC_DEN
    ∧ ((t.arb.accNum = s.arb.accNum ∧ t.arb.accDen = s.arb.accDen)
        ∨ isStart i ∨ isEmit i ∨ isLiteral i ∨ isLearn i ∨ i = .decReset)
    -- BASE_VALID, BASE_NUM, BASE_DEN
    ∧ ((t.arb.baseValid = s.arb.baseValid ∧ t.arb.baseNum = s.arb.baseNum
          ∧ t.arb.baseDen = s.arb.baseDen)
        ∨ isStart i ∨ isEmit i ∨ isLearn i ∨ i = .decReset)
    -- CUR, CUR_LEN, NXT
    ∧ (t.enc = s.enc ∨ i ∈ [.encFirstByte, .encScanHit, .encScanMiss, .encStep])
    -- PREV, CW
    ∧ (t.dec.prev = s.dec.prev ∨ isLiteral i ∨ isLearn i)
    ∧ (t.dec.cw = s.dec.cw ∨ isCodeRead i)
    -- TAB
    ∧ ((∀ j, tabRead t.mem j = tabRead s.mem j) ∨ isLearn i)
    -- GEN, CW_COUNT
    ∧ (t.cnt.gen = s.cnt.gen ∨ isStart i ∨ isEmit i ∨ i = .decReset)
    ∧ (t.cnt.cwCount = s.cnt.cwCount ∨ isStart i ∨ isEmit i ∨ i = .encEof ∨ isCodeRead i)
    -- ERR_*
    ∧ (t.err = s.err ∨ isStart i ∨ t.ctl.st = .error)

/-- `45_host_commands.md` R337, `10_state.md` R67: passes are independent. START from any two idle
states with the same CMD, input and host gives two states of one pass, and every transition of one
is matched by the other, so no stale register is ever read. -/
def Obligations.StaleStateIsNeverRead : Prop :=
  (∀ (s t : State) (v : CsrWord) (s' : State), Inv s → Inv t → s.ctl.busy = false →
    t.ctl.busy = false → v.getLsbD 0 = true → s.ctl.cmd = t.ctl.cmd →
    s.port.inp = t.port.inp → s.host = t.host → s.ratioArith = t.ratioArith →
    exec (.start v) s = .next s' → s'.ctl.busy = true →
    ∃ t', exec (.start v) t = .next t' ∧ SamePass s' t')
  ∧ (∀ s t s' : State, Inv s → Inv t → SamePass s t → s.ctl.busy = true →
    s.host.pending = [] → step s = .next s' →
    ∃ t', step t = .next t' ∧ { s'.ctl with pol := .frozen } = { t'.ctl with pol := .frozen }
      ∧ s'.port = t'.port ∧ s'.err = t'.err ∧ (s'.ctl.busy = true → SamePass s' t'))
end

