-- ==== Sys2Proof/Laws/Bits.lean ====
section
/-! SUPPORT. The bit order of the wire: lengths, and that a value survives being written and read. -/

namespace Sys2Proof

@[simp] theorem length_bitsOf (v : Nat) : ∀ w, (bitsOf v w).length = w
  | 0 => rfl
  | w + 1 => by simp [bitsOf, length_bitsOf v w]

@[simp] theorem length_streamBits (bytes : List Byte) : ∀ k w, (streamBits bytes k w).length = w
  | _, 0 => rfl
  | k, w + 1 => by simp [streamBits, length_streamBits bytes (k + 1) w]

/-- A bit sequence of length w spells a number below 2^w. -/
theorem bitsValue_lt : ∀ bs : List Bool, bitsValue bs < 2 ^ bs.length
  | [] => by simp [bitsValue]
  | b :: bs => by
    have h := bitsValue_lt bs
    simp only [bitsValue, List.length_cons, Nat.pow_succ]
    cases b <;> simp <;> omega

/-- The bits written for a value spell its low w bits. -/
theorem bitsValue_bitsOf (v : Nat) : ∀ w, bitsValue (bitsOf v w) = v % 2 ^ w
  | 0 => by simp [bitsOf, bitsValue, Nat.mod_one]
  | w + 1 => by
    rw [bitsOf, bitsValue, bitsValue_bitsOf v w, length_bitsOf, Nat.mod_pow_succ, Nat.toNat_testBit]
    ring

end Sys2Proof
end

