-- ==== Sys2Proof/Laws/State.lean ====
section
/-! SUPPORT. For each named update of the state, what each group of registers holds after it: one
lemma per group and update, each true by unfolding, so that no later proof unfolds a record update. -/

namespace Sys2Proof.Machine

/-! ### goto -/

@[simp] theorem goto_ctl (p : Phase) (s : State) : (goto p s).ctl = { s.ctl with st := p } := rfl
@[simp] theorem goto_wid (p : Phase) (s : State) : (goto p s).wid = s.wid := rfl
@[simp] theorem goto_arb (p : Phase) (s : State) : (goto p s).arb = s.arb := rfl
@[simp] theorem goto_enc (p : Phase) (s : State) : (goto p s).enc = s.enc := rfl
@[simp] theorem goto_dec (p : Phase) (s : State) : (goto p s).dec = s.dec := rfl
@[simp] theorem goto_mem (p : Phase) (s : State) : (goto p s).mem = s.mem := rfl
@[simp] theorem goto_cnt (p : Phase) (s : State) : (goto p s).cnt = s.cnt := rfl
@[simp] theorem goto_err (p : Phase) (s : State) : (goto p s).err = s.err := rfl
@[simp] theorem goto_port (p : Phase) (s : State) : (goto p s).port = s.port := rfl
@[simp] theorem goto_host (p : Phase) (s : State) : (goto p s).host = s.host := rfl
@[simp] theorem goto_ratioArith (p : Phase) (s : State) :
    (goto p s).ratioArith = s.ratioArith := rfl

/-! ### finishPass -/

@[simp] theorem finishPass_ctl (s : State) :
    (finishPass s).ctl = { s.ctl with busy := false, done := true, st := .done } := rfl
@[simp] theorem finishPass_wid (s : State) : (finishPass s).wid = s.wid := rfl
@[simp] theorem finishPass_arb (s : State) : (finishPass s).arb = s.arb := rfl
@[simp] theorem finishPass_enc (s : State) : (finishPass s).enc = s.enc := rfl
@[simp] theorem finishPass_dec (s : State) : (finishPass s).dec = s.dec := rfl
@[simp] theorem finishPass_mem (s : State) : (finishPass s).mem = s.mem := rfl
@[simp] theorem finishPass_cnt (s : State) : (finishPass s).cnt = s.cnt := rfl
@[simp] theorem finishPass_err (s : State) : (finishPass s).err = s.err := rfl
@[simp] theorem finishPass_port (s : State) : (finishPass s).port = s.port := rfl
@[simp] theorem finishPass_host (s : State) : (finishPass s).host = s.host := rfl
@[simp] theorem finishPass_ratioArith (s : State) : (finishPass s).ratioArith = s.ratioArith := rfl

/-! ### raiseFault -/

@[simp] theorem raiseFault_ctl (k : FaultKind) (v : Code) (s : State) :
    (raiseFault k v s).ctl = { s.ctl with busy := false, done := false, error := true, st := .error } := rfl
@[simp] theorem raiseFault_wid (k : FaultKind) (v : Code) (s : State) :
    (raiseFault k v s).wid = s.wid := rfl
@[simp] theorem raiseFault_arb (k : FaultKind) (v : Code) (s : State) :
    (raiseFault k v s).arb = s.arb := rfl
@[simp] theorem raiseFault_enc (k : FaultKind) (v : Code) (s : State) :
    (raiseFault k v s).enc = s.enc := rfl
@[simp] theorem raiseFault_dec (k : FaultKind) (v : Code) (s : State) :
    (raiseFault k v s).dec = s.dec := rfl
@[simp] theorem raiseFault_mem (k : FaultKind) (v : Code) (s : State) :
    (raiseFault k v s).mem = s.mem := rfl
@[simp] theorem raiseFault_cnt (k : FaultKind) (v : Code) (s : State) :
    (raiseFault k v s).cnt = s.cnt := rfl
@[simp] theorem raiseFault_err (k : FaultKind) (v : Code) (s : State) :
    (raiseFault k v s).err = { cause := k.cause, detail := k.detail, cw := v, n := s.wid.n } := rfl
@[simp] theorem raiseFault_port (k : FaultKind) (v : Code) (s : State) :
    (raiseFault k v s).port = s.port := rfl
@[simp] theorem raiseFault_host (k : FaultKind) (v : Code) (s : State) :
    (raiseFault k v s).host = s.host := rfl
@[simp] theorem raiseFault_ratioArith (k : FaultKind) (v : Code) (s : State) :
    (raiseFault k v s).ratioArith = s.ratioArith := rfl

/-! ### skipByte -/

@[simp] theorem skipByte_ctl (s : State) : (skipByte s).ctl = s.ctl := rfl
@[simp] theorem skipByte_wid (s : State) : (skipByte s).wid = s.wid := rfl
@[simp] theorem skipByte_arb (s : State) : (skipByte s).arb = s.arb := rfl
@[simp] theorem skipByte_enc (s : State) : (skipByte s).enc = s.enc := rfl
@[simp] theorem skipByte_dec (s : State) : (skipByte s).dec = s.dec := rfl
@[simp] theorem skipByte_mem (s : State) : (skipByte s).mem = s.mem := rfl
@[simp] theorem skipByte_cnt (s : State) : (skipByte s).cnt = s.cnt := rfl
@[simp] theorem skipByte_err (s : State) : (skipByte s).err = s.err := rfl
@[simp] theorem skipByte_port (s : State) :
    (skipByte s).port = { s.port with ip := s.port.ip + 1 } := rfl
@[simp] theorem skipByte_host (s : State) : (skipByte s).host = s.host := rfl
@[simp] theorem skipByte_ratioArith (s : State) : (skipByte s).ratioArith = s.ratioArith := rfl

/-! ### bitWrite -/

@[simp] theorem bitWrite_ctl (v w : Nat) (s : State) : (bitWrite v w s).ctl = s.ctl := rfl
@[simp] theorem bitWrite_wid (v w : Nat) (s : State) : (bitWrite v w s).wid = s.wid := rfl
@[simp] theorem bitWrite_arb (v w : Nat) (s : State) : (bitWrite v w s).arb = s.arb := rfl
@[simp] theorem bitWrite_enc (v w : Nat) (s : State) : (bitWrite v w s).enc = s.enc := rfl
@[simp] theorem bitWrite_dec (v w : Nat) (s : State) : (bitWrite v w s).dec = s.dec := rfl
@[simp] theorem bitWrite_mem (v w : Nat) (s : State) : (bitWrite v w s).mem = s.mem := rfl
@[simp] theorem bitWrite_cnt (v w : Nat) (s : State) : (bitWrite v w s).cnt = s.cnt := rfl
@[simp] theorem bitWrite_err (v w : Nat) (s : State) : (bitWrite v w s).err = s.err := rfl
@[simp] theorem bitWrite_port (v w : Nat) (s : State) :
    (bitWrite v w s).port = { s.port with ob := s.port.ob ++ bitsOf v w } := rfl
@[simp] theorem bitWrite_host (v w : Nat) (s : State) : (bitWrite v w s).host = s.host := rfl
@[simp] theorem bitWrite_ratioArith (v w : Nat) (s : State) :
    (bitWrite v w s).ratioArith = s.ratioArith := rfl

/-! ### bytesWrite -/

@[simp] theorem bytesWrite_ctl (bs : List Byte) (s : State) : (bytesWrite bs s).ctl = s.ctl := rfl
@[simp] theorem bytesWrite_wid (bs : List Byte) (s : State) : (bytesWrite bs s).wid = s.wid := rfl
@[simp] theorem bytesWrite_arb (bs : List Byte) (s : State) : (bytesWrite bs s).arb = s.arb := rfl
@[simp] theorem bytesWrite_enc (bs : List Byte) (s : State) : (bytesWrite bs s).enc = s.enc := rfl
@[simp] theorem bytesWrite_dec (bs : List Byte) (s : State) : (bytesWrite bs s).dec = s.dec := rfl
@[simp] theorem bytesWrite_mem (bs : List Byte) (s : State) : (bytesWrite bs s).mem = s.mem := rfl
@[simp] theorem bytesWrite_cnt (bs : List Byte) (s : State) : (bytesWrite bs s).cnt = s.cnt := rfl
@[simp] theorem bytesWrite_err (bs : List Byte) (s : State) : (bytesWrite bs s).err = s.err := rfl
@[simp] theorem bytesWrite_port (bs : List Byte) (s : State) :
    (bytesWrite bs s).port = { s.port with ob := s.port.ob ++ bytesBits bs } := rfl
@[simp] theorem bytesWrite_host (bs : List Byte) (s : State) :
    (bytesWrite bs s).host = s.host := rfl
@[simp] theorem bytesWrite_ratioArith (bs : List Byte) (s : State) :
    (bytesWrite bs s).ratioArith = s.ratioArith := rfl

/-! ### skipBits -/

@[simp] theorem skipBits_ctl (w : Nat) (s : State) : (skipBits w s).ctl = s.ctl := rfl
@[simp] theorem skipBits_wid (w : Nat) (s : State) : (skipBits w s).wid = s.wid := rfl
@[simp] theorem skipBits_arb (w : Nat) (s : State) : (skipBits w s).arb = s.arb := rfl
@[simp] theorem skipBits_enc (w : Nat) (s : State) : (skipBits w s).enc = s.enc := rfl
@[simp] theorem skipBits_dec (w : Nat) (s : State) : (skipBits w s).dec = s.dec := rfl
@[simp] theorem skipBits_mem (w : Nat) (s : State) : (skipBits w s).mem = s.mem := rfl
@[simp] theorem skipBits_cnt (w : Nat) (s : State) : (skipBits w s).cnt = s.cnt := rfl
@[simp] theorem skipBits_err (w : Nat) (s : State) : (skipBits w s).err = s.err := rfl
@[simp] theorem skipBits_port (w : Nat) (s : State) :
    (skipBits w s).port = { s.port with bp := s.port.bp + w } := rfl
@[simp] theorem skipBits_host (w : Nat) (s : State) : (skipBits w s).host = s.host := rfl
@[simp] theorem skipBits_ratioArith (w : Nat) (s : State) :
    (skipBits w s).ratioArith = s.ratioArith := rfl

/-! ### countCode -/

@[simp] theorem countCode_ctl (s : State) : (countCode s).ctl = s.ctl := rfl
@[simp] theorem countCode_wid (s : State) : (countCode s).wid = s.wid := rfl
@[simp] theorem countCode_arb (s : State) : (countCode s).arb = s.arb := rfl
@[simp] theorem countCode_enc (s : State) : (countCode s).enc = s.enc := rfl
@[simp] theorem countCode_dec (s : State) : (countCode s).dec = s.dec := rfl
@[simp] theorem countCode_mem (s : State) : (countCode s).mem = s.mem := rfl
@[simp] theorem countCode_cnt (s : State) :
    (countCode s).cnt = { s.cnt with cwCount := s.cnt.cwCount + 1 } := rfl
@[simp] theorem countCode_err (s : State) : (countCode s).err = s.err := rfl
@[simp] theorem countCode_port (s : State) : (countCode s).port = s.port := rfl
@[simp] theorem countCode_host (s : State) : (countCode s).host = s.host := rfl
@[simp] theorem countCode_ratioArith (s : State) : (countCode s).ratioArith = s.ratioArith := rfl

/-! ### writeCode -/

@[simp] theorem writeCode_ctl (v : Nat) (s : State) : (writeCode v s).ctl = s.ctl := rfl
@[simp] theorem writeCode_wid (v : Nat) (s : State) : (writeCode v s).wid = s.wid := rfl
@[simp] theorem writeCode_arb (v : Nat) (s : State) : (writeCode v s).arb = s.arb := rfl
@[simp] theorem writeCode_enc (v : Nat) (s : State) : (writeCode v s).enc = s.enc := rfl
@[simp] theorem writeCode_dec (v : Nat) (s : State) : (writeCode v s).dec = s.dec := rfl
@[simp] theorem writeCode_mem (v : Nat) (s : State) : (writeCode v s).mem = s.mem := rfl
@[simp] theorem writeCode_cnt (v : Nat) (s : State) :
    (writeCode v s).cnt = { s.cnt with cwCount := s.cnt.cwCount + 1 } := rfl
@[simp] theorem writeCode_err (v : Nat) (s : State) : (writeCode v s).err = s.err := rfl
@[simp] theorem writeCode_port (v : Nat) (s : State) :
    (writeCode v s).port = { s.port with ob := s.port.ob ++ bitsOf v s.wid.w.toNat } := rfl
@[simp] theorem writeCode_host (v : Nat) (s : State) : (writeCode v s).host = s.host := rfl
@[simp] theorem writeCode_ratioArith (v : Nat) (s : State) :
    (writeCode v s).ratioArith = s.ratioArith := rfl

/-! ### takeCode -/

@[simp] theorem takeCode_ctl (cw : Code) (s : State) : (takeCode cw s).ctl = s.ctl := rfl
@[simp] theorem takeCode_wid (cw : Code) (s : State) : (takeCode cw s).wid = s.wid := rfl
@[simp] theorem takeCode_arb (cw : Code) (s : State) : (takeCode cw s).arb = s.arb := rfl
@[simp] theorem takeCode_enc (cw : Code) (s : State) : (takeCode cw s).enc = s.enc := rfl
@[simp] theorem takeCode_dec (cw : Code) (s : State) :
    (takeCode cw s).dec = { s.dec with cw := cw } := rfl
@[simp] theorem takeCode_mem (cw : Code) (s : State) : (takeCode cw s).mem = s.mem := rfl
@[simp] theorem takeCode_cnt (cw : Code) (s : State) :
    (takeCode cw s).cnt = { s.cnt with cwCount := s.cnt.cwCount + 1 } := rfl
@[simp] theorem takeCode_err (cw : Code) (s : State) : (takeCode cw s).err = s.err := rfl
@[simp] theorem takeCode_port (cw : Code) (s : State) :
    (takeCode cw s).port = { s.port with bp := s.port.bp + s.wid.w.toNat } := rfl
@[simp] theorem takeCode_host (cw : Code) (s : State) : (takeCode cw s).host = s.host := rfl
@[simp] theorem takeCode_ratioArith (cw : Code) (s : State) :
    (takeCode cw s).ratioArith = s.ratioArith := rfl

/-! ### grow -/

@[simp] theorem grow_ctl (s : State) : (grow s).ctl = s.ctl := rfl
@[simp] theorem grow_wid (s : State) :
    (grow s).wid = { s.wid with w := s.wid.w + 1, l := 2 * s.wid.l } := rfl
@[simp] theorem grow_arb (s : State) : (grow s).arb = s.arb := rfl
@[simp] theorem grow_enc (s : State) : (grow s).enc = s.enc := rfl
@[simp] theorem grow_dec (s : State) : (grow s).dec = s.dec := rfl
@[simp] theorem grow_mem (s : State) : (grow s).mem = s.mem := rfl
@[simp] theorem grow_cnt (s : State) : (grow s).cnt = s.cnt := rfl
@[simp] theorem grow_err (s : State) : (grow s).err = s.err := rfl
@[simp] theorem grow_port (s : State) : (grow s).port = s.port := rfl
@[simp] theorem grow_host (s : State) : (grow s).host = s.host := rfl
@[simp] theorem grow_ratioArith (s : State) : (grow s).ratioArith = s.ratioArith := rfl

/-! ### bumpN -/

@[simp] theorem bumpN_ctl (s : State) : (bumpN s).ctl = s.ctl := rfl
@[simp] theorem bumpN_wid (s : State) : (bumpN s).wid = { s.wid with n := s.wid.n + 1 } := rfl
@[simp] theorem bumpN_arb (s : State) : (bumpN s).arb = s.arb := rfl
@[simp] theorem bumpN_enc (s : State) : (bumpN s).enc = s.enc := rfl
@[simp] theorem bumpN_dec (s : State) : (bumpN s).dec = s.dec := rfl
@[simp] theorem bumpN_mem (s : State) : (bumpN s).mem = s.mem := rfl
@[simp] theorem bumpN_cnt (s : State) : (bumpN s).cnt = s.cnt := rfl
@[simp] theorem bumpN_err (s : State) : (bumpN s).err = s.err := rfl
@[simp] theorem bumpN_port (s : State) : (bumpN s).port = s.port := rfl
@[simp] theorem bumpN_host (s : State) : (bumpN s).host = s.host := rfl
@[simp] theorem bumpN_ratioArith (s : State) : (bumpN s).ratioArith = s.ratioArith := rfl

/-! ### capture -/

@[simp] theorem capture_ctl (s : State) : (capture s).ctl = s.ctl := rfl
@[simp] theorem capture_wid (s : State) : (capture s).wid = s.wid := rfl
@[simp] theorem capture_arb (s : State) :
    (capture s).arb = { s.arb with baseNum := s.arb.accNum, baseDen := s.arb.accDen, baseValid := true } := rfl
@[simp] theorem capture_enc (s : State) : (capture s).enc = s.enc := rfl
@[simp] theorem capture_dec (s : State) : (capture s).dec = s.dec := rfl
@[simp] theorem capture_mem (s : State) : (capture s).mem = s.mem := rfl
@[simp] theorem capture_cnt (s : State) : (capture s).cnt = s.cnt := rfl
@[simp] theorem capture_err (s : State) : (capture s).err = s.err := rfl
@[simp] theorem capture_port (s : State) : (capture s).port = s.port := rfl
@[simp] theorem capture_host (s : State) : (capture s).host = s.host := rfl
@[simp] theorem capture_ratioArith (s : State) : (capture s).ratioArith = s.ratioArith := rfl

/-! ### insertKey -/

@[simp] theorem insertKey_ctl (s : State) : (insertKey s).ctl = s.ctl := rfl
@[simp] theorem insertKey_wid (s : State) :
    (insertKey s).wid = { s.wid with n := s.wid.n + 1 } := rfl
@[simp] theorem insertKey_arb (s : State) : (insertKey s).arb = s.arb := rfl
@[simp] theorem insertKey_enc (s : State) : (insertKey s).enc = s.enc := rfl
@[simp] theorem insertKey_dec (s : State) : (insertKey s).dec = s.dec := rfl
@[simp] theorem insertKey_mem (s : State) :
    (insertKey s).mem = dictInsert s.mem s.enc.cur s.enc.nxt (s.wid.n.setWidth 16) := rfl
@[simp] theorem insertKey_cnt (s : State) : (insertKey s).cnt = s.cnt := rfl
@[simp] theorem insertKey_err (s : State) : (insertKey s).err = s.err := rfl
@[simp] theorem insertKey_port (s : State) : (insertKey s).port = s.port := rfl
@[simp] theorem insertKey_host (s : State) : (insertKey s).host = s.host := rfl
@[simp] theorem insertKey_ratioArith (s : State) : (insertKey s).ratioArith = s.ratioArith := rfl

/-! ### restartMatch -/

@[simp] theorem restartMatch_ctl (s : State) : (restartMatch s).ctl = s.ctl := rfl
@[simp] theorem restartMatch_wid (s : State) : (restartMatch s).wid = s.wid := rfl
@[simp] theorem restartMatch_arb (s : State) : (restartMatch s).arb = s.arb := rfl
@[simp] theorem restartMatch_enc (s : State) :
    (restartMatch s).enc = { s.enc with cur := s.enc.nxt.setWidth 16, curLen := 1 } := rfl
@[simp] theorem restartMatch_dec (s : State) : (restartMatch s).dec = s.dec := rfl
@[simp] theorem restartMatch_mem (s : State) : (restartMatch s).mem = s.mem := rfl
@[simp] theorem restartMatch_cnt (s : State) : (restartMatch s).cnt = s.cnt := rfl
@[simp] theorem restartMatch_err (s : State) : (restartMatch s).err = s.err := rfl
@[simp] theorem restartMatch_port (s : State) : (restartMatch s).port = s.port := rfl
@[simp] theorem restartMatch_host (s : State) : (restartMatch s).host = s.host := rfl
@[simp] theorem restartMatch_ratioArith (s : State) :
    (restartMatch s).ratioArith = s.ratioArith := rfl

/-! ### insertEntry -/

@[simp] theorem insertEntry_ctl (e : TabEntry) (s : State) : (insertEntry e s).ctl = s.ctl := rfl
@[simp] theorem insertEntry_wid (e : TabEntry) (s : State) :
    (insertEntry e s).wid = { s.wid with n := s.wid.n + 1 } := rfl
@[simp] theorem insertEntry_arb (e : TabEntry) (s : State) : (insertEntry e s).arb = s.arb := rfl
@[simp] theorem insertEntry_enc (e : TabEntry) (s : State) : (insertEntry e s).enc = s.enc := rfl
@[simp] theorem insertEntry_dec (e : TabEntry) (s : State) : (insertEntry e s).dec = s.dec := rfl
@[simp] theorem insertEntry_mem (e : TabEntry) (s : State) :
    (insertEntry e s).mem = tabWrite s.mem (s.wid.n.setWidth 16) e := rfl
@[simp] theorem insertEntry_cnt (e : TabEntry) (s : State) : (insertEntry e s).cnt = s.cnt := rfl
@[simp] theorem insertEntry_err (e : TabEntry) (s : State) : (insertEntry e s).err = s.err := rfl
@[simp] theorem insertEntry_port (e : TabEntry) (s : State) : (insertEntry e s).port = s.port := rfl
@[simp] theorem insertEntry_host (e : TabEntry) (s : State) : (insertEntry e s).host = s.host := rfl
@[simp] theorem insertEntry_ratioArith (e : TabEntry) (s : State) :
    (insertEntry e s).ratioArith = s.ratioArith := rfl

/-! ### openPorts -/

@[simp] theorem openPorts_ctl (s : State) : (openPorts s).ctl = s.ctl := rfl
@[simp] theorem openPorts_wid (s : State) : (openPorts s).wid = s.wid := rfl
@[simp] theorem openPorts_arb (s : State) : (openPorts s).arb = s.arb := rfl
@[simp] theorem openPorts_enc (s : State) : (openPorts s).enc = s.enc := rfl
@[simp] theorem openPorts_dec (s : State) : (openPorts s).dec = s.dec := rfl
@[simp] theorem openPorts_mem (s : State) : (openPorts s).mem = s.mem := rfl
@[simp] theorem openPorts_cnt (s : State) : (openPorts s).cnt = s.cnt := rfl
@[simp] theorem openPorts_err (s : State) : (openPorts s).err = s.err := rfl
@[simp] theorem openPorts_port (s : State) :
    (openPorts s).port = { s.port with ip := 0, bp := 0, ob := [], closed := false } := rfl
@[simp] theorem openPorts_host (s : State) : (openPorts s).host = s.host := rfl
@[simp] theorem openPorts_ratioArith (s : State) : (openPorts s).ratioArith = s.ratioArith := rfl

/-! ### pollStatus -/

@[simp] theorem pollStatus_ctl (s : State) : (pollStatus s).ctl = s.ctl := rfl
@[simp] theorem pollStatus_wid (s : State) : (pollStatus s).wid = s.wid := rfl
@[simp] theorem pollStatus_arb (s : State) : (pollStatus s).arb = s.arb := rfl
@[simp] theorem pollStatus_enc (s : State) : (pollStatus s).enc = s.enc := rfl
@[simp] theorem pollStatus_dec (s : State) : (pollStatus s).dec = s.dec := rfl
@[simp] theorem pollStatus_mem (s : State) : (pollStatus s).mem = s.mem := rfl
@[simp] theorem pollStatus_cnt (s : State) : (pollStatus s).cnt = s.cnt := rfl
@[simp] theorem pollStatus_err (s : State) : (pollStatus s).err = s.err := rfl
@[simp] theorem pollStatus_port (s : State) : (pollStatus s).port = s.port := rfl
@[simp] theorem pollStatus_host (s : State) :
    (pollStatus s).host = { s.host with rdata := csrStatus s } := rfl
@[simp] theorem pollStatus_ratioArith (s : State) : (pollStatus s).ratioArith = s.ratioArith := rfl

/-! ### pushAction -/

@[simp] theorem pushAction_ctl (a : HostAction) (s : State) : (pushAction a s).ctl = s.ctl := rfl
@[simp] theorem pushAction_wid (a : HostAction) (s : State) : (pushAction a s).wid = s.wid := rfl
@[simp] theorem pushAction_arb (a : HostAction) (s : State) : (pushAction a s).arb = s.arb := rfl
@[simp] theorem pushAction_enc (a : HostAction) (s : State) : (pushAction a s).enc = s.enc := rfl
@[simp] theorem pushAction_dec (a : HostAction) (s : State) : (pushAction a s).dec = s.dec := rfl
@[simp] theorem pushAction_mem (a : HostAction) (s : State) : (pushAction a s).mem = s.mem := rfl
@[simp] theorem pushAction_cnt (a : HostAction) (s : State) : (pushAction a s).cnt = s.cnt := rfl
@[simp] theorem pushAction_err (a : HostAction) (s : State) : (pushAction a s).err = s.err := rfl
@[simp] theorem pushAction_port (a : HostAction) (s : State) : (pushAction a s).port = s.port := rfl
@[simp] theorem pushAction_host (a : HostAction) (s : State) :
    (pushAction a s).host = { s.host with pending := a :: s.host.pending } := rfl
@[simp] theorem pushAction_ratioArith (a : HostAction) (s : State) :
    (pushAction a s).ratioArith = s.ratioArith := rfl

/-! ### hardwareReset -/

@[simp] theorem hardwareReset_ctl (s : State) : (hardwareReset s).ctl = State.reset.ctl := rfl
@[simp] theorem hardwareReset_wid (s : State) :
    (hardwareReset s).wid = { w := 9, l := 512, n := 257 } := rfl
@[simp] theorem hardwareReset_arb (s : State) :
    (hardwareReset s).arb = { accNum := 0, accDen := 0, baseValid := false, baseNum := 0, baseDen := 0 } := rfl
@[simp] theorem hardwareReset_enc (s : State) : (hardwareReset s).enc = s.enc := rfl
@[simp] theorem hardwareReset_dec (s : State) : (hardwareReset s).dec = s.dec := rfl
@[simp] theorem hardwareReset_mem (s : State) : (hardwareReset s).mem = s.mem := rfl
@[simp] theorem hardwareReset_cnt (s : State) :
    (hardwareReset s).cnt = { gen := 0, cwCount := 0 } := rfl
@[simp] theorem hardwareReset_err (s : State) :
    (hardwareReset s).err = { cause := 0, detail := 0, cw := 0, n := 0 } := rfl
@[simp] theorem hardwareReset_port (s : State) : (hardwareReset s).port = s.port := rfl
@[simp] theorem hardwareReset_host (s : State) : (hardwareReset s).host = s.host := rfl
@[simp] theorem hardwareReset_ratioArith (s : State) :
    (hardwareReset s).ratioArith = s.ratioArith := rfl

/-! ### closeOut -/

@[simp] theorem closeOut_ctl (s : State) : (closeOut s).ctl = s.ctl := rfl
@[simp] theorem closeOut_wid (s : State) : (closeOut s).wid = s.wid := rfl
@[simp] theorem closeOut_arb (s : State) : (closeOut s).arb = s.arb := rfl
@[simp] theorem closeOut_enc (s : State) : (closeOut s).enc = s.enc := rfl
@[simp] theorem closeOut_dec (s : State) : (closeOut s).dec = s.dec := rfl
@[simp] theorem closeOut_mem (s : State) : (closeOut s).mem = s.mem := rfl
@[simp] theorem closeOut_cnt (s : State) : (closeOut s).cnt = s.cnt := rfl
@[simp] theorem closeOut_err (s : State) : (closeOut s).err = s.err := rfl
@[simp] theorem closeOut_port (s : State) :
    (closeOut s).port = { s.port with
      ob := s.port.ob ++ List.replicate ((8 - s.port.ob.length % 8) % 8) false, closed := true } := rfl
@[simp] theorem closeOut_host (s : State) : (closeOut s).host = s.host := rfl
@[simp] theorem closeOut_ratioArith (s : State) : (closeOut s).ratioArith = s.ratioArith := rfl

/-! ### reinit -/

@[simp] theorem reinit_ctl (s : State) : (reinit s).ctl = s.ctl := rfl
@[simp] theorem reinit_wid (s : State) : (reinit s).wid = { w := 9, l := 512, n := 257 } := rfl
@[simp] theorem reinit_arb (s : State) :
    (reinit s).arb = { accNum := 0, accDen := 0, baseValid := false, baseNum := 0, baseDen := 0 } := rfl
@[simp] theorem reinit_enc (s : State) : (reinit s).enc = s.enc := rfl
@[simp] theorem reinit_dec (s : State) : (reinit s).dec = s.dec := rfl
@[simp] theorem reinit_mem (s : State) :
    (reinit s).mem = (match s.ctl.side with
      | .enc => dictClear s.mem
      | .dec => s.mem) := rfl
@[simp] theorem reinit_cnt (s : State) : (reinit s).cnt = { s.cnt with gen := s.cnt.gen + 1 } := rfl
@[simp] theorem reinit_err (s : State) : (reinit s).err = s.err := rfl
@[simp] theorem reinit_port (s : State) : (reinit s).port = s.port := rfl
@[simp] theorem reinit_host (s : State) : (reinit s).host = s.host := rfl
@[simp] theorem reinit_ratioArith (s : State) : (reinit s).ratioArith = s.ratioArith := rfl

/-! ### clearForStart -/

@[simp] theorem clearForStart_ctl (s : State) :
    (clearForStart s).ctl = { s.ctl with done := false, error := false } := rfl
@[simp] theorem clearForStart_wid (s : State) :
    (clearForStart s).wid = { w := 9, l := 512, n := 257 } := rfl
@[simp] theorem clearForStart_arb (s : State) :
    (clearForStart s).arb = { accNum := 0, accDen := 0, baseValid := false, baseNum := 0, baseDen := 0 } := rfl
@[simp] theorem clearForStart_enc (s : State) : (clearForStart s).enc = s.enc := rfl
@[simp] theorem clearForStart_dec (s : State) : (clearForStart s).dec = s.dec := rfl
@[simp] theorem clearForStart_mem (s : State) : (clearForStart s).mem = s.mem := rfl
@[simp] theorem clearForStart_cnt (s : State) :
    (clearForStart s).cnt = { gen := 0, cwCount := 0 } := rfl
@[simp] theorem clearForStart_err (s : State) :
    (clearForStart s).err = { cause := 0, detail := 0, cw := 0, n := 0 } := rfl
@[simp] theorem clearForStart_port (s : State) : (clearForStart s).port = s.port := rfl
@[simp] theorem clearForStart_host (s : State) : (clearForStart s).host = s.host := rfl
@[simp] theorem clearForStart_ratioArith (s : State) :
    (clearForStart s).ratioArith = s.ratioArith := rfl

end Sys2Proof.Machine
end

