-- ==== Sys2Proof/Laws/Store.lean ====
section
/-! SUPPORT. What the stores do: reading after a write or an erasure, the canonical form kept by
every operation, and the code table and dictionary over them. -/

namespace Sys2Proof.Machine

variable {α : Type}

/-! ### Sorted lists -/

theorem storeSortedFrom_mono {lo lo' : Nat} (h : lo' ≤ lo) :
    ∀ {m : List (Nat × α)}, storeSortedFrom lo m = true → storeSortedFrom lo' m = true
  | [], _ => rfl
  | (k, _) :: rest, hm => by
    simp only [storeSortedFrom, Bool.and_eq_true, decide_eq_true_eq] at hm ⊢
    exact ⟨by omega, hm.2⟩

/-- Below the lower bound of a sorted list nothing is listed. -/
theorem storeGet_below {lo key : Nat} (h : key < lo) :
    ∀ {m : List (Nat × α)}, storeSortedFrom lo m = true → storeGet m key = none
  | [], _ => rfl
  | (k, _) :: rest, hm => by
    simp only [storeSortedFrom, Bool.and_eq_true, decide_eq_true_eq] at hm
    have hk : key ≠ k := by omega
    simp only [storeGet, hk, if_false]
    exact storeGet_below (lo := k + 1) (by omega) hm.2

theorem storeGet_put_same (key : Nat) (v : α) :
    ∀ m : List (Nat × α), storeGet (storePut m key v) key = some v
  | [] => by simp [storePut, storeGet]
  | (k, w) :: rest => by
    unfold storePut
    split
    · simp [storeGet]
    · split
      · simp [storeGet]
      · rename_i h1 h2
        simp only [storeGet, h2, if_false]
        exact storeGet_put_same key v rest

theorem storeGet_put_other {key key' : Nat} (h : key' ≠ key) (v : α) :
    ∀ m : List (Nat × α), storeGet (storePut m key v) key' = storeGet m key'
  | [] => by simp [storePut, storeGet, h]
  | (k, w) :: rest => by
    unfold storePut
    split
    · simp [storeGet, h]
    · split
      · rename_i h1 h2
        subst h2
        simp [storeGet, h]
      · simp only [storeGet]
        rw [storeGet_put_other h v rest]

theorem storeGet_put (m : List (Nat × α)) (key key' : Nat) (v : α) :
    storeGet (storePut m key v) key' = if key' = key then some v else storeGet m key' := by
  split
  · subst_vars; exact storeGet_put_same _ _ _
  · exact storeGet_put_other ‹_› _ _

theorem storeGet_erase_same {key : Nat} :
    ∀ {lo : Nat} {m : List (Nat × α)}, storeSortedFrom lo m = true →
      storeGet (storeErase m key) key = none
  | _, [], _ => rfl
  | _, (k, w) :: rest, hm => by
    simp only [storeSortedFrom, Bool.and_eq_true, decide_eq_true_eq] at hm
    unfold storeErase
    split
    · subst_vars; exact storeGet_below (Nat.lt_succ_self _) hm.2
    · rename_i h
      simp only [storeGet, h, if_false]
      exact storeGet_erase_same hm.2

theorem storeGet_erase_other {key key' : Nat} (h : key' ≠ key) :
    ∀ m : List (Nat × α), storeGet (storeErase m key) key' = storeGet m key'
  | [] => rfl
  | (k, w) :: rest => by
    unfold storeErase
    split
    · rename_i hk
      subst hk
      simp [storeGet, h]
    · simp only [storeGet]
      rw [storeGet_erase_other h rest]

theorem storeSorted_put {key : Nat} (v : α) :
    ∀ {lo : Nat} {m : List (Nat × α)}, lo ≤ key → storeSortedFrom lo m = true →
      storeSortedFrom lo (storePut m key v) = true
  | _, [], h, _ => by simp [storePut, storeSortedFrom, h]
  | lo, (k, w) :: rest, h, hm => by
    simp only [storeSortedFrom, Bool.and_eq_true, decide_eq_true_eq] at hm
    unfold storePut
    split
    · rename_i h1
      simp only [storeSortedFrom, Bool.and_eq_true, decide_eq_true_eq]
      exact ⟨h, by omega, hm.2⟩
    · split
      · subst_vars
        simp only [storeSortedFrom, Bool.and_eq_true, decide_eq_true_eq]
        exact ⟨hm.1, hm.2⟩
      · simp only [storeSortedFrom, Bool.and_eq_true, decide_eq_true_eq]
        exact ⟨hm.1, storeSorted_put v (by omega) hm.2⟩

theorem storeSorted_erase {key : Nat} :
    ∀ {lo : Nat} {m : List (Nat × α)}, storeSortedFrom lo m = true →
      storeSortedFrom lo (storeErase m key) = true
  | _, [], _ => rfl
  | lo, (k, w) :: rest, hm => by
    simp only [storeSortedFrom, Bool.and_eq_true, decide_eq_true_eq] at hm
    unfold storeErase
    split
    · exact storeSortedFrom_mono (by omega) hm.2
    · simp only [storeSortedFrom, Bool.and_eq_true, decide_eq_true_eq]
      exact ⟨hm.1, storeSorted_erase hm.2⟩

/-- Every pair of a list after a put is the new pair or an old one. -/
theorem mem_storePut {c : Nat × α} {key : Nat} {v : α} :
    ∀ {m : List (Nat × α)}, c ∈ storePut m key v → c = (key, v) ∨ c ∈ m
  | [], h => by simpa [storePut] using h
  | (k, w) :: rest, h => by
    unfold storePut at h
    split at h
    · simpa using h
    · split at h
      · rcases List.mem_cons.mp h with h | h
        · exact .inl h
        · exact .inr (List.mem_cons_of_mem _ h)
      · rcases List.mem_cons.mp h with h | h
        · exact .inr (by simp [h])
        · rcases mem_storePut h with h | h
          · exact .inl h
          · exact .inr (List.mem_cons_of_mem _ h)

theorem mem_storeErase {c : Nat × α} {key : Nat} :
    ∀ {m : List (Nat × α)}, c ∈ storeErase m key → c ∈ m
  | [], h => h
  | (k, w) :: rest, h => by
    unfold storeErase at h
    split at h
    · exact List.mem_cons_of_mem _ h
    · rcases List.mem_cons.mp h with h | h
      · simp [h]
      · exact List.mem_cons_of_mem _ (mem_storeErase h)

/-- A value read is listed. -/
theorem mem_of_storeGet {key : Nat} {v : α} :
    ∀ {m : List (Nat × α)}, storeGet m key = some v → (key, v) ∈ m
  | [], h => by simp [storeGet] at h
  | (k, w) :: rest, h => by
    unfold storeGet at h
    split at h
    · subst_vars; simp_all
    · exact List.mem_cons_of_mem _ (mem_of_storeGet h)

/-! ### The code table -/

theorem tabRead_hardwired (m : Memory) {j : Code} (h : j.toNat < 256) :
    tabRead m j = { prefixCode := 0, suffix := j.setWidth 8, first := j.setWidth 8, len := 1 } := by
  simp [tabRead, h]

@[simp] theorem tabWrite_dict (m : Memory) (j : Code) (e : TabEntry) :
    (tabWrite m j e).dict = m.dict := by
  unfold tabWrite
  split <;> [rfl; (split <;> rfl)]

/-- Reading the code table after a write (R301, R303; the hardwired entries keep their value). -/
theorem tabRead_tabWrite {m : Memory} (hm : m.wf = true) (j j' : Code) (e : TabEntry) :
    tabRead (tabWrite m j e) j' = if j' = j ∧ 256 ≤ j.toNat then e else tabRead m j' := by
  have hs : storeSortedFrom 256 m.tab = true := by
    simp only [Memory.wf, tabWf, Bool.and_eq_true] at hm; exact hm.1.1
  by_cases hj : j.toNat < 256
  · have : ¬ (j' = j ∧ 256 ≤ j.toNat) := by omega
    simp [tabWrite, hj, this]
  · by_cases hj' : j'.toNat < 256
    · have : ¬ (j' = j ∧ 256 ≤ j.toNat) := by rintro ⟨rfl, -⟩; omega
      simp [tabRead, hj', this]
    · by_cases he : j' = j
      · subst he
        have hge : 256 ≤ j'.toNat := by omega
        by_cases hb : e = tabBlank
        · simp [tabRead, tabWrite, hj', hb, storeGet_erase_same hs, hge]
        · simp [tabRead, tabWrite, hj', hb, storeGet_put_same, hge]
      · have hne : j'.toNat ≠ j.toNat := fun h => he (BitVec.eq_of_toNat_eq h)
        by_cases hb : e = tabBlank
        · simp [tabRead, tabWrite, hj, hj', hb, storeGet_erase_other hne, he]
        · simp [tabRead, tabWrite, hj, hj', hb, storeGet_put_other hne, he]

/-- A code-table write keeps the canonical form. -/
theorem tabWrite_wf {m : Memory} (hm : m.wf = true) (j : Code) (e : TabEntry) :
    (tabWrite m j e).wf = true := by
  have hj : j.toNat < 65536 := j.isLt
  by_cases h1 : j.toNat < 256
  · simpa [tabWrite, h1] using hm
  · simp only [Memory.wf, tabWf, Bool.and_eq_true, List.all_eq_true, decide_eq_true_eq] at hm ⊢
    obtain ⟨⟨hs, ha⟩, hd⟩ := hm
    refine ⟨?_, by simpa using hd⟩
    by_cases hb : e = tabBlank
    · simp only [tabWrite, h1, hb, if_true, if_false]
      exact ⟨storeSorted_erase hs, fun c hc => ha c (mem_storeErase hc)⟩
    · simp only [tabWrite, h1, hb, if_false]
      refine ⟨storeSorted_put e (by omega) hs, fun c hc => ?_⟩
      rcases mem_storePut hc with rfl | hc
      · exact ⟨by simpa [Config.tableDepth] using hj, hb⟩
      · exact ha c hc

/-! ### The dictionary -/

theorem dictKey_inj {p p' : Code} {b b' : Byte} :
    dictKey p b = dictKey p' b' ↔ p = p' ∧ b = b' := by
  constructor
  · intro h
    have hb := b.isLt
    have hb' := b'.isLt
    simp only [dictKey] at h
    exact ⟨BitVec.eq_of_toNat_eq (by omega), BitVec.eq_of_toNat_eq (by omega)⟩
  · rintro ⟨rfl, rfl⟩; rfl

@[simp] theorem dictInsert_tab (m : Memory) (p : Code) (b : Byte) (k : Code) :
    (dictInsert m p b k).tab = m.tab := rfl

@[simp] theorem dictClear_tab (m : Memory) : (dictClear m).tab = m.tab := rfl

@[simp] theorem dictClear_dict (m : Memory) : (dictClear m).dict = [] := rfl

@[simp] theorem tabRead_dictInsert (m : Memory) (p : Code) (b : Byte) (k j : Code) :
    tabRead (dictInsert m p b k) j = tabRead m j := rfl

/-- Looking up after an insertion (R312, R313): the inserted key has the new code, every other key
what it had. -/
theorem dictLookup_dictInsert (m : Memory) (p p' : Code) (b b' : Byte) (k : Code) :
    dictLookup (dictInsert m p b k) p' b' =
      if p' = p ∧ b' = b then some k else dictLookup m p' b' := by
  simp only [dictLookup, dictInsert, storeGet_put, dictKey_inj]

@[simp] theorem dictLookup_dictClear (m : Memory) (p : Code) (b : Byte) :
    dictLookup (dictClear m) p b = none := rfl

theorem dictInsert_wf {m : Memory} (hm : m.wf = true) (p : Code) (b : Byte) (k : Code) :
    (dictInsert m p b k).wf = true := by
  have hp : p.toNat < 65536 := p.isLt
  have hb : b.toNat < 256 := b.isLt
  simp only [Memory.wf, dictWf, dictInsert, Bool.and_eq_true, List.all_eq_true,
    decide_eq_true_eq] at hm ⊢
  obtain ⟨ht, hs, ha⟩ := hm
  refine ⟨ht, storeSorted_put k (Nat.zero_le _) hs, fun c hc => ?_⟩
  rcases mem_storePut hc with rfl | hc
  · simp only [dictKey]; omega
  · exact ha c hc

theorem dictClear_wf {m : Memory} (hm : m.wf = true) : (dictClear m).wf = true := by
  simp only [Memory.wf, Bool.and_eq_true] at hm ⊢
  exact ⟨hm.1, by simp [dictWf, dictClear, storeSortedFrom]⟩

theorem reset_mem_wf : State.reset.mem.wf = true := by decide

end Sys2Proof.Machine
end

