-- ==== Sys2Proof/Laws/Ops.lean ====
section
/-! SUPPORT. One lemma for each shared operation that says everything it can do, for later proofs to
cite instead of unfolding it. -/

namespace Sys2Proof.Machine

/-! ### Flows and guards -/

@[simp] theorem Flow.andThen_cont (s : State) (k : State → Flow) : (Flow.cont s).andThen k = k s := rfl

@[simp] theorem Flow.andThen_raised (s : State) (k : State → Flow) :
    (Flow.raised s).andThen k = .raised s := rfl

@[simp] theorem Flow.outcome_cont (s : State) : (Flow.cont s).outcome = .next s := rfl

@[simp] theorem Flow.outcome_raised (s : State) : (Flow.raised s).outcome = .next s := rfl

/-- A transition's steps always end in a next state. -/
theorem Flow.outcome_next (f : Flow) : ∃ t, f.outcome = .next t := by
  cases f <;> exact ⟨_, rfl⟩

/-- A flow goes on after `andThen` exactly where both parts go on. -/
theorem Flow.andThen_eq_cont {f : Flow} {k : State → Flow} {t : State} :
    f.andThen k = .cont t ↔ ∃ s, f = .cont s ∧ k s = .cont t := by
  cases f <;> simp

/-- A flow is raised after `andThen` where the first part is, or the second. -/
theorem Flow.andThen_eq_raised {f : Flow} {k : State → Flow} {t : State} :
    f.andThen k = .raised t ↔ f = .raised t ∨ ∃ s, f = .cont s ∧ k s = .raised t := by
  cases f <;> simp

theorem Flow.outcome_eq_next {f : Flow} {t : State} :
    f.outcome = .next t ↔ f = .cont t ∨ f = .raised t := by
  cases f <;> simp

@[simp] theorem whenEnabled_true (r : Result) : whenEnabled true r = r := rfl

@[simp] theorem whenEnabled_false (r : Result) : whenEnabled false r = .refused .notEnabled := rfl

/-- A guarded meaning answers a next state exactly where its guard holds and its body does. -/
theorem whenEnabled_eq_next {g : Bool} {r : Result} {t : State} :
    whenEnabled g r = .next t ↔ g = true ∧ r = .next t := by
  cases g <;> simp

/-- A guarded meaning faults exactly where its guard holds and its body does. -/
theorem whenEnabled_eq_fault {g : Bool} {r : Result} {f : Fault} :
    whenEnabled g r = .fault f ↔ g = true ∧ r = .fault f := by
  cases g <;> simp

/-- A guarded next state is refused exactly where the guard fails. -/
theorem whenEnabled_next_ne {g : Bool} {t : State} :
    whenEnabled g (.next t) ≠ .refused .notEnabled ↔ g = true := by
  cases g <;> simp

/-! ### Reading the wire -/

/-- Where enough bits remain, `readCode` hands on the codeword. -/
theorem readCode_some {s : State} {cw : Code} (h : nextCode s = some cw) (k : Code → Result) :
    readCode s k = k cw := by
  simp [readCode, h]

/-- Where they do not, `readCode` raises TRUNCATED (`20_memory.md` R89). -/
theorem readCode_none {s : State} (h : nextCode s = none) (k : Code → Result) :
    readCode s k = .next (raiseFault .truncated 0 s) := by
  simp [readCode, h]

/-- W bits remain exactly where `nextCode` gives a codeword. -/
theorem nextCode_isSome_iff (s : State) :
    (nextCode s).isSome = true ↔ s.port.bp + s.wid.w.toNat ≤ 8 * s.port.inp.length := by
  unfold nextCode nextBits
  split <;> simp_all

theorem nextTag_isSome_iff (s : State) :
    (nextTag s).isSome = true ↔ s.port.bp + 8 ≤ 8 * s.port.inp.length := by
  unfold nextTag nextBits
  split <;> simp_all

/-- A byte remains exactly where the position is inside the input. -/
theorem nextByte_isSome_iff (s : State) :
    (nextByte s).isSome = true ↔ s.port.ip < s.port.inp.length := by
  unfold nextByte
  by_cases h : s.port.ip < s.port.inp.length <;> simp [h]

theorem nextByte_lt {s : State} {b : Byte} (h : nextByte s = some b) :
    s.port.ip < s.port.inp.length := by
  rw [← nextByte_isSome_iff, h]; rfl

/-! ### The policy and the phase codes -/

theorem policyOfTag_tag (p : Policy) : policyOfTag p.tag = some p := by cases p <;> decide

theorem policyOfTag_eq_some {t : Byte} {p : Policy} (h : policyOfTag t = some p) : t = p.tag := by
  revert h
  unfold policyOfTag
  split
  · intro h; cases h; assumption
  · split
    · intro h; cases h; assumption
    · split
      · intro h; cases h; assumption
      · intro h; cases h

theorem phaseOfCode_code (p : Phase) : phaseOfCode p.code = some p := by cases p <;> decide

theorem phaseOfCode_eq_some : ∀ {c : BitVec 5} {p : Phase}, phaseOfCode c = some p → c = p.code := by
  intro c p h
  revert h
  revert c
  cases p <;> decide

/-- The transition table sees ST through its code. -/
theorem decodeFsm_code (v : View) (p : Phase) :
    decode v (.fsm p.code) = decodeFsm v p.code := rfl

/-! ### Checks and the arbiter -/

/-- `checkCounter` goes on unchanged, or raises COUNTER (`60_exceptions.md` R366). -/
theorem checkCounter_cases (s : State) :
    s.wid.n.toNat ≤ s.wid.l.toNat ∧ checkCounter s = .cont s
      ∨ s.wid.l.toNat < s.wid.n.toNat ∧ checkCounter s = .raised (raiseFault .counter 0 s) := by
  unfold checkCounter
  split
  · exact .inr ⟨‹_›, rfl⟩
  · exact .inl ⟨by omega, rfl⟩

/-- `checkValue` goes on unchanged, or raises VALUE (`60_exceptions.md` R366). -/
theorem checkValue_cases (s : State) :
    s.enc.cur.toNat < s.wid.l.toNat ∧ checkValue s = .cont s
      ∨ s.wid.l.toNat ≤ s.enc.cur.toNat ∧ checkValue s = .raised (raiseFault .value s.enc.cur s) := by
  unfold checkValue
  split
  · exact .inr ⟨‹_›, rfl⟩
  · exact .inl ⟨by omega, rfl⟩

/-- What `accumulate` can do (`43_reset_policy.md` R276, R277). -/
theorem accumulate_cases (len w : Nat) (s : State) :
    s.ctl.pol ≠ .monitored ∧ accumulate len w s = .cont s
      ∨ s.ctl.pol = .monitored
        ∧ s.arb.accNum.toNat + 8 * len < 2 ^ 64 ∧ s.arb.accDen.toNat + w < 2 ^ 64
        ∧ (∃ n d : BitVec 64, n.toNat = s.arb.accNum.toNat + 8 * len
            ∧ d.toNat = s.arb.accDen.toNat + w
            ∧ accumulate len w s = .cont { s with arb := { s.arb with accNum := n, accDen := d } })
      ∨ s.ctl.pol = .monitored
        ∧ (2 ^ 64 ≤ s.arb.accNum.toNat + 8 * len
            ∧ accumulate len w s = .raised (raiseFault .accNum 0 s)
          ∨ s.arb.accNum.toNat + 8 * len < 2 ^ 64 ∧ 2 ^ 64 ≤ s.arb.accDen.toNat + w
            ∧ accumulate len w s = .raised (raiseFault .accDen 0 s)) := by
  by_cases hp : s.ctl.pol = .monitored
  · right
    have hb : Config.accBound = 2 ^ 64 := rfl
    unfold accumulate
    rw [if_neg (by simp [hp]), hb]
    by_cases h1 : 2 ^ 64 ≤ s.arb.accNum.toNat + 8 * len
    · exact .inr ⟨hp, .inl ⟨h1, if_pos h1⟩⟩
    · rw [if_neg h1]
      by_cases h2 : 2 ^ 64 ≤ s.arb.accDen.toNat + w
      · exact .inr ⟨hp, .inr ⟨by omega, h2, if_pos h2⟩⟩
      · refine .inl ⟨hp, by omega, by omega, _, _, ?_, ?_, if_neg h2⟩
        · rw [BitVec.toNat_add, BitVec.toNat_ofNat]; omega
        · rw [BitVec.toNat_add, BitVec.toNat_ofNat]; omega
  · exact .inl ⟨hp, if_pos hp⟩

/-- Where a match fits the state `s` a step began in, `accumulate` goes on in the state `u` the step
has reached, with it added at the width `s` had. -/
theorem accumulate_fits {len : Nat} {s u : State} (h : accFits len s = true)
    (hc : u.ctl = s.ctl) (ha : u.arb = s.arb) :
    accumulate len s.wid.w.toNat u = .cont { u with arb := accumulated len s } := by
  unfold accFits at h
  unfold accumulated
  rw [← hc, ← ha] at h ⊢
  rcases accumulate_cases len s.wid.w.toNat u with ⟨hp, h'⟩ | ⟨hp, h1, h2, n, d, hn, hd, h'⟩ |
      ⟨hp, ⟨h1, h'⟩ | ⟨h1, h2, h'⟩⟩
  · simp [hp, h']
  · rw [h', if_pos hp, ← hn, ← hd]
    simp
  · simp [hp] at h; omega
  · simp [hp] at h; omega

/-- The arbiter asks for a reinitialization only under SATURATE, or under MONITORED with a
baseline (`43_reset_policy.md` R271, R272, R274). -/
theorem arbitrate_eq_reinit {s : State} :
    arbitrate s = .reinit ↔ s.ctl.pol = .saturate
      ∨ s.ctl.pol = .monitored ∧ s.arb.baseValid = true ∧ ratioDegraded s = true := by
  unfold arbitrate
  cases h : s.ctl.pol <;> simp

/-- `Arbitrate` leaves every register but the baseline alone (`43_reset_policy.md` R273). -/
theorem afterArbitrate_eq (s : State) :
    afterArbitrate s = { s with arb := (afterArbitrate s).arb } := by
  unfold afterArbitrate
  split <;> rfl

@[simp] theorem afterArbitrate_accNum (s : State) :
    (afterArbitrate s).arb.accNum = s.arb.accNum := by
  unfold afterArbitrate; split <;> rfl

@[simp] theorem afterArbitrate_accDen (s : State) :
    (afterArbitrate s).arb.accDen = s.arb.accDen := by
  unfold afterArbitrate; split <;> rfl

/-- Where the arbiter reinitializes, `Arbitrate` has written nothing. -/
theorem afterArbitrate_of_reinit {s : State} (h : arbitrate s = .reinit) : afterArbitrate s = s := by
  rw [arbitrate_eq_reinit] at h
  unfold afterArbitrate
  rcases h with h | ⟨h, hb, -⟩ <;> simp [h]
  simp [hb]

/-! ### The data steps -/

/-- Under the invariants of `10_state.md` R31, N lies between 257 and 65536. -/
theorem WidthInv.bounds {s : State} (h : WidthInv s) :
    257 ≤ s.wid.n.toNat ∧ s.wid.n.toNat ≤ s.wid.l.toNat ∧ s.wid.l.toNat ≤ 65536 := by
  refine ⟨h.n_min, h.n_max, ?_⟩
  rw [h.l_pow]
  calc 2 ^ s.wid.w.toNat ≤ 2 ^ 16 := Nat.pow_le_pow_right (by omega) h.w_max
    _ = 65536 := by norm_num

/-- W = 16 exactly where L = 65536. -/
theorem WidthInv.w_eq_iff {s : State} (h : WidthInv s) :
    s.wid.w.toNat < 16 ↔ s.wid.l.toNat < 65536 := by
  rw [h.l_pow]
  constructor
  · intro hw
    calc 2 ^ s.wid.w.toNat ≤ 2 ^ 15 := Nat.pow_le_pow_right (by omega) (by omega)
      _ < 65536 := by norm_num
  · intro hl
    by_contra hw
    have := Nat.pow_le_pow_right (show 0 < 2 by omega) (show 16 ≤ s.wid.w.toNat by omega)
    norm_num at this
    omega

/-- W as a register: below 16 it can be incremented, and L doubled, without wrapping. -/
theorem WidthInv.grow_toNat {s : State} (h : WidthInv s) (hw : s.wid.w.toNat < 16) :
    (s.wid.w + 1).toNat = s.wid.w.toNat + 1 ∧ (2 * s.wid.l).toNat = 2 * s.wid.l.toNat := by
  have hl := h.w_eq_iff.1 hw
  constructor
  · rw [BitVec.toNat_add]; simp; omega
  · rw [BitVec.toNat_mul]; simp; omega

/-- The promotion adds one slot beyond the step's entry: `nextN` in its three cases. -/
theorem nextN_cases (s : State) :
    promotes s = true ∧ nextN s = s.wid.n.toNat + gain s + 1
      ∨ promotes s = false ∧ nextN s = s.wid.n.toNat + gain s := by
  unfold nextN
  cases promotes s <;> simp

/-- The promotion test, as a proposition. -/
theorem promotes_iff (s : State) : promotes s = true ↔ s.wid.w.toNat < 16
    ∧ s.wid.n.toNat + gain s + delta s.ctl.side = s.wid.l.toNat := by
  simp [promotes]

theorem gain_cases (s : State) : gain s = 1 ∧ s.wid.n.toNat < s.wid.l.toNat
    ∨ gain s = 0 ∧ s.wid.l.toNat ≤ s.wid.n.toNat := by
  unfold gain
  split
  · exact .inl ⟨rfl, ‹_›⟩
  · exact .inr ⟨rfl, by omega⟩

/-- `nextN` is a value of the register. -/
theorem WidthInv.nextN_le {s : State} (h : WidthInv s) :
    s.wid.n.toNat ≤ nextN s ∧ nextN s ≤ 65536 := by
  have hb := h.bounds
  have hw := h.w_eq_iff
  have hd : delta s.ctl.side ≤ 1 := by cases s.ctl.side <;> decide
  rcases nextN_cases s with ⟨hp, e⟩ | ⟨hp, e⟩
  · obtain ⟨h1, h2⟩ := (promotes_iff s).1 hp
    have := hw.1 h1
    have : s.wid.l.toNat ≤ 32768 := by
      rw [h.l_pow]
      calc 2 ^ s.wid.w.toNat ≤ 2 ^ 15 := Nat.pow_le_pow_right (by omega) (by omega)
        _ = 32768 := by norm_num
    rcases gain_cases s with ⟨hg, hg'⟩ | ⟨hg, hg'⟩ <;> omega
  · rcases gain_cases s with ⟨hg, hg'⟩ | ⟨hg, hg'⟩ <;> omega

theorem WidthInv.nextWidth_n {s : State} (h : WidthInv s) : (nextWidth s).n.toNat = nextN s := by
  have := h.nextN_le
  simp [nextWidth]
  omega

theorem WidthInv.nextWidth_w {s : State} (h : WidthInv s) :
    (nextWidth s).w.toNat = s.wid.w.toNat + (promotes s).toNat := by
  cases hp : promotes s
  · simp [nextWidth, hp]
  · simp only [nextWidth, hp, if_true, Bool.toNat_true]
    exact (h.grow_toNat ((promotes_iff s).1 hp).1).1

theorem WidthInv.nextWidth_l {s : State} (h : WidthInv s) :
    (nextWidth s).l.toNat = if promotes s then 2 * s.wid.l.toNat else s.wid.l.toNat := by
  cases hp : promotes s
  · simp [nextWidth, hp]
  · simp only [nextWidth, hp, if_true]
    exact (h.grow_toNat ((promotes_iff s).1 hp).1).2

/-- A data step keeps the invariants of the width controller. -/
theorem WidthInv.step {s t : State} (h : WidthInv s) (ht : t.wid = nextWidth s)
    (hside : t.ctl.side = s.ctl.side) : WidthInv t := by
  have hb := h.bounds
  have hw := h.w_eq_iff
  have hn := h.nextN_le
  have hwmin := h.w_min
  have hwmax := h.w_max
  have hl := h.l_pow
  have hh := h.n_half
  have hroom := h.dec_room
  have e1 := h.nextWidth_n
  have e2 := h.nextWidth_w
  have e3 := h.nextWidth_l
  rw [← ht] at e1 e2 e3
  rcases nextN_cases s with ⟨hp, e⟩ | ⟨hp, e⟩
  · obtain ⟨h1, h2⟩ := (promotes_iff s).1 hp
    simp only [hp, Bool.toNat_true, if_true] at e2 e3
    have hd : delta s.ctl.side ≤ 1 := by cases s.ctl.side <;> decide
    have hp2 : 2 ^ t.wid.w.toNat = 2 * s.wid.l.toNat := by rw [e2, hl, Nat.pow_succ]; ring
    rcases gain_cases s with ⟨hg, hg'⟩ | ⟨hg, hg'⟩ <;>
      exact ⟨by omega, by omega, by omega, by omega, by omega, by omega, by omega⟩
  · simp only [hp, Bool.toNat_false, Bool.false_eq_true, if_false, Nat.add_zero] at e2 e3
    have hnp : ¬ (s.wid.w.toNat < 16
        ∧ s.wid.n.toNat + gain s + delta s.ctl.side = s.wid.l.toNat) := by
      rw [← promotes_iff, hp]; decide
    refine ⟨by omega, by omega, by rw [e2, e3, hl], by omega, ?_, by omega, ?_⟩
    · rcases gain_cases s with ⟨hg, hg'⟩ | ⟨hg, hg'⟩ <;> omega
    · intro hs h16
      rw [hside] at hs
      have := hroom hs (by omega)
      rw [hs] at hnp
      simp only [delta] at hnp
      rcases gain_cases s with ⟨hg, hg'⟩ | ⟨hg, hg'⟩ <;> omega

/-- The width controller's start values keep them too. -/
theorem WidthInv.of_start {s : State} (h : s.wid = widStart) : WidthInv s := by
  constructor <;> rw [h] <;> simp [widStart]

/-! ### The bookkeeping of a data step -/

theorem shouldGrow_iff (s : State) : shouldGrow s = true ↔
    s.wid.w.toNat < 16 ∧ s.wid.n.toNat + delta s.ctl.side = s.wid.l.toNat := by
  unfold shouldGrow
  rw [Bool.and_eq_true, decide_eq_true_iff, decide_eq_true_iff]
  rfl

theorem canInsert_iff (s : State) : canInsert s = true ↔ s.wid.n.toNat < s.wid.l.toNat := by
  simp [canInsert]

theorem atCeiling_iff (s : State) : atCeiling s = true ↔
    65536 ≤ s.wid.n.toNat + delta s.ctl.side := by
  unfold atCeiling
  rw [decide_eq_true_iff]
  rfl

/-- N as a 16-bit index. -/
theorem setWidth_n (s : State) : s.wid.n.setWidth 16 = BitVec.ofNat 16 s.wid.n.toNat := by
  apply BitVec.eq_of_toNat_eq
  simp

/-- Counting one code up. -/
theorem bumpN_wid_eq (s : State) :
    (bumpN s).wid = { s.wid with n := BitVec.ofNat 17 (s.wid.n.toNat + 1) } := by
  simp [bumpN, BitVec.ofNat_add]

/-- After the step's entry, N is `n + gain`, without wrapping. -/
theorem gained_toNat (s : State) :
    (BitVec.ofNat 17 (s.wid.n.toNat + gain s)).toNat = s.wid.n.toNat + gain s := by
  have := s.wid.l.isLt
  have := s.wid.n.isLt
  rw [BitVec.toNat_ofNat]
  rcases gain_cases s with ⟨hg, hg'⟩ | ⟨hg, hg'⟩ <;> omega

/-- Steps 3 of E_LAST: only the width controller's registers change (`40_encoder.md` R167). -/
theorem advanceCounter_eq (s : State) :
    advanceCounter s = { s with wid := nextWidth s } := by
  have hg := gained_toNat s
  have hp := promotes_iff s
  unfold advanceCounter nextWidth nextN
  rcases gain_cases s with ⟨hg1, hg'⟩ | ⟨hg1, hg'⟩ <;> rw [hg1] at hg hp ⊢
  · have hc : canInsert s = true := by simp [canInsert, hg']
    have hgr : shouldGrow (bumpN s) = promotes s := by
      rw [Bool.eq_iff_iff, hp, shouldGrow_iff, bumpN_wid_eq]
      simp only [hg, bumpN_ctl]
    simp only [hc, if_true, hgr]
    cases promotes s <;> simp [bumpN, grow, BitVec.ofNat_add, BitVec.add_assoc]
  · have hc : canInsert s = false := by simp [canInsert]; omega
    have hgr : shouldGrow s = promotes s := by
      rw [Bool.eq_iff_iff, hp, shouldGrow_iff, Nat.add_zero]
    simp only [hc, Bool.false_eq_true, if_false, hgr]
    cases promotes s <;> simp [bumpN, grow, BitVec.ofNat_add]

/-- Source step 3 and the boundary rule of E_STEP (`40_encoder.md` R166, R172): the width
controller advances, and the key (CUR, NXT) maps to the last code the step assigns. -/
theorem learnKey_spec (s : State) :
    ∃ m, learnKey s = { s with wid := nextWidth s, mem := m }
      ∧ m.tab = s.mem.tab
      ∧ (s.mem.wf = true → m.wf = true)
      ∧ ∀ p b, dictLookup m p b =
          if p = s.enc.cur ∧ b = s.enc.nxt ∧ s.wid.n.toNat < nextN s
          then some (BitVec.ofNat 16 (nextN s - 1)) else dictLookup s.mem p b := by
  have hg := gained_toNat s
  have hp := promotes_iff s
  unfold learnKey nextWidth nextN
  rcases gain_cases s with ⟨hg1, hg'⟩ | ⟨hg1, hg'⟩ <;> rw [hg1] at hg hp ⊢
  · have hc : canInsert s = true := by simp [canInsert, hg']
    have hgr : shouldGrow (insertKey s) = promotes s := by
      rw [Bool.eq_iff_iff, hp, shouldGrow_iff, insertKey, bumpN_wid_eq]
      simp only [hg, bumpN_ctl]
    simp only [hc, if_true, hgr]
    cases hpr : promotes s
    · refine ⟨dictInsert s.mem s.enc.cur s.enc.nxt (s.wid.n.setWidth 16), ?_, rfl,
        fun h => dictInsert_wf h _ _ _, fun p b => ?_⟩
      · simp [insertKey, bumpN, BitVec.ofNat_add]
      · rw [dictLookup_dictInsert]
        rw [setWidth_n]
        simp
    · refine ⟨dictInsert (dictInsert s.mem s.enc.cur s.enc.nxt (s.wid.n.setWidth 16)) s.enc.cur
        s.enc.nxt ((s.wid.n + 1).setWidth 16), ?_, rfl,
        fun h => dictInsert_wf (dictInsert_wf h _ _ _) _ _ _, fun p b => ?_⟩
      · simp [insertKey, bumpN, grow, BitVec.ofNat_add, BitVec.add_assoc]
      · have e : (s.wid.n + 1).setWidth 16 = BitVec.ofNat 16 (s.wid.n.toNat + 1) := by
          apply BitVec.eq_of_toNat_eq
          simp
        rw [dictLookup_dictInsert, dictLookup_dictInsert, e]
        by_cases hk : p = s.enc.cur ∧ b = s.enc.nxt
        · rw [if_pos hk, if_pos ⟨hk.1, hk.2, by omega⟩]
          simp
        · rw [if_neg hk, if_neg hk, if_neg (fun h => hk ⟨h.1, h.2.1⟩)]
  · have hc : canInsert s = false := by simp [canInsert]; omega
    have hgr : shouldGrow s = promotes s := by
      rw [Bool.eq_iff_iff, hp, shouldGrow_iff, Nat.add_zero]
    simp only [hc, Bool.false_eq_true, if_false, hgr]
    cases promotes s
    · exact ⟨s.mem, by simp, rfl, id, fun p b => by simp⟩
    · refine ⟨dictInsert s.mem s.enc.cur s.enc.nxt (s.wid.n.setWidth 16), ?_, rfl,
        fun h => dictInsert_wf h _ _ _, fun p b => ?_⟩
      · simp [insertKey, bumpN, grow, BitVec.ofNat_add]
      · rw [dictLookup_dictInsert, setWidth_n]
        simp

/-- Steps 3c and 3d of D_READ (`41_decoder.md` R205): the width controller advances, and the entry
stands at every code the step assigns. -/
theorem learnEntry_spec {s : State} (hi : WidthInv s) (hm : s.mem.wf = true) (e : TabEntry) :
    ∃ m, learnEntry e s = { s with wid := nextWidth s, mem := m }
      ∧ m.dict = s.mem.dict ∧ m.wf = true
      ∧ ∀ j : Code, tabRead m j =
          if s.wid.n.toNat ≤ j.toNat ∧ j.toNat < nextN s then e else tabRead s.mem j := by
  have hg := gained_toNat s
  have hp := promotes_iff s
  have hb := hi.bounds
  have hn := hi.nextN_le
  unfold learnEntry
  unfold nextWidth
  unfold nextN at hn ⊢
  rcases gain_cases s with ⟨hg1, hg'⟩ | ⟨hg1, hg'⟩ <;> rw [hg1] at hg hp hn ⊢
  · have hc : canInsert s = true := (canInsert_iff s).2 hg'
    have hgr : shouldGrow (insertEntry e s) = promotes s := by
      rw [Bool.eq_iff_iff, hp, shouldGrow_iff, insertEntry, bumpN_wid_eq]
      simp only [hg, bumpN_ctl]
    simp only [hc, if_true, hgr]
    have hj (j : Code) : j = s.wid.n.setWidth 16 ↔ j.toNat = s.wid.n.toNat := by
      rw [← BitVec.toNat_inj]; simp; omega
    have hw : 256 ≤ (s.wid.n.setWidth 16).toNat := by simp; omega
    cases hpr : promotes s
    · refine ⟨tabWrite s.mem (s.wid.n.setWidth 16) e, ?_, tabWrite_dict _ _ _, tabWrite_wf hm _ _,
        fun j => ?_⟩
      · simp [insertEntry, bumpN, BitVec.ofNat_add]
      · simp only [tabRead_tabWrite hm, hj, Bool.toNat_false]
        split_ifs <;> first | rfl | omega
    · have hj1 (j : Code) : j = (s.wid.n + 1).setWidth 16 ↔ j.toNat = s.wid.n.toNat + 1 := by
        rw [← BitVec.toNat_inj]; simp [hpr] at hn ⊢; omega
      have hw1 : 256 ≤ ((s.wid.n + 1).setWidth 16).toNat := by simp [hpr] at hn ⊢; omega
      have hm1 := tabWrite_wf hm (s.wid.n.setWidth 16) e
      refine ⟨tabWrite (tabWrite s.mem (s.wid.n.setWidth 16) e) ((s.wid.n + 1).setWidth 16) e, ?_,
        by simp, tabWrite_wf hm1 _ _, fun j => ?_⟩
      · simp [insertEntry, bumpN, grow, BitVec.ofNat_add, BitVec.add_assoc]
      · simp only [tabRead_tabWrite hm1, tabRead_tabWrite hm, hj, hj1, Bool.toNat_true]
        split_ifs <;> first | rfl | omega
  · have hc : canInsert s = false := by simp [canInsert]; omega
    have hgr : shouldGrow s = promotes s := by
      rw [Bool.eq_iff_iff, hp, shouldGrow_iff, Nat.add_zero]
    simp only [hc, Bool.false_eq_true, if_false, hgr]
    cases hpr : promotes s
    · exact ⟨s.mem, by simp, rfl, hm, fun j => by simp⟩
    · have hj (j : Code) : j = s.wid.n.setWidth 16 ↔ j.toNat = s.wid.n.toNat := by
        rw [← BitVec.toNat_inj]; simp [hpr] at hn ⊢; omega
      have hw : 256 ≤ (s.wid.n.setWidth 16).toNat := by simp [hpr] at hn ⊢; omega
      refine ⟨tabWrite s.mem (s.wid.n.setWidth 16) e, ?_, tabWrite_dict _ _ _, tabWrite_wf hm _ _,
        fun j => ?_⟩
      · simp [insertEntry, bumpN, grow, BitVec.ofNat_add]
      · simp only [tabRead_tabWrite hm, hj, Bool.toNat_true]
        split_ifs <;> first | rfl | omega

/-! ### The consultation of a data step -/

/-- The accumulators of a match that fits, as numbers. -/
theorem accumulated_toNat {len : Nat} {s : State} (h : accFits len s = true)
    (hp : s.ctl.pol = .monitored) :
    (accumulated len s).accNum.toNat = s.arb.accNum.toNat + 8 * len
      ∧ (accumulated len s).accDen.toNat = s.arb.accDen.toNat + s.wid.w.toNat := by
  simp [accFits, hp] at h
  simp [accumulated, hp]
  omega

@[simp] theorem accumulated_baseValid (len : Nat) (s : State) :
    (accumulated len s).baseValid = s.arb.baseValid := by
  unfold accumulated; split <;> rfl

@[simp] theorem accumulated_baseNum (len : Nat) (s : State) :
    (accumulated len s).baseNum = s.arb.baseNum := by
  unfold accumulated; split <;> rfl

@[simp] theorem accumulated_baseDen (len : Nat) (s : State) :
    (accumulated len s).baseDen = s.arb.baseDen := by
  unfold accumulated; split <;> rfl

/-- A state between the accumulation of a data step from `s` and its consultation. -/
structure Consulting (len : Nat) (s u : State) : Prop where
  width : WidthInv s
  fits : accFits len s = true
  ctl_eq : u.ctl = s.ctl
  wid_eq : u.wid = nextWidth s
  arb_eq : u.arb = accumulated len s
  arith_eq : u.ratioArith = s.ratioArith

/-- The consultation is a ceiling sample where the data step is one. -/
theorem Consulting.atCeiling_eq {len : Nat} {s u : State} (h : Consulting len s u) :
    atCeiling u = samples s := by
  rw [Bool.eq_iff_iff, atCeiling_iff, h.wid_eq, h.width.nextWidth_n, h.ctl_eq]
  simp [samples]

/-- The arbiter's decision at a ceiling sample is the data step's. -/
theorem Consulting.arbitrate_eq {len : Nat} {s u : State} (h : Consulting len s u)
    (hc : samples s = true) :
    arbitrate u = if reinitializes len s then .reinit else .noOp := by
  unfold arbitrate reinitializes ratioDegraded
  rw [hc, h.ctl_eq, h.arb_eq, h.arith_eq]
  cases hp : s.ctl.pol
  · rfl
  · rfl
  · have ha := accumulated_toNat h.fits hp
    simp [ha.1, ha.2]

/-- What the arbiter's capture leaves is the data step's `sampled`. -/
theorem Consulting.afterArbitrate_eq {len : Nat} {s u : State} (h : Consulting len s u)
    (hc : samples s = true) : afterArbitrate u = { u with arb := sampled len s } := by
  unfold afterArbitrate sampled
  rw [h.ctl_eq, h.arb_eq, hc]
  by_cases hp : s.ctl.pol = .monitored ∧ s.arb.baseValid = false
  · simp [hp.1, hp.2, capture, h.arb_eq]
    exact h.ctl_eq
  · simp only [accumulated_baseValid, if_neg hp, true_and]
    simp only [← h.arb_eq]
    rw [← h.ctl_eq]

/-- Where the data step is no ceiling sample, `sampled` is what `accumulate` left. -/
theorem sampled_of_not {len : Nat} {s : State} (hc : samples s = false) :
    sampled len s = accumulated len s := by
  simp [sampled, hc]

/-- The consultation of E_STEP and E_LAST: no change but the baseline, or the reinitialization
(`40_encoder.md` R166). -/
theorem Consulting.enc {len : Nat} {s u : State} (h : Consulting len s u) :
    reinitializes len s = false ∧ consultEnc u = { u with arb := sampled len s }
      ∨ reinitializes len s = true ∧ consultEnc u = reinit u := by
  unfold consultEnc
  rw [h.atCeiling_eq]
  cases hc : samples s
  · left
    refine ⟨by simp [reinitializes, hc], ?_⟩
    simp [sampled_of_not hc, ← h.arb_eq]
  · simp only [if_true, h.arbitrate_eq hc]
    cases hr : reinitializes len s
    · left
      simp [h.afterArbitrate_eq hc]
    · right
      have : arbitrate u = .reinit := by rw [h.arbitrate_eq hc, hr]; rfl
      simp [afterArbitrate_of_reinit this]

/-- The consultation of D_READ: on to D_EMIT with no change but the baseline, or to D_RESET
(`41_decoder.md` R205). -/
theorem Consulting.dec {len : Nat} {s u : State} (h : Consulting len s u) :
    reinitializes len s = false ∧ consultDec u = goto .dEmit { u with arb := sampled len s }
      ∨ reinitializes len s = true ∧ consultDec u = goto .dReset u := by
  unfold consultDec
  rw [h.atCeiling_eq]
  cases hc : samples s
  · left
    refine ⟨by simp [reinitializes, hc], ?_⟩
    simp [sampled_of_not hc, ← h.arb_eq]
  · simp only [if_true, h.arbitrate_eq hc]
    cases hr : reinitializes len s
    · left
      simp [h.afterArbitrate_eq hc]
    · right
      have : arbitrate u = .reinit := by rw [h.arbitrate_eq hc, hr]; rfl
      simp [afterArbitrate_of_reinit this]

/-! ### The data steps as a whole -/

/-- The steps R166 and R167 share, where nothing overflows: the codeword goes out at the width in
force, then the bookkeeping, the accumulation and the consultation. -/
theorem emitMatch_fits {learn : State → State} {s : State} {m : Memory} (hi : WidthInv s)
    (hcur : s.enc.cur.toNat < s.wid.l.toNat) (hf : accFits s.enc.curLen.toNat s = true)
    (hl : learn (writeCode s.enc.cur.toNat s)
      = { writeCode s.enc.cur.toNat s with wid := nextWidth s, mem := m }) :
    ∃ u, emitMatch learn s = .cont (consultEnc u) ∧ Consulting s.enc.curLen.toNat s u
      ∧ u = { writeCode s.enc.cur.toNat s with
          wid := nextWidth s, mem := m, arb := accumulated s.enc.curLen.toNat s } := by
  have h1 : checkValue s = .cont s := by
    rcases checkValue_cases s with ⟨-, h⟩ | ⟨h, -⟩
    · exact h
    · omega
  refine ⟨{ writeCode s.enc.cur.toNat s with
      wid := nextWidth s, mem := m, arb := accumulated s.enc.curLen.toNat s }, ?_,
    ⟨hi, hf, rfl, rfl, rfl, rfl⟩, rfl⟩
  have hw : WidthInv (learn (writeCode s.enc.cur.toNat s)) :=
    hi.step (by rw [hl]) (by rw [hl]; rfl)
  unfold emitMatch
  rw [h1, Flow.andThen_cont]
  rcases checkCounter_cases (learn (writeCode s.enc.cur.toNat s)) with ⟨-, h2⟩ | ⟨h2, -⟩
  · rw [h2, Flow.andThen_cont, hl]
    exact congrArg (fun f => f.andThen fun s3 => .cont (consultEnc s3))
      (accumulate_fits (u := { writeCode s.enc.cur.toNat s with wid := nextWidth s, mem := m }) hf
        rfl rfl)
  · have := hw.n_max; omega

/-- E_STEP's steps up to the restart of the match, where nothing overflows. -/
theorem emitMatch_learnKey {s : State} (hi : WidthInv s)
    (hcur : s.enc.cur.toNat < s.wid.l.toNat) (hf : accFits s.enc.curLen.toNat s = true) :
    ∃ m u, emitMatch learnKey s = .cont (consultEnc u) ∧ Consulting s.enc.curLen.toNat s u
      ∧ u = { writeCode s.enc.cur.toNat s with
          wid := nextWidth s, mem := m, arb := accumulated s.enc.curLen.toNat s }
      ∧ m.tab = s.mem.tab ∧ (s.mem.wf = true → m.wf = true)
      ∧ ∀ p b, dictLookup m p b =
          if p = s.enc.cur ∧ b = s.enc.nxt ∧ s.wid.n.toNat < nextN s
          then some (BitVec.ofNat 16 (nextN s - 1)) else dictLookup s.mem p b := by
  obtain ⟨m, hm, ht, hwf, hd⟩ := learnKey_spec (writeCode s.enc.cur.toNat s)
  obtain ⟨u, hu⟩ := emitMatch_fits hi hcur hf hm
  exact ⟨m, u, hu.1, hu.2.1, hu.2.2, ht, hwf, hd⟩

/-- E_LAST's steps, where nothing overflows. -/
theorem emitMatch_advanceCounter {s : State} (hi : WidthInv s)
    (hcur : s.enc.cur.toNat < s.wid.l.toNat) (hf : accFits s.enc.curLen.toNat s = true) :
    ∃ u, emitMatch advanceCounter s = .cont (consultEnc u) ∧ Consulting s.enc.curLen.toNat s u
      ∧ u = { writeCode s.enc.cur.toNat s with
          wid := nextWidth s, arb := accumulated s.enc.curLen.toNat s } :=
  emitMatch_fits (m := s.mem) hi hcur hf (advanceCounter_eq _)

/-- D_READ's steps on a HIT or KWKWK codeword, where nothing overflows. -/
theorem learnCode_fits {s : State} {cw : Code} (hi : WidthInv s) (hm : s.mem.wf = true)
    (hf : accFits (codeLen cw s) s = true) :
    ∃ m u, learnCode cw s = .cont (consultDec u) ∧ Consulting (codeLen cw s) s u
      ∧ u = { takeCode cw s with
          wid := nextWidth s, mem := m, arb := accumulated (codeLen cw s) s
          dec := { prev := cw, cw := cw } }
      ∧ m.dict = s.mem.dict ∧ m.wf = true
      ∧ ∀ j : Code, tabRead m j =
          if s.wid.n.toNat ≤ j.toNat ∧ j.toNat < nextN s then learnedEntry cw s
          else tabRead s.mem j := by
  obtain ⟨m, hl, hd, hw, ht⟩ :=
    learnEntry_spec (s := takeCode cw s) ⟨hi.1, hi.2, hi.3, hi.4, hi.5, hi.6, hi.7⟩ hm
      (learnedEntry cw s)
  refine ⟨m, { takeCode cw s with
      wid := nextWidth s, mem := m, arb := accumulated (codeLen cw s) s
      dec := { prev := cw, cw := cw } }, ?_, ⟨hi, hf, rfl, rfl, rfl, rfl⟩, rfl, hd, hw, ht⟩
  have hw' : WidthInv (learnEntry (learnedEntry cw s) (takeCode cw s)) :=
    hi.step (by rw [hl]; rfl) (by rw [hl]; rfl)
  unfold learnCode
  rcases checkCounter_cases (learnEntry (learnedEntry cw s) (takeCode cw s)) with ⟨-, h2⟩ | ⟨h2, -⟩
  · rw [h2, Flow.andThen_cont, hl]
    exact congrArg (fun f => f.andThen fun s2 => .cont (consultDec s2))
      (accumulate_fits (u := { takeCode cw s with
        wid := nextWidth s, mem := m, dec := { prev := cw, cw := cw } }) hf rfl rfl)
  · have := hw'.n_max; omega

end Sys2Proof.Machine
end

