-- ==== Sys2Proof/Laws/Invariant.lean ====
section
/-! SUPPORT. What the invariant gives and what keeps it: the frames of its parts, taking a fault,
ending a pass, the strings and the links of the code table, the keys of the dictionary. -/

namespace Sys2Proof.Machine

/-! ### Frames of the invariant -/

/-- The host's port is no part of the invariant. -/
theorem Inv.with_host {s : State} (h : Inv s) (p : HostPort) : Inv { s with host := p } := by
  obtain ⟨h1, h2, h3, h4, h5, h6, h7, h8⟩ := h
  exact ⟨⟨h1.1, h1.2, h1.3, h1.4, h1.5⟩, ⟨h2.1, h2.2, h2.3, h2.4, h2.5, h2.6, h2.7⟩,
    ⟨h3.1, h3.2, h3.3, h3.4, h3.5⟩, ⟨h4.1, h4.2, h4.3, h4.4, h4.5⟩,
    ⟨h5.1, h5.2, h5.3⟩, ⟨h6.1, h6.2, h6.3⟩, h7, h8⟩

/-- The width part depends on the width controller's registers and SIDE alone. -/
theorem WidthInv.frame {s t : State} (h : WidthInv s) (hw : t.wid = s.wid)
    (hs : t.ctl.side = s.ctl.side) : WidthInv t := by
  obtain ⟨a, b, c, d, e, f, g⟩ := h
  constructor <;> rw [hw] <;> try assumption
  rw [hs]
  exact g

/-- In a running state of the encoder the flags and SIDE are those of a running pass. -/
theorem ControlInv.enc_running {s : State} (h : ControlInv s) (hp : encPhase s.ctl.st = true) :
    s.ctl.busy = true ∧ s.ctl.done = false ∧ s.ctl.error = false ∧ s.ctl.side = .enc := by
  obtain ⟨a, b, c, d, -⟩ := h
  refine ⟨by simp [a, hp], ?_, ?_, d hp⟩
  · rw [b]; cases hs : s.ctl.st <;> simp_all [encPhase]
  · rw [c]; cases hs : s.ctl.st <;> simp_all [encPhase]

/-- In a running state of the decoder the flags and SIDE are those of a running pass. -/
theorem ControlInv.dec_running {s : State} (h : ControlInv s) (hp : decPhase s.ctl.st = true) :
    s.ctl.busy = true ∧ s.ctl.done = false ∧ s.ctl.error = false ∧ s.ctl.side = .dec := by
  obtain ⟨a, b, c, -, d⟩ := h
  refine ⟨by simp [a, hp], ?_, ?_, d hp⟩
  · rw [b]; cases hs : s.ctl.st <;> simp_all [decPhase]
  · rw [c]; cases hs : s.ctl.st <;> simp_all [decPhase]

/-- The arbiter's registers as the policy allows them. -/
structure ArbiterOk (p : Policy) (a : Arbiter) : Prop where
  unused : p ≠ .monitored → a = arbZero
  no_base : a.baseValid = false → a.baseNum = 0 ∧ a.baseDen = 0
  base_pos : a.baseValid = true → 8 ≤ a.baseNum.toNat ∧ 9 ≤ a.baseDen.toNat

theorem Inv.arbiterOk {s : State} (h : Inv s) : ArbiterOk s.ctl.pol s.arb :=
  ⟨fun x => h.arbiter.unused (.inl x), h.arbiter.no_base, h.arbiter.base_pos⟩

/-- The start values are allowed under every policy. -/
theorem ArbiterOk.zero (p : Policy) : ArbiterOk p arbZero :=
  ⟨fun _ => rfl, fun _ => ⟨rfl, rfl⟩, fun h => by cases h⟩

/-- Adding a match keeps them allowed. -/
theorem ArbiterOk.accumulated {len : Nat} {s : State} (h : ArbiterOk s.ctl.pol s.arb) :
    ArbiterOk s.ctl.pol (accumulated len s) := by
  refine ⟨fun hp => ?_, ?_, ?_⟩
  · simp [Machine.accumulated, hp, h.1 hp]
  · simpa using h.2
  · simpa using h.3

/-- So does the first sample, whose baseline is positive (`43_reset_policy.md` R279). -/
theorem ArbiterOk.sampled {len : Nat} {s : State} (h : ArbiterOk s.ctl.pol s.arb) (hl : 1 ≤ len)
    (hw : WidthInv s) (hf : accFits len s = true) : ArbiterOk s.ctl.pol (sampled len s) := by
  unfold Machine.sampled
  have ha := h.accumulated (len := len)
  by_cases hc : samples s = true ∧ s.ctl.pol = .monitored ∧ s.arb.baseValid = false
  · simp only [if_pos hc]
    have hn := accumulated_toNat hf hc.2.1
    have := hw.w_min
    refine ⟨fun hp => absurd hc.2.1 hp, by simp, fun _ => ⟨?_, ?_⟩⟩ <;> simp only <;> omega
  · simp only [if_neg hc]
    exact ha

/-- The arbiter's part of the invariant outside D_TAG. -/
theorem ArbiterOk.inv {t : State} (h : ArbiterOk t.ctl.pol t.arb) (h1 : t.ctl.st ≠ .dTag)
    (h2 : t.ctl.pol = .frozen → t.cnt.gen = 0) (h3 : t.ctl.st = .dReset → t.ctl.pol ≠ .frozen) :
    ArbiterInv t := by
  refine ⟨?_, h.2, h.3, ?_, h3⟩
  · rintro (h' | h')
    exacts [h.1 h', absurd h' h1]
  · rintro (h' | h')
    exacts [h2 h', absurd h' h1]

/-- FROZEN never reinitializes (`43_reset_policy.md` R271). -/
theorem reinitializes_not_frozen {len : Nat} {s : State} (h : reinitializes len s = true) :
    s.ctl.pol ≠ .frozen := by
  intro hp
  simp [reinitializes, hp] at h

/-! ### Taking a fault, ending a pass -/

/-- What the invariant asks of a state outside a pass. -/
structure Resting (s : State) : Prop where
  width : WidthInv s
  arbiter : ArbiterOk s.ctl.pol s.arb
  frozen_gen : s.ctl.pol = .frozen → s.cnt.gen = 0
  memory : s.mem.wf = true

theorem Inv.resting {s : State} (h : Inv s) : Resting s :=
  ⟨h.width, h.arbiterOk, fun x => h.arbiter.frozen_gen (.inl x), h.memory⟩

/-- Every fault is listed (`60_exceptions.md` R360). -/
theorem FaultKind.listed (k : FaultKind) : (k.cause, k.detail) ∈ errorCodes := by
  cases k <;> decide

/-- The fault entry leads to a sound state. -/
theorem Resting.raiseFault_inv {s : State} (h : Resting s) (k : FaultKind) (v : Code) :
    Inv (raiseFault k v s) := by
  refine ⟨?_, h.width.frame rfl rfl, ArbiterOk.inv h.arbiter (by simp) h.frozen_gen (by simp), ?_,
    ?_, ?_, h.memory, k.listed⟩ <;>
    constructor <;> simp [encPhase, decPhase, matchPhase, prevPhase]

/-- Ending a pass on a closed output leads to a sound state. -/
theorem Resting.finishPass_inv {s : State} (h : Resting s) (hc : s.port.closed = true)
    (hl : s.port.ob.length % 8 = 0) (he : s.ctl.error = false)
    (hx : (s.err.cause, s.err.detail) ∈ errorCodes) : Inv (finishPass s) := by
  refine ⟨?_, h.width.frame rfl rfl, ArbiterOk.inv h.arbiter (by simp) h.frozen_gen (by simp), ?_,
    ?_, ?_, h.memory, hx⟩ <;>
    constructor <;> simp [encPhase, decPhase, matchPhase, prevPhase, he, hc, hl]

/-- Close() fills the output up to whole bytes (`20_memory.md` R88). -/
theorem closeOut_whole (s : State) :
    (closeOut s).port.ob.length % 8 = 0 ∧ (closeOut s).port.closed = true := by
  simp [closeOut]
  omega

theorem bytesBits_length (bs : List Byte) : (bytesBits bs).length = 8 * bs.length := by
  induction bs with
  | nil => rfl
  | cons b bs ih => simp [bytesBits, ih]; omega

theorem bytesBits_eq (bs : List Byte) : bytesBits bs = bs.flatMap fun b => bitsOf b.toNat 8 := by
  induction bs with
  | nil => rfl
  | cons b bs ih => simp [bytesBits, ih]

/-! ### The code table -/

/-- Along links the recursion of `Str` ends (`44_code_table.md` R304). -/
theorem strFuel_isSome {m : Memory} {n : Nat} (hl : LinksOk m n) : ∀ (f : Nat) (j : Code),
    j.toNat < n → j.toNat ≠ 256 → j.toNat < 256 + f → ∃ bs, strFuel m (f + 1) j = some bs := by
  intro f
  induction f with
  | zero =>
    intro j h1 h2 h3
    have : j.toNat < 256 := by omega
    simp [strFuel, tabRead, this]
  | succ f ih =>
    intro j h1 h2 h3
    by_cases hj : j.toNat < 256
    · simp [strFuel, tabRead, hj]
    · obtain ⟨a, b, c, d⟩ := hl j (by omega) h1
      obtain ⟨bs, hb⟩ := ih (tabRead m j).prefixCode (by omega) b (by omega)
      unfold strFuel
      split
      · exact ⟨_, rfl⟩
      · rw [hb]; exact ⟨_, rfl⟩

theorem str_isSome {m : Memory} {n : Nat} (hl : LinksOk m n) (j : Code) (h1 : j.toNat < n)
    (h2 : j.toNat ≠ 256) : ∃ bs, str m j = some bs := by
  have := j.isLt
  exact strFuel_isSome hl 65535 j h1 h2 (by omega)

/-- The length of a linked entry is positive and at most one more than the codes below it. -/
theorem LinksOk.len_bound {m : Memory} {n : Nat} (hl : LinksOk m n) : ∀ j : Code, j.toNat < n →
    j.toNat ≠ 256 →
    1 ≤ (tabRead m j).len.toNat ∧ (tabRead m j).len.toNat + 255 ≤ max j.toNat 256 := by
  have key : ∀ (f : Nat) (j : Code), j.toNat < n → j.toNat ≠ 256 → j.toNat < 256 + f →
      1 ≤ (tabRead m j).len.toNat ∧ (tabRead m j).len.toNat + 255 ≤ max j.toNat 256 := by
    intro f
    induction f with
    | zero =>
      intro j h1 h2 h3
      have : j.toNat < 256 := by omega
      simp [tabRead, this]
    | succ f ih =>
      intro j h1 h2 h3
      by_cases hj : j.toNat < 256
      · simp [tabRead, hj]
      · obtain ⟨a, b, c, d⟩ := hl j (by omega) h1
        have := ih (tabRead m j).prefixCode (by omega) b (by omega)
        omega
  exact fun j h1 h2 => key j.toNat j h1 h2 (by omega)

/-- The entries a D_READ step writes are links, and the old ones stay links (R304). -/
theorem LinksOk.learn {s : State} {cw : Code} {m : Memory} (hi : WidthInv s)
    (hl : LinksOk s.mem s.wid.n.toNat)
    (hp : s.dec.prev.toNat < s.wid.n.toNat ∧ s.dec.prev.toNat ≠ 256)
    (ht : ∀ j : Code, tabRead m j =
      if s.wid.n.toNat ≤ j.toNat ∧ j.toNat < nextN s then learnedEntry cw s
      else tabRead s.mem j) : LinksOk m (nextN s) := by
  intro j h1 h2
  have hn := hi.nextN_le
  have hb := hi.bounds
  have hlen := hl.len_bound s.dec.prev hp.1 hp.2
  have hpl := s.dec.prev.isLt
  by_cases hj : s.wid.n.toNat ≤ j.toNat
  · have e : tabRead m j = learnedEntry cw s := by rw [ht, if_pos ⟨hj, h2⟩]
    have e' : tabRead m s.dec.prev = tabRead s.mem s.dec.prev := by rw [ht, if_neg (by omega)]
    refine ⟨?_, ?_, ?_, ?_⟩ <;> rw [e] <;> simp only [learnedEntry]
    · omega
    · exact hp.2
    · rw [e']
    · rw [e', BitVec.toNat_add]; simp; omega
  · obtain ⟨a, b, c, d⟩ := hl j h1 (by omega)
    have e : tabRead m j = tabRead s.mem j := by rw [ht, if_neg (by omega)]
    have e' : tabRead m (tabRead s.mem j).prefixCode
        = tabRead s.mem (tabRead s.mem j).prefixCode := by rw [ht, if_neg (by omega)]
    refine ⟨?_, ?_, ?_, ?_⟩ <;> rw [e]
    · omega
    · exact b
    · rw [e']; exact c
    · rw [e']; exact d

/-! ### The dictionary -/

/-- A single byte names a string of every generation. -/
theorem byte_code_ok (b : Byte) (n : Nat) (h : 257 ≤ n) :
    (b.setWidth 16 : Code).toNat < n ∧ (b.setWidth 16 : Code).toNat ≠ 256
      ∧ (b.setWidth 16 : Code).toNat ∉ shadowedCodes
      ∧ (1 : Count).toNat + 255 ≤ max (b.setWidth 16 : Code).toNat 256 := by
  have := b.isLt
  simp [shadowedCodes]
  omega

/-- The learned codes after E_STEP's bookkeeping: in range, none shadowed, each greater than the code
its key extends (`20_memory.md` R81, `40_encoder.md` R171). -/
theorem Inv.learned_step {s : State} {m : Memory} (h : Inv s) (hst : s.ctl.st = .eStep)
    (hd : ∀ p b, dictLookup m p b =
      if p = s.enc.cur ∧ b = s.enc.nxt ∧ s.wid.n.toNat < nextN s
      then some (BitVec.ofNat 16 (nextN s - 1)) else dictLookup s.mem p b)
    (p : Code) (b : Byte) (k : Code) (hk : dictLookup m p b = some k) :
    257 ≤ k.toNat ∧ k.toNat < nextN s ∧ k.toNat ∉ shadowedCodes ∧ p.toNat < k.toNat
      ∧ p.toNat ≠ 256 := by
  obtain ⟨c1, c2, c3, c4⟩ := h.control.enc_running (by rw [hst]; rfl)
  have hn := h.width.nextN_le
  rw [hd] at hk
  split at hk
  · rename_i hc
    cases hk
    obtain ⟨m1, m2, m3, m4, m5⟩ := h.encoder.3 (by simp [hst, matchPhase])
    have e : (BitVec.ofNat 16 (nextN s - 1)).toNat = nextN s - 1 := by simp; omega
    rw [e, hc.1]
    have := h.width.n_min
    refine ⟨by omega, by omega, ?_, by omega, m2⟩
    intro hs
    have hb := h.width.bounds
    have hh := h.width.n_half
    have hl := h.width.l_pow
    have hw := h.width.w_min
    have hw' := h.width.w_max
    have hp := promotes_iff s
    simp only [c4, delta] at hp
    obtain ⟨w, hwe⟩ : ∃ w, s.wid.w.toNat = w := ⟨_, rfl⟩
    rw [hwe] at hl hw hw' hp
    rcases gain_cases s with ⟨hg, hg'⟩ | ⟨hg, hg'⟩ <;>
      rcases nextN_cases s with ⟨hpr, e'⟩ | ⟨hpr, e'⟩ <;>
      rw [hpr] at hp <;> simp at hp <;> rw [e', hg] at hs <;> simp [shadowedCodes] at hs <;>
      interval_cases w <;> omega
  · obtain ⟨a, b, c, d, e⟩ := h.encoder.2 (by simp [hst, encPhase]) _ _ _ hk
    exact ⟨a, by omega, c, d, e⟩

end Sys2Proof.Machine
end

