-- ==== Sys2Proof/Laws/PerInstr.lean ====
section
/-! SUPPORT. Per instruction: a well-formed instruction's item carries the fixed bits of its row of
`opcode_table.json`. -/

namespace Sys2Proof.Laws

/-- The six formats of the opcode table (`30_encoding.md` R150). -/
inductive Format where
  | tag8
  | cwFirst
  | cwRead
  | cmd16
  | csr
  | fsm
deriving DecidableEq, Repr

/-- A row of the opcode table: its format, its mask and its match value. -/
structure Row where
  format : Format
  mask : Nat
  word : Nat
deriving DecidableEq, Repr

/-- The format and the bits of an item; of a host access the offset. -/
def itemBits : Encoded → Format × Nat
  | .tag8 t => (.tag8, t.toNat)
  | .cwFirst cw => (.cwFirst, cw.toNat)
  | .cwRead cw => (.cwRead, cw.toNat)
  | .cmd16 v => (.cmd16, v.toNat)
  | .csr (.read off) => (.csr, off.toNat)
  | .csr (.write off _) => (.csr, off.toNat)
  | .fsm c => (.fsm, c.toNat)

/-- The row of each instruction, copied from `opcode_table.json`. START's row `0x00:1` (offset 0x00,
bit 0 of the value) stands here as its offset; the bit is `Instr.wf`. -/
def rowOf : Instr → Row
  | .tagFrozen => ⟨.tag8, 0xFF, 0x6E⟩
  | .tagSaturate => ⟨.tag8, 0xFF, 0x72⟩
  | .tagMonitored => ⟨.tag8, 0xFF, 0x6D⟩
  | .tagReserved _ => ⟨.tag8, 0x00, 0x00⟩
  | .firstLiteral _ => ⟨.cwFirst, 0x100, 0x000⟩
  | .firstEof => ⟨.cwFirst, 0x1FF, 0x100⟩
  | .firstReserved _ => ⟨.cwFirst, 0x100, 0x100⟩
  | .eof => ⟨.cwRead, 0xFFFF, 0x0100⟩
  | .hit _ => ⟨.cwRead, 0x0000, 0x0000⟩
  | .kwkwk _ => ⟨.cwRead, 0x0000, 0x0000⟩
  | .codeReserved _ => ⟨.cwRead, 0x0000, 0x0000⟩
  | .compressFrozen => ⟨.cmd16, 0xFFFF, 0x6E2D⟩
  | .compressSaturate => ⟨.cmd16, 0xFFFF, 0x722D⟩
  | .compressMonitored => ⟨.cmd16, 0xFFFF, 0x6D2D⟩
  | .expand _ => ⟨.cmd16, 0x00FF, 0x002B⟩
  | .start _ => ⟨.csr, 0xFC, 0x00⟩
  | .cmdWrite _ => ⟨.csr, 0xFC, 0x04⟩
  | .csrRead _ => ⟨.csr, 0x00, 0x00⟩
  | .encTag => ⟨.fsm, 0x1F, 0x04⟩
  | .encFirstEmpty => ⟨.fsm, 0x1F, 0x05⟩
  | .encFirstByte => ⟨.fsm, 0x1F, 0x05⟩
  | .encScanHit => ⟨.fsm, 0x1F, 0x06⟩
  | .encScanMiss => ⟨.fsm, 0x1F, 0x06⟩
  | .encScanEnd => ⟨.fsm, 0x1F, 0x06⟩
  | .encStep => ⟨.fsm, 0x1F, 0x07⟩
  | .encLast => ⟨.fsm, 0x1F, 0x08⟩
  | .encEof => ⟨.fsm, 0x1F, 0x09⟩
  | .decTag => ⟨.fsm, 0x1F, 0x10⟩
  | .decFirstEof => ⟨.fsm, 0x1F, 0x11⟩
  | .decFirstLiteral => ⟨.fsm, 0x1F, 0x11⟩
  | .decFirstReserved => ⟨.fsm, 0x1F, 0x11⟩
  | .decEmit => ⟨.fsm, 0x1F, 0x12⟩
  | .decReadLearn => ⟨.fsm, 0x1F, 0x13⟩
  | .decReadEof => ⟨.fsm, 0x1F, 0x13⟩
  | .decReadReserved => ⟨.fsm, 0x1F, 0x13⟩
  | .decReset => ⟨.fsm, 0x1F, 0x14⟩

/-- The item of a well-formed instruction has its row's format and fixed bits. -/
def RowBits.Statement (i : Instr) : Prop :=
  i.wf = true →
    (itemBits (encode i)).1 = (rowOf i).format
      ∧ (itemBits (encode i)).2 &&& (rowOf i).mask = (rowOf i).word

/-- The low byte of a CMD value is OP. -/
theorem append_low_byte (p q : Byte) : (p ++ q : BitVec 16).toNat &&& 0xFF = q.toNat := by
  rw [BitVec.toNat_append, show (0xFF : Nat) = 2 ^ 8 - 1 from rfl, Nat.and_two_pow_sub_one_eq_mod,
    Nat.shiftLeft_eq, ← Nat.mul_comm, ← Nat.two_pow_add_eq_or_of_lt q.isLt]
  have := q.isLt
  omega

theorem RowBits.tagFrozen : RowBits.Statement .tagFrozen := by
  intro _; decide

theorem RowBits.tagSaturate : RowBits.Statement .tagSaturate := by
  intro _; decide

theorem RowBits.tagMonitored : RowBits.Statement .tagMonitored := by
  intro _; decide

theorem RowBits.tagReserved (t : Byte) : RowBits.Statement (.tagReserved t) := by
  intro _; exact ⟨rfl, Nat.and_zero _⟩

theorem RowBits.firstLiteral (b : Byte) : RowBits.Statement (.firstLiteral b) := by
  intro _
  refine ⟨rfl, ?_⟩
  have := b.isLt
  simp only [encode, itemBits, rowOf, BitVec.toNat_setWidth]
  rw [show (0x100 : Nat) = 2 ^ 8 from rfl, Nat.and_two_pow, Nat.mod_eq_of_lt (by omega),
    Nat.testBit_lt_two_pow (by omega)]
  rfl

theorem RowBits.firstEof : RowBits.Statement .firstEof := by
  intro _; decide

theorem RowBits.firstReserved (cw : Code) : RowBits.Statement (.firstReserved cw) := by
  intro h
  refine ⟨rfl, ?_⟩
  simp only [Instr.wf, Bool.and_eq_true, decide_eq_true_eq] at h
  simp only [encode, itemBits, rowOf]
  rw [show (0x100 : Nat) = 2 ^ 8 from rfl, Nat.and_two_pow, Nat.testBit_eq_decide_div_mod_eq]
  have : cw.toNat / 2 ^ 8 = 1 := by omega
  rw [this]
  rfl

theorem RowBits.eof : RowBits.Statement .eof := by
  intro _; decide

theorem RowBits.hit (cw : Code) : RowBits.Statement (.hit cw) := by
  intro _; exact ⟨rfl, Nat.and_zero _⟩

theorem RowBits.kwkwk (cw : Code) : RowBits.Statement (.kwkwk cw) := by
  intro _; exact ⟨rfl, Nat.and_zero _⟩

theorem RowBits.codeReserved (cw : Code) : RowBits.Statement (.codeReserved cw) := by
  intro _; exact ⟨rfl, Nat.and_zero _⟩

theorem RowBits.compressFrozen : RowBits.Statement .compressFrozen := by
  intro _; decide

theorem RowBits.compressSaturate : RowBits.Statement .compressSaturate := by
  intro _; decide

theorem RowBits.compressMonitored : RowBits.Statement .compressMonitored := by
  intro _; decide

theorem RowBits.expand (p : Byte) : RowBits.Statement (.expand p) := by
  intro _; exact ⟨rfl, append_low_byte p opExpand⟩

theorem RowBits.start (v : CsrWord) : RowBits.Statement (.start v) := by
  intro _; exact ⟨rfl, by simp [encode, itemBits, rowOf]⟩

theorem RowBits.cmdWrite (v : CsrWord) : RowBits.Statement (.cmdWrite v) := by
  intro _; exact ⟨rfl, by simp [encode, itemBits, rowOf]⟩

theorem RowBits.csrRead (off : Byte) : RowBits.Statement (.csrRead off) := by
  intro _; exact ⟨rfl, Nat.and_zero _⟩

theorem RowBits.encTag : RowBits.Statement .encTag := by
  intro _; decide

theorem RowBits.encFirstEmpty : RowBits.Statement .encFirstEmpty := by
  intro _; decide

theorem RowBits.encFirstByte : RowBits.Statement .encFirstByte := by
  intro _; decide

theorem RowBits.encScanHit : RowBits.Statement .encScanHit := by
  intro _; decide

theorem RowBits.encScanMiss : RowBits.Statement .encScanMiss := by
  intro _; decide

theorem RowBits.encScanEnd : RowBits.Statement .encScanEnd := by
  intro _; decide

theorem RowBits.encStep : RowBits.Statement .encStep := by
  intro _; decide

theorem RowBits.encLast : RowBits.Statement .encLast := by
  intro _; decide

theorem RowBits.encEof : RowBits.Statement .encEof := by
  intro _; decide

theorem RowBits.decTag : RowBits.Statement .decTag := by
  intro _; decide

theorem RowBits.decFirstEof : RowBits.Statement .decFirstEof := by
  intro _; decide

theorem RowBits.decFirstLiteral : RowBits.Statement .decFirstLiteral := by
  intro _; decide

theorem RowBits.decFirstReserved : RowBits.Statement .decFirstReserved := by
  intro _; decide

theorem RowBits.decEmit : RowBits.Statement .decEmit := by
  intro _; decide

theorem RowBits.decReadLearn : RowBits.Statement .decReadLearn := by
  intro _; decide

theorem RowBits.decReadEof : RowBits.Statement .decReadEof := by
  intro _; decide

theorem RowBits.decReadReserved : RowBits.Statement .decReadReserved := by
  intro _; decide

theorem RowBits.decReset : RowBits.Statement .decReset := by
  intro _; decide

end Sys2Proof.Laws
end

