-- ==== Sys2Proof/Tests/Slice0.lean ====
section
/-! SUPPORT. Tests: ill-formed terms, words written out from the encodings, one step of each
instruction with results worked out from the rules (or from `95_test_vectors.md`, named V<n>), and for
each obligation with hypotheses a concrete state that meets them. -/

namespace Sys2Proof.Tests

open Sys2Proof Sys2Proof.Machine

/-! ### Small states -/

/-- A running encoder at a state of ST, with its remaining input. -/
def encAt (p : Phase) (inp : List Byte) : State := placeInput inp (placePhase .enc p .reset)

/-- A running decoder at a state of ST, with the bits of its remaining input. -/
def decAt (p : Phase) (bits : List Bool) : State := placeBits bits (placePhase .dec p .reset)

/-- A running decoder in D_READ at width 9 with N = `n` and PREV = 65, a codeword next. -/
def readAt (cw : Code) (n : Count) : State :=
  let s := decAt .dRead (bitsOf cw.toNat 9)
  { s with dec.prev := 65, wid.n := n }

/-- A view with nothing to see and N = 258. -/
def view258 : View := { inEmpty := true, lookup := none, next := none, n := 258 }

/-- The state after a step that answers one. -/
def after : Result → Option State
  | .next t => some t
  | .fault _ => none
  | .refused _ => none

/-- Whether an outcome is the refusal of a disabled instruction. -/
def isDisabled : Result → Bool
  | .refused .notEnabled => true
  | .refused _ => false
  | .next _ => false
  | .fault _ => false

/-! ### Well-formedness: each check refuses an ill-formed term -/

theorem test_wf_tagReserved : (Instr.tagReserved 0x6E).wf = false := by decide
theorem test_wf_tagReserved_r : (Instr.tagReserved 0x72).wf = false := by decide
theorem test_wf_tagReserved_m : (Instr.tagReserved 0x6D).wf = false := by decide
theorem test_wf_firstReserved_low : (Instr.firstReserved 256).wf = false := by decide
theorem test_wf_firstReserved_high : (Instr.firstReserved 512).wf = false := by decide
theorem test_wf_hit : (Instr.hit 256).wf = false := by decide
theorem test_wf_kwkwk : (Instr.kwkwk 256).wf = false := by decide
theorem test_wf_codeReserved : (Instr.codeReserved 257).wf = false := by decide
theorem test_wf_start : (Instr.start 2).wf = false := by decide
theorem test_wf_csrRead : (Instr.csrRead 0x09).wf = false := by decide

/-! ### Decoding: words written out from `30_encoding.md` R125 to R127, R136, R140 -/

theorem test_decode_tag8 :
    decode view258 (.tag8 0b01101110#8) = .instr .tagFrozen
      ∧ decode view258 (.tag8 0b01110010#8) = .instr .tagSaturate
      ∧ decode view258 (.tag8 0b01101101#8) = .instr .tagMonitored
      ∧ decode view258 (.tag8 0b00000000#8) = .instr (.tagReserved 0) := by decide

theorem test_decode_cw_first :
    decode view258 (.cwFirst 0b011111111#16) = .instr (.firstLiteral 255)
      ∧ decode view258 (.cwFirst 0b100000000#16) = .instr .firstEof
      ∧ decode view258 (.cwFirst 0b100000001#16) = .instr (.firstReserved 257)
      ∧ decode view258 (.cwFirst 0b111111111#16) = .instr (.firstReserved 511) := by decide

/-- The three classes meet at N = 258: 257 is a hit, 258 KWKWK, 259 reserved. -/
theorem test_decode_cw_read :
    decode view258 (.cwRead 0b100000000#16) = .instr .eof
      ∧ decode view258 (.cwRead 0b100000001#16) = .instr (.hit 257)
      ∧ decode view258 (.cwRead 0b100000010#16) = .instr (.kwkwk 258)
      ∧ decode view258 (.cwRead 0b100000011#16) = .instr (.codeReserved 259) := by decide

theorem test_decode_cmd16 :
    decode view258 (.cmd16 0b0110111000101101#16) = .instr .compressFrozen
      ∧ decode view258 (.cmd16 0b0111001000101101#16) = .instr .compressSaturate
      ∧ decode view258 (.cmd16 0b0110110100101101#16) = .instr .compressMonitored
      ∧ decode view258 (.cmd16 0b0000000000101011#16) = .instr (.expand 0)
      ∧ decode view258 (.cmd16 0b0111100000101101#16) = .reject (.badPolicy 0x78)
      ∧ decode view258 (.cmd16 0b0110111000101110#16) = .reject (.badOp 0x2E) := by decide

theorem test_decode_csr :
    decode view258 (.csr (.write 0b00000000#8 0b11#32)) = .instr (.start 3)
      ∧ decode view258 (.csr (.write 0b00000100#8 0x6E2D#32)) = .instr (.cmdWrite 0x6E2D)
      ∧ decode view258 (.csr (.read 0b00001000#8)) = .instr (.csrRead 8)
      ∧ decode view258 (.csr (.write 0b00000000#8 0b10#32)) = .reject .ignoredWrite
      ∧ decode view258 (.csr (.write 0b00001000#8 1#32)) = .reject .ignoredWrite
      ∧ decode view258 (.csr (.read 0b00000110#8)) = .reject .misaligned := by decide

/-- The encoder's states, under the guards each row names. -/
theorem test_decode_fsm_enc :
    decode view258 (.fsm 0b00100#5) = .instr .encTag
      ∧ decode view258 (.fsm 0b00101#5) = .instr .encFirstEmpty
      ∧ decode { view258 with inEmpty := false } (.fsm 0b00101#5) = .instr .encFirstByte
      ∧ decode { view258 with inEmpty := false, lookup := some 257 } (.fsm 0b00110#5)
          = .instr .encScanHit
      ∧ decode { view258 with inEmpty := false } (.fsm 0b00110#5) = .instr .encScanMiss
      ∧ decode view258 (.fsm 0b00110#5) = .instr .encScanEnd
      ∧ decode view258 (.fsm 0b00111#5) = .instr .encStep
      ∧ decode view258 (.fsm 0b01000#5) = .instr .encLast
      ∧ decode view258 (.fsm 0b01001#5) = .instr .encEof := by decide

/-- The decoder's states, under the guards each row names. -/
theorem test_decode_fsm_dec :
    decode view258 (.fsm 0b10000#5) = .instr .decTag
      ∧ decode { view258 with next := some 256 } (.fsm 0b10001#5) = .instr .decFirstEof
      ∧ decode { view258 with next := some 255 } (.fsm 0b10001#5) = .instr .decFirstLiteral
      ∧ decode { view258 with next := some 257 } (.fsm 0b10001#5) = .instr .decFirstReserved
      ∧ decode view258 (.fsm 0b10010#5) = .instr .decEmit
      ∧ decode { view258 with next := some 258 } (.fsm 0b10011#5) = .instr .decReadLearn
      ∧ decode { view258 with next := some 256 } (.fsm 0b10011#5) = .instr .decReadEof
      ∧ decode { view258 with next := some 259 } (.fsm 0b10011#5) = .instr .decReadReserved
      ∧ decode view258 (.fsm 0b10100#5) = .instr .decReset := by decide

/-- IDLE, DONE and ERROR fire nothing, and 3, 10, 15, 21 and 31 are reserved (R140, R141). -/
theorem test_decode_fsm_none :
    decode view258 (.fsm 0#5) = .reject .waiting ∧ decode view258 (.fsm 1#5) = .reject .waiting
      ∧ decode view258 (.fsm 2#5) = .reject .waiting
      ∧ decode view258 (.fsm 3#5) = .reject .reservedState
      ∧ decode view258 (.fsm 10#5) = .reject .reservedState
      ∧ decode view258 (.fsm 15#5) = .reject .reservedState
      ∧ decode view258 (.fsm 21#5) = .reject .reservedState
      ∧ decode view258 (.fsm 31#5) = .reject .reservedState := by decide

/-- The wire order: 65 at width 9 is 0 0100 0001, and `20 c0` holds 65@9 then 0b1000000 (V10). -/
theorem test_wire_order :
    bitsOf 65 9 = [false, false, true, false, false, false, false, false, true]
      ∧ packBytes (bitsOf 0x6E 8 ++ bitsOf 65 9 ++ bitsOf 256 9) = [0x6E, 0x20, 0xC0, 0x00]
      ∧ bitsValue (streamBits [0x6E, 0x20, 0xC0, 0x00] 8 9) = 65
      ∧ bitsValue (streamBits [0x6E, 0x20, 0xC0, 0x00] 17 9) = 256 := by decide

/-! ### Host commands: one step each (`45_host_commands.md`) -/

theorem test_csrRead_status :
    (after (exec (.csrRead 0x08) (decAt .dRead []))).map (·.host.rdata) = some 0x00041301 := by decide

theorem test_csrRead_width_after_reset :
    (after (exec (.csrRead 0x0C) .reset)).map (·.host.rdata) = some 0x00020009 := by decide

theorem test_cmdWrite :
    (after (exec (.cmdWrite 0xABCD6E2D) .reset)).map (·.ctl.cmd) = some 0x6E2D := by decide

/-- BAD_OP is tested before BAD_POLICY: OP '.' with POLICY 'x' (R333). -/
theorem test_start_bad_op :
    (after (exec (.start 1) { State.reset with ctl.cmd := 0x782E })).map
        (fun t => (t.ctl.st, t.err.cause, t.err.detail, t.err.cw, t.err.n))
      = some (.error, 1, 1, 0x2E, 257) := by decide

theorem test_start_bad_policy :
    (after (exec (.start 1) { State.reset with ctl.cmd := 0x782D })).map
        (fun t => (t.ctl.st, t.err.cause, t.err.detail, t.err.cw, t.ctl.error))
      = some (.error, 1, 2, 0x78, true) := by decide

theorem test_compressFrozen :
    (after (exec .compressFrozen { State.reset with ctl.cmd := 0x6E2D })).map
        (fun t => (t.ctl.st, t.ctl.pol, t.ctl.busy)) = some (.eTag, .frozen, true) := by decide

theorem test_compressSaturate :
    (after (exec .compressSaturate { State.reset with ctl.cmd := 0x722D })).map
        (fun t => (t.ctl.st, t.ctl.pol, t.ctl.busy)) = some (.eTag, .saturate, true) := by decide

theorem test_compressMonitored :
    (after (exec .compressMonitored { State.reset with ctl.cmd := 0x6D2D })).map
        (fun t => (t.ctl.st, t.ctl.pol, t.ctl.busy)) = some (.eTag, .monitored, true) := by decide

/-- POL keeps its old value through an expand's START (R333). -/
theorem test_expand :
    (after (exec (.expand 0xFF) { State.reset with ctl.cmd := 0xFF2B, ctl.pol := .monitored })).map
        (fun t => (t.ctl.st, t.ctl.side, t.ctl.pol)) = some (.dTag, .dec, .monitored) := by decide

theorem test_command_word_must_match :
    isDisabled (exec .compressFrozen State.reset) = true := by decide

/-! ### Encoder transitions: one step each (`40_encoder.md`) -/

theorem test_encTag :
    (after (exec .encTag (encAt .eTag []))).map (fun t => (t.ctl.st, t.port.ob, t.cnt.cwCount))
      = some (.eFirst, [false, true, true, false, true, true, true, false], 0) := by decide

theorem test_encFirstEmpty :
    (after (exec .encFirstEmpty (encAt .eFirst []))).map (·.ctl.st) = some .eEof := by decide

theorem test_encFirstByte :
    (after (exec .encFirstByte (encAt .eFirst [0xFF, 0x41]))).map
        (fun t => (t.ctl.st, t.enc.cur, t.enc.curLen, t.port.ip)) = some (.eScan, 255, 1, 1) := by decide

theorem test_encScanHit :
    (after (exec .encScanHit
        { encAt .eScan [0x42] with
          enc := { cur := 65, curLen := 1, nxt := 0 }
          mem := { tab := [], dict := [(256 * 65 + 0x42, 257)] } })).map
        (fun t => (t.ctl.st, t.enc.cur, t.enc.curLen, t.port.ip)) = some (.eScan, 257, 2, 1) := by
  decide

theorem test_encScanMiss :
    (after (exec .encScanMiss
        { encAt .eScan [0x43] with
          enc := { cur := 65, curLen := 1, nxt := 0 }
          mem := { tab := [], dict := [(256 * 65 + 0x42, 257)] } })).map
        (fun t => (t.ctl.st, t.enc.cur, t.enc.nxt, t.port.ip)) = some (.eStep, 65, 0x43, 1) := by
  decide

theorem test_encScanEnd :
    (after (exec .encScanEnd (encAt .eScan []))).map (·.ctl.st) = some .eLast := by decide

/-- The first data step of V11 (input AB): 65@9 goes out, (65, 'B') maps to 257. -/
theorem test_encStep :
    (after (exec .encStep
        { encAt .eStep [] with enc := { cur := 65, curLen := 1, nxt := 0x42 } })).map
        (fun t => (t.port.ob, t.mem.dict, t.wid.n, t.enc.cur, t.ctl.st))
      = some ([false, false, true, false, false, false, false, false, true],
          [(256 * 65 + 0x42, 257)], 258, 66, .eScan) := by decide

/-- The first promotion (`40_encoder.md` R172): from N = 511 the key ends at 512, N = 513, W = 10. -/
theorem test_encStep_promotes :
    (after (exec .encStep
        { encAt .eStep [] with
          enc := { cur := 65, curLen := 1, nxt := 0x42 }, wid := { w := 9, l := 512, n := 511 } })).map
        (fun t => (t.mem.dict, t.wid, t.port.ob.length))
      = some ([(256 * 65 + 0x42, 512)], { w := 10, l := 1024, n := 513 }, 9) := by decide

/-- SATURATE at the ceiling: the step that fills the code space reinitializes (R166, R272). -/
theorem test_encLast_reinitializes :
    (after (exec .encLast
        { encAt .eLast [] with
          ctl.pol := .saturate
          enc := { cur := 65, curLen := 1, nxt := 0 }
          wid := { w := 16, l := 65536, n := 65535 } })).map
        (fun t => (t.wid, t.cnt.gen, t.port.ob.length, t.ctl.st))
      = some ({ w := 9, l := 512, n := 257 }, 1, 16, .eEof) := by decide

/-- V10's last data step: the counter advances, no key is mapped (R167). -/
theorem test_encLast :
    (after (exec .encLast
        { encAt .eLast [] with enc := { cur := 65, curLen := 1, nxt := 0 } })).map
        (fun t => (t.wid.n, t.mem.dict, t.cnt.cwCount)) = some (258, [], 1) := by decide

/-- V1: after the tag 'n', EOF at width 9 and padding give 6e 80 00. -/
theorem test_encEof :
    (after (exec .encEof { encAt .eEof [] with port.ob := bitsOf 0x6E 8 })).map
        (fun t => (outBytes t, t.ctl.st, t.ctl.busy, t.ctl.done))
      = some ([0x6E, 0x80, 0x00], .done, false, true) := by decide

/-! ### Decoder transitions and wire items: one step each (`41_decoder.md`) -/

theorem test_tagFrozen :
    (after (exec .tagFrozen (decAt .dTag (bitsOf 0x6E 8)))).map
        (fun t => (t.ctl.st, t.ctl.pol, t.port.bp)) = some (.dFirst, .frozen, 8) := by decide

theorem test_tagSaturate :
    (after (exec .tagSaturate (decAt .dTag (bitsOf 0x72 8)))).map
        (fun t => (t.ctl.st, t.ctl.pol, t.port.bp)) = some (.dFirst, .saturate, 8) := by decide

theorem test_tagMonitored :
    (after (exec .tagMonitored (decAt .dTag (bitsOf 0x6D 8)))).map
        (fun t => (t.ctl.st, t.ctl.pol, t.port.bp)) = some (.dFirst, .monitored, 8) := by decide

theorem test_tagReserved :
    (after (exec (.tagReserved 0x78) (decAt .dTag (bitsOf 0x78 8)))).map
        (fun t => (t.ctl.st, t.err.cause, t.err.detail, t.err.cw, t.port.bp))
      = some (.error, 2, 3, 0x78, 8) := by decide

theorem test_decTag_truncated :
    (after (exec .decTag (decAt .dTag []))).map
        (fun t => (t.ctl.st, t.err.cause, t.err.detail, t.err.cw, t.port.bp))
      = some (.error, 2, 4, 0, 0) := by decide

theorem test_firstLiteral :
    (after (exec (.firstLiteral 0x41) (decAt .dFirst (bitsOf 0x41 9)))).map
        (fun t => (t.ctl.st, t.dec, t.port.bp, t.cnt.cwCount))
      = some (.dEmit, { prev := 0x41, cw := 0x41 }, 9, 1) := by decide

/-- Under MONITORED the first literal adds 8 to ACC_NUM and 9 to ACC_DEN (R202, R276). -/
theorem test_decFirstLiteral_monitored :
    (after (exec .decFirstLiteral
        { decAt .dFirst (bitsOf 0x41 9) with ctl.pol := .monitored })).map
        (fun t => (t.arb.accNum, t.arb.accDen)) = some (8, 9) := by decide

theorem test_firstEof :
    (after (exec .firstEof (decAt .dFirst (bitsOf 256 9)))).map
        (fun t => (t.ctl.st, outBytes t, t.cnt.cwCount)) = some (.done, [], 1) := by decide

theorem test_decFirstEof_truncated :
    (after (exec .decFirstEof (decAt .dFirst (bitsOf 0 8)))).map
        (fun t => (t.ctl.st, t.err.detail, t.cnt.cwCount)) = some (.error, 4, 0) := by decide

theorem test_firstReserved :
    (after (exec (.firstReserved 300) (decAt .dFirst (bitsOf 300 9)))).map
        (fun t => (t.ctl.st, t.err, t.dec.cw, t.port.bp))
      = some (.error, { cause := 2, detail := 2, cw := 300, n := 257 }, 300, 9) := by decide

theorem test_decFirstReserved :
    (after (exec .decFirstReserved (decAt .dFirst (bitsOf 257 9)))).map
        (fun t => (t.ctl.st, t.err.cw)) = some (.error, 257) := by decide

theorem test_decEmit :
    (after (exec .decEmit
        { decAt .dEmit [] with
          dec.prev := 257, mem := { tab := [(257, ⟨65, 66, 65, 2⟩)], dict := [] } })).map
        (fun t => (t.ctl.st, outBytes t)) = some (.dRead, [65, 66]) := by decide

/-- V11's second codeword, 66 read at N = 257 with PREV = 65: TAB[257] = "AB". -/
theorem test_hit :
    (after (exec (.hit 66) (readAt 66 257))).map
        (fun t => (t.mem.tab, t.wid.n, t.dec.prev, t.ctl.st))
      = some ([(257, ⟨65, 66, 65, 2⟩)], 258, 66, .dEmit) := by decide

/-- V4: 257 read at N = 257 with PREV = 65 learns "AA". -/
theorem test_kwkwk :
    (after (exec (.kwkwk 257) (readAt 257 257))).map
        (fun t => (t.mem.tab, t.wid.n, t.dec.prev, t.ctl.st))
      = some ([(257, ⟨65, 65, 65, 2⟩)], 258, 257, .dEmit) := by decide

/-- The decoder promotes one entry earlier (`41_decoder.md` R205, step 3d): N = 510 learns 510, fills
the waste slot 511, and goes on at width 10 with N = 512. -/
theorem test_decReadLearn_promotes :
    (after (exec .decReadLearn (readAt 66 510))).map (fun t => (t.mem.tab.map (·.1), t.wid))
      = some ([510, 511], { w := 10, l := 1024, n := 512 }) := by decide

/-- SATURATE at the decoder's ceiling N = 65535: on to D_RESET (R205, R254). -/
theorem test_decReadLearn_ceiling :
    (after (exec .decReadLearn { placeRead 66 65534 .reset with ctl.pol := .saturate })).map
        (fun t => (t.ctl.st, t.wid.n)) = some (.dReset, 65535) := by decide

theorem test_eof :
    (after (exec .eof (readAt 256 300))).map (fun t => (t.ctl.st, t.ctl.done, t.port.bp))
      = some (.done, true, 9) := by decide

theorem test_decReadEof_not_hit : isDisabled (exec (.hit 256) (readAt 256 300)) = true := by decide

theorem test_codeReserved :
    (after (exec (.codeReserved 259) (readAt 259 258))).map (fun t => (t.ctl.st, t.err, t.dec.prev))
      = some (.error, { cause := 2, detail := 1, cw := 259, n := 258 }, 65) := by decide

theorem test_decReadReserved :
    (after (exec .decReadReserved (readAt 511 510))).map (fun t => (t.ctl.st, t.err.cw))
      = some (.error, 511) := by decide

theorem test_decReset :
    (after (exec .decReset
        { decAt .dReset [] with
          ctl.pol := .saturate, dec.prev := 65, wid := { w := 16, l := 65536, n := 65535 } })).map
        (fun t => (t.ctl.st, outBytes t, t.wid, t.cnt.gen))
      = some (.dFirst, [65], { w := 9, l := 512, n := 257 }, 1) := by decide

/-! ### The Monitored comparison (`43_reset_policy.md` R278; V50) -/

theorem test_threshold_bits : f64Bits threshold = 0x3FF199999999999A := by decide

/-- 11 to 10 is the threshold itself, as rationals: not degraded; one bit more is (R274). -/
theorem test_degraded_exact :
    degraded .exact 11 10 1 1 = false ∧ degraded .exact 111 100 1 1 = true := by decide

theorem test_degraded_binary64 :
    degraded .binary64 3 1 2 1 = true ∧ degraded .binary64 1 1 1 1 = false := by decide

/-- 1/3 rounds to 0x3FD5555555555555 (general knowledge of IEEE 754). -/
theorem test_third_bits : f64Bits (fdiv (cvt 1) (cvt 3)) = 0x3FD5555555555555 := by decide

/-! ### Table words (log 18, log 21) -/

theorem test_table_words :
    decodeTableWord 8 0x6E = some .tagFrozen ∧ decodeTableWord 16 0x6E2D = some .compressFrozen
      ∧ decodeTableWord 16 0x0100 = some .eof ∧ decodeTableWord 8 0x07 = some .encStep
      ∧ decodeTableWord 40 0x100 = some (.start 1) := by decide

theorem test_fetch_word :
    (after (step (State.reset.withFetchWord 8 0x14))).map (fun t => (t.ctl.st, t.cnt.gen))
      = some (.dFirst, 1) := by decide

/-! ### Witnesses: for each obligation with hypotheses, states and operands that meet them -/

/-- An idle machine whose host has one pending action. -/
def pendingAt (a : HostAction) : State := { State.reset with host.pending := [a] }

/-- An idle machine with a value in CMD. -/
def commandAt (c : BitVec 16) : State := { State.reset with ctl.cmd := c }

/-- An encoder about to emit CUR = 65 with N = `n` at width 9. -/
def emitAt (p : Phase) (n : Count) : State :=
  { encAt p [] with enc := { cur := 65, curLen := 1, nxt := 0x42 }, wid.n := n }

/-- The same at the ceiling under SATURATE. -/
def ceilingAt (p : Phase) : State :=
  { encAt p [] with
    ctl.pol := .saturate
    enc := { cur := 65, curLen := 1, nxt := 0x42 }
    wid := { w := 16, l := 65536, n := 65535 } }

/-- MONITORED with a nearly full ACC_NUM. -/
def fullAt (s : State) : State :=
  { s with ctl.pol := .monitored, arb.accNum := 0xFFFFFFFFFFFFFFF8 }

theorem emitAt_width (p : Phase) (n : Count) (h : 257 ≤ n.toNat) (h' : n.toNat ≤ 512) :
    WidthInv (emitAt p n) :=
  ⟨(by decide : 9 ≤ (9#5).toNat), (by decide : (9#5).toNat ≤ 16), rfl, h, h',
    by change 512 ≤ 2 * n.toNat; omega, (fun h => by cases h)⟩

theorem ceilingAt_width (p : Phase) : WidthInv (ceilingAt p) :=
  ⟨(by decide : 9 ≤ (16#5).toNat), (by decide : (16#5).toNat ≤ 16), rfl,
    (by decide : 257 ≤ (65535#17).toNat), (by decide : (65535#17).toNat ≤ (65536#17).toNat),
    (by decide : (65536#17).toNat ≤ 2 * (65535#17).toNat), (fun h => by cases h)⟩

theorem readAt_width (cw : Code) (n : Count) (h : 257 ≤ n.toNat) (h' : n.toNat ≤ 510) :
    WidthInv (readAt cw n) :=
  ⟨(by decide : 9 ≤ (9#5).toNat), (by decide : (9#5).toNat ≤ 16), rfl, h,
    by change n.toNat ≤ 512; omega, by change 512 ≤ 2 * n.toNat; omega,
    fun _ _ => by change n.toNat + 2 ≤ 512; omega⟩

/-- An encoder right before its first data step meets the invariant. -/
theorem emitAt_inv : Inv (emitAt .eStep 257) := by
  refine ⟨by constructor <;> decide, emitAt_width _ _ (by decide) (by decide), ?_, ?_, ?_, ?_,
    by decide, by decide⟩
  · constructor <;> decide
  · constructor <;> decide
  · refine ⟨by decide, fun _ p b k h => ?_, by decide⟩
    cases h
  · exact ⟨by decide, (fun h => by cases h), by decide⟩

/-- A decoder right before its second codeword meets the invariant. -/
theorem readAt_inv : Inv (readAt 66 257) := by
  refine ⟨by constructor <;> decide, readAt_width _ _ (by decide) (by decide), ?_, ?_, ?_, ?_,
    by decide, by decide⟩
  · constructor <;> decide
  · constructor <;> decide
  · exact ⟨by decide, (fun h => by cases h), by decide⟩
  · refine ⟨by decide, fun _ j h1 h2 => ?_, by decide⟩
    have : (readAt 66 257).wid.n.toNat = 257 := rfl
    omega

theorem witness_HardwareResetSetsEveryRegister :
    (pendingAt .hardwareReset).host.pending = .hardwareReset :: [] := by decide

theorem witness_CsrReadHasNoSideEffect :
    (0x00 : Byte).toNat % 4 = 0 ∧ (0x44 : Byte).toNat % 4 = 0 ∧ (0x48 : Byte).toNat % 4 = 0
      ∧ (0xFC : Byte).toNat % 4 = 0 ∧ 0x48 ≤ (0x48 : Byte).toNat ∧ 0x48 ≤ (0xFC : Byte).toNat := by
  decide

theorem witness_WritesWithoutEffectDoNothing :
    ((pendingAt (.csr (.write 0x00 2))).host.pending = .csr (.write 0x00 2) :: []
        ∧ (2 : CsrWord).getLsbD 0 = false)
      ∧ ((pendingAt (.csr (.write 0x08 1))).host.pending = .csr (.write 0x08 1) :: []
        ∧ (0x08 : Byte).toNat % 4 = 0 ∧ (0x08 : Byte).toNat ≠ 4)
      ∧ (pendingAt (.csr (.write 0xFC 1))).host.pending = .csr (.write 0xFC 1) :: []
        ∧ (0xFC : Byte).toNat % 4 = 0 ∧ (0xFC : Byte).toNat ≠ 4 := by decide

theorem witness_MisalignedOffsetsAreRefused :
    (0x01 : Byte).toNat % 4 ≠ 0 ∧ (0xFF : Byte).toNat % 4 ≠ 0
      ∧ (pendingAt (.csr (.read 0x01))).host.pending = .csr (.read 0x01) :: []
      ∧ (pendingAt (.csr (.write 0xFF 1))).host.pending = .csr (.write 0xFF 1) :: [] := by decide

theorem witness_CmdWriteSetsCmdWhileIdle :
    State.reset.ctl.busy = false ∧ (encAt .eScan []).ctl.busy = true := by decide

theorem witness_StartIsIgnoredWhileBusy :
    (encAt .eScan []).ctl.busy = true ∧ (1 : CsrWord).getLsbD 0 = true
      ∧ ({ encAt .eScan [] with ctl.cmd := 0x6E2D }).ctl.busy = true
      ∧ ({ encAt .eScan [] with ctl.cmd := 0x722D }).ctl.cmd = 0x722D
      ∧ ({ encAt .eScan [] with ctl.cmd := 0x6D2D }).ctl.cmd = 0x6D2D
      ∧ ({ encAt .eScan [] with ctl.cmd := 0xFF2B }).ctl.cmd
        = ((0xFF : Byte) ++ (0x2B : Byte) : BitVec 16) := by decide

theorem witness_StartBeginsThePassOfCmd :
    (1 : CsrWord).getLsbD 0 = true ∧ (commandAt 0x6E2D).ctl.busy = false
      ∧ (cmdOp 0x6E2D = 0x2D ∧ cmdPolicy 0x6E2D = Policy.frozen.tag)
      ∧ (cmdOp 0x722D = 0x2D ∧ cmdPolicy 0x722D = Policy.saturate.tag)
      ∧ (cmdOp 0x6D2D = 0x2D ∧ cmdPolicy 0x6D2D = Policy.monitored.tag)
      ∧ cmdOp 0x002B = 0x2B
      ∧ (cmdOp 0x782D = 0x2D ∧ cmdPolicy 0x782D ≠ Policy.frozen.tag
        ∧ cmdPolicy 0x782D ≠ Policy.saturate.tag ∧ cmdPolicy 0x782D ≠ Policy.monitored.tag)
      ∧ (cmdOp 0x6E2C ≠ 0x2D ∧ cmdOp 0x6E2C ≠ 0x2B) := by decide

theorem witness_CommandWordsStartTheirPass :
    (commandAt 0x6E2D).ctl.busy = false ∧ (commandAt 0x6E2D).ctl.cmd = 0x6E2D
      ∧ (commandAt 0x722D).ctl.cmd = 0x722D ∧ (commandAt 0x6D2D).ctl.cmd = 0x6D2D
      ∧ (commandAt 0xFF2B).ctl.cmd = (0xFF : Byte) ++ (0x2B : Byte)
      ∧ ((0x6E2C#16).extractLsb' 0 8 ≠ 0x2D ∧ (0x6E2C#16).extractLsb' 0 8 ≠ 0x2B)
      ∧ ((0x782D#16).extractLsb' 0 8 = 0x2D ∧ (0x782D#16).extractLsb' 8 8 ≠ 0x6E
        ∧ (0x782D#16).extractLsb' 8 8 ≠ 0x72 ∧ (0x782D#16).extractLsb' 8 8 ≠ 0x6D) := by decide

theorem witness_EncTagWritesTheModeTag : (encAt .eTag []).ctl.st = .eTag := by decide

theorem witness_EncFirstTakesTheFirstByte :
    ((encAt .eFirst []).ctl.st = .eFirst
        ∧ (encAt .eFirst []).port.inp.length ≤ (encAt .eFirst []).port.ip)
      ∧ (encAt .eFirst [0xFF]).ctl.st = .eFirst
        ∧ (encAt .eFirst [0xFF]).port.inp[(encAt .eFirst [0xFF]).port.ip]? = some 0xFF := by decide

theorem witness_EncScanExtendsOrEndsTheMatch :
    ((encAt .eScan [0x42]).ctl.st = .eScan ∧ (encAt .eScan [0x42]).port.inp[0]? = some 0x42
        ∧ dictLookup { tab := [], dict := [(0x42, 257)] } 0 0x42 = some 257)
      ∧ (dictLookup (encAt .eScan [0x42]).mem (encAt .eScan [0x42]).enc.cur 0x42 = none)
      ∧ (encAt .eScan []).ctl.st = .eScan
        ∧ (encAt .eScan []).port.inp.length ≤ (encAt .eScan []).port.ip := by decide

/-- E_STEP in the middle of a generation, at a promotion, and at a reinitializing ceiling sample. -/
theorem witness_EncStepEmitsLearnsAndConsults :
    (WidthInv (emitAt .eStep 511) ∧ (emitAt .eStep 511).ctl.st = .eStep
        ∧ (emitAt .eStep 511).ctl.side = .enc
        ∧ (emitAt .eStep 511).enc.cur.toNat < (emitAt .eStep 511).wid.l.toNat
        ∧ accFits (emitAt .eStep 511).enc.curLen.toNat (emitAt .eStep 511) = true
        ∧ reinitializes 1 (emitAt .eStep 511) = false)
      ∧ WidthInv (ceilingAt .eStep) ∧ (ceilingAt .eStep).ctl.st = .eStep
        ∧ (ceilingAt .eStep).ctl.side = .enc
        ∧ (ceilingAt .eStep).enc.cur.toNat < (ceilingAt .eStep).wid.l.toNat
        ∧ accFits (ceilingAt .eStep).enc.curLen.toNat (ceilingAt .eStep) = true
        ∧ reinitializes 1 (ceilingAt .eStep) = true :=
  ⟨⟨emitAt_width _ _ (by decide) (by decide), by decide⟩, ceilingAt_width _, by decide⟩

theorem witness_EncLastAdvancesTheCounterOnly :
    (WidthInv (emitAt .eLast 512) ∧ (emitAt .eLast 512).ctl.st = .eLast
        ∧ (emitAt .eLast 512).ctl.side = .enc
        ∧ (emitAt .eLast 512).enc.cur.toNat < (emitAt .eLast 512).wid.l.toNat
        ∧ accFits (emitAt .eLast 512).enc.curLen.toNat (emitAt .eLast 512) = true
        ∧ reinitializes 1 (emitAt .eLast 512) = false)
      ∧ WidthInv (ceilingAt .eLast) ∧ (ceilingAt .eLast).ctl.st = .eLast
        ∧ (ceilingAt .eLast).ctl.side = .enc
        ∧ (ceilingAt .eLast).enc.cur.toNat < (ceilingAt .eLast).wid.l.toNat
        ∧ accFits (ceilingAt .eLast).enc.curLen.toNat (ceilingAt .eLast) = true
        ∧ reinitializes 1 (ceilingAt .eLast) = true :=
  ⟨⟨emitAt_width _ _ (by decide) (by decide), by decide⟩, ceilingAt_width _, by decide⟩

theorem witness_EncEofClosesTheStream : (encAt .eEof []).ctl.st = .eEof := by decide

theorem witness_DecTagSelectsThePolicy :
    ((decAt .dTag (bitsOf 0x6E 8)).ctl.st = .dTag
        ∧ nextTag (decAt .dTag (bitsOf 0x6E 8)) = some Policy.frozen.tag)
      ∧ nextTag (decAt .dTag (bitsOf 0x72 8)) = some Policy.saturate.tag
      ∧ nextTag (decAt .dTag (bitsOf 0x6D 8)) = some Policy.monitored.tag
      ∧ nextTag (decAt .dTag (bitsOf 0xFF 8)) = some 0xFF
      ∧ nextTag (decAt .dTag []) = none := by decide

theorem witness_FirstCodewordEndsStartsOrFaults :
    ((decAt .dFirst (bitsOf 256 9)).ctl.st = .dFirst
        ∧ nextCode (decAt .dFirst (bitsOf 256 9)) = some 256)
      ∧ (nextCode (decAt .dFirst (bitsOf 255 9)) = some ((255 : Byte).setWidth 16)
        ∧ accFits 1 (decAt .dFirst (bitsOf 255 9)) = true)
      ∧ accFits 1 (fullAt (decAt .dFirst (bitsOf 255 9))) = false
      ∧ nextCode (decAt .dFirst (bitsOf 257 9)) = some 257
      ∧ nextCode (decAt .dFirst (bitsOf 0 8)) = none := by decide

theorem witness_DecEmitWritesTheString :
    (decAt .dEmit []).ctl.st = .dEmit
      ∧ str (decAt .dEmit []).mem (decAt .dEmit []).dec.prev = some [0] := by decide

/-- D_READ with a hit at the last entry, with KWKWK, and with KWKWK at a promotion. -/
theorem witness_DecReadLearnsOneEntry :
    (WidthInv (readAt 66 257) ∧ (readAt 66 257).ctl.st = .dRead ∧ (readAt 66 257).ctl.side = .dec
        ∧ (readAt 66 257).mem.wf = true ∧ nextCode (readAt 66 257) = some 66
        ∧ (tabRead (readAt 66 257).mem 66).first = 66
        ∧ (tabRead (readAt 66 257).mem 66).len.toNat = 1 ∧ accFits 1 (readAt 66 257) = true)
      ∧ WidthInv (readAt 510 510) ∧ nextCode (readAt 510 510) = some 510
        ∧ (tabRead (readAt 510 510).mem (readAt 510 510).dec.prev).first = 65
        ∧ accFits 2 (readAt 510 510) = true :=
  ⟨⟨readAt_width _ _ (by decide) (by decide), by decide⟩,
    readAt_width _ _ (by decide) (by decide), by decide⟩

theorem witness_DecReadEndsOrFaults :
    ((readAt 256 257).ctl.st = .dRead ∧ nextCode (readAt 256 257) = some 256)
      ∧ nextCode (readAt 258 257) = some 258 ∧ (readAt 258 257).wid.n.toNat < 258
      ∧ nextCode (decAt .dRead (bitsOf 0 8)) = none := by decide

theorem witness_DecResetWritesThenReinitializes :
    (decAt .dReset []).ctl.st = .dReset ∧ (decAt .dReset []).ctl.side = .dec
      ∧ str (decAt .dReset []).mem (decAt .dReset []).dec.prev = some [0] := by decide

/-- Eight bits are too few for a codeword of nine, and none too few for a tag. -/
theorem witness_ShortReadRaisesTruncated :
    ((decAt .dTag []).ctl.st = .dTag
        ∧ 8 * (decAt .dTag []).port.inp.length < (decAt .dTag []).port.bp + 8)
      ∧ ((decAt .dFirst (bitsOf 0 8)).ctl.st = .dFirst
        ∧ 8 * (decAt .dFirst (bitsOf 0 8)).port.inp.length
          < (decAt .dFirst (bitsOf 0 8)).port.bp + (decAt .dFirst (bitsOf 0 8)).wid.w.toNat)
      ∧ (decAt .dRead (bitsOf 0 8)).ctl.st = .dRead
        ∧ 8 * (decAt .dRead (bitsOf 0 8)).port.inp.length
          < (decAt .dRead (bitsOf 0 8)).port.bp + (decAt .dRead (bitsOf 0 8)).wid.w.toNat := by
  decide

theorem witness_FaultEntryLatchesAndStops :
    (readAt 259 258).ctl.st ≠ .error
      ∧ (after (exec .decReadReserved (readAt 259 258))).map (·.ctl.st) = some .error := by decide

theorem witness_ErrorIsLeftOnlyByStartOrReset :
    ControlInv (raiseFault .badTag 0 State.reset)
      ∧ (raiseFault .badTag 0 State.reset).ctl.st = .error
      ∧ (after (step (raiseFault .badTag 0 State.reset))).map (·.ctl.st) = some .error :=
  ⟨by constructor <;> decide, by decide⟩

theorem witness_OverflowChecksRaiseWidthOverflow :
    (let s := { encAt .eStep [] with enc.cur := 512 };
      s.ctl.st = .eStep ∧ s.wid.l.toNat ≤ s.enc.cur.toNat)
      ∧ (let s := { encAt .eLast [] with enc.cur := 512 };
      s.ctl.st = .eLast ∧ s.wid.l.toNat ≤ s.enc.cur.toNat)
      ∧ ((emitAt .eStep 513).enc.cur.toNat < (emitAt .eStep 513).wid.l.toNat
        ∧ (emitAt .eStep 513).wid.l.toNat < (emitAt .eStep 513).wid.n.toNat
        ∧ (emitAt .eStep 513).ctl.side = .enc ∧ (emitAt .eLast 513).ctl.st = .eLast)
      ∧ (readAt 66 513).ctl.st = .dRead ∧ (readAt 66 513).ctl.side = .dec
        ∧ nextCode (readAt 66 513) = some 66
        ∧ (readAt 66 513).wid.l.toNat < (readAt 66 513).wid.n.toNat := by decide

/-- A full ACC_NUM at each of the four transitions that accumulate, and a full ACC_DEN. -/
theorem witness_AccumulatorOverflowStopsTheStep :
    (WidthInv (fullAt (emitAt .eStep 257)) ∧ (fullAt (emitAt .eStep 257)).mem.wf = true
        ∧ accFits 1 (fullAt (emitAt .eStep 257)) = false
        ∧ accFits 1 (fullAt (emitAt .eLast 257)) = false)
      ∧ (accFits 1 (fullAt (decAt .dFirst (bitsOf 65 9))) = false
        ∧ nextCode (fullAt (decAt .dFirst (bitsOf 65 9))) = some 65)
      ∧ (accFits 1 (fullAt (readAt 66 257)) = false ∧ nextCode (fullAt (readAt 66 257)) = some 66)
      ∧ accFits 1 { emitAt .eStep 257 with
          ctl.pol := .monitored, arb.accDen := 0xFFFFFFFFFFFFFFF7 } = false :=
  ⟨⟨(emitAt_width .eStep 257 (by decide) (by decide)).frame rfl rfl, by decide⟩, by decide,
    by decide, by decide⟩

theorem witness_DisabledInstructionsAreRefused :
    State.reset.ctl.st ≠ .dTag ∧ State.reset.ctl.st ≠ .dFirst ∧ State.reset.ctl.st ≠ .dRead
      ∧ nextTag (decAt .dTag (bitsOf 0x6E 8)) ≠ some 0x72
      ∧ nextCode (readAt 66 257) ≠ some 67
      ∧ State.reset.ctl.cmd ≠ 0x6E2D ∧ State.reset.ctl.cmd ≠ 0x722D ∧ State.reset.ctl.cmd ≠ 0x6D2D
      ∧ State.reset.ctl.cmd ≠ (0x00 : Byte) ++ (0x2B : Byte) := by decide

/-- An entry that is its own prefix: no string (log 13). -/
theorem witness_DisabledInstructionsAreRefused_string :
    str { tab := [(300, ⟨300, 0, 0, 2⟩)], dict := [] } 300 = none := by
  have key : ∀ f, strFuel { tab := [(300, ⟨300, 0, 0, 2⟩)], dict := [] } f 300 = none := by
    intro f
    induction f with
    | zero => rfl
    | succ f ih =>
      have e : tabRead { tab := [(300, ⟨300, 0, 0, 2⟩)], dict := [] } 300 = ⟨300, 0, 0, 2⟩ := by
        decide
      rw [strFuel, e, ih]
      rfl
  exact key _

theorem witness_WidthTestsFollowTheSideOffset :
    ((encAt .eStep []).ctl.side = .enc ∧ (decAt .dRead []).ctl.side = .dec)
      ∧ WidthInv { ceilingAt .eStep with wid := { w := 16, l := 65536, n := 65536 } }
      ∧ atCeiling { ceilingAt .eStep with wid := { w := 16, l := 65536, n := 65536 } } = true :=
  ⟨by decide, ⟨by decide, by decide, by decide, by decide, by decide, by decide,
    (fun h => by cases h)⟩, by decide⟩

theorem witness_WidthNeverFallsWithinAGeneration :
    Inv (emitAt .eStep 257) ∧ (emitAt .eStep 257).ctl.busy = true
      ∧ (after (step (emitAt .eStep 257))).map (·.ctl.busy) = some true :=
  ⟨emitAt_inv, by decide⟩

theorem witness_ArbiterDecidesByPolicy :
    (encAt .eStep []).ctl.pol = .frozen ∧ (ceilingAt .eStep).ctl.pol = .saturate
      ∧ (fullAt (emitAt .eStep 257)).ctl.pol = .monitored
      ∧ (fullAt (emitAt .eStep 257)).arb.baseValid = false
      ∧ ({ fullAt (emitAt .eStep 257) with arb.baseValid := true }).arb.baseValid = true := by decide

theorem witness_AccumulateAddsOrFaults :
    (let s := fullAt (emitAt .eStep 257);
      s.ctl.pol = .monitored ∧ s.arb.accNum.toNat + 8 * 0 < 2 ^ 64 ∧ s.arb.accDen.toNat + 9 < 2 ^ 64
        ∧ 2 ^ 64 ≤ s.arb.accNum.toNat + 8 * 1)
      ∧ (let s := { emitAt .eStep 257 with
            ctl.pol := .monitored, arb.accDen := 0xFFFFFFFFFFFFFFF7 };
        s.arb.accNum.toNat + 8 * 1 < 2 ^ 64 ∧ 2 ^ 64 ≤ s.arb.accDen.toNat + 9)
      ∧ State.reset.ctl.pol ≠ .monitored := by decide

theorem witness_RatioValuesAreNearestEven :
    (0 < 1 ∧ 0 < 3) ∧ (0 < 2 ^ 53 - 1 ∧ 2 ^ 53 - 1 < 2 ^ 53) ∧ 2 ^ 52 ≤ 2 ^ 52 := by decide

theorem witness_DegradedComparesTheRatios : 0 < 10 ∧ 0 < 8 ∧ 0 < 9 := by decide

theorem witness_ReinitRestoresTheGenerationStart :
    (ceilingAt .eStep).ctl.side = .enc ∧ (decAt .dReset []).ctl.side = .dec := by decide

theorem witness_FrozenNeverReinitializes :
    Inv (emitAt .eStep 257) ∧ encPhase (emitAt .eStep 257).ctl.st = true
      ∧ (emitAt .eStep 257).ctl.pol = .frozen
      ∧ (after (step (emitAt .eStep 257))).map (·.ctl.busy) = some true :=
  ⟨emitAt_inv, by decide⟩

theorem witness_TableReadsBackWhatWasWritten :
    ({ tab := [(257, ⟨65, 66, 65, 2⟩)], dict := [] } : Memory).wf = true
      ∧ 256 ≤ (256 : Code).toNat ∧ 256 ≤ (65535 : Code).toNat ∧ (255 : Code).toNat < 256 := by decide

/-- One learned entry, 257 = "AB", and a byte. -/
theorem witness_StringHasItsLengthAndFirstByte :
    LinksOk { tab := [(257, ⟨65, 66, 65, 2⟩)], dict := [] } 258
      ∧ (257 : Code).toNat < 258 ∧ (257 : Code).toNat ≠ 256 ∧ (255 : Code).toNat < 258 := by
  refine ⟨fun j h1 h2 => ?_, by decide⟩
  have : j = 257 := by
    apply BitVec.eq_of_toNat_eq
    change j.toNat = 257
    omega
  subst this
  constructor <;> decide

theorem witness_DictInsertReplacesOneKey :
    ({ tab := [], dict := [(256 * 65 + 66, 257)] } : Memory).wf = true
      ∧ (65 : Code) ≠ 66 := by decide

theorem witness_WrittenValueReadsBack :
    511 < 2 ^ 9
      ∧ (decAt .dRead ([true] ++ bitsOf 511 9 ++ [false])).port.inp
        = packBytes ([true] ++ bitsOf 511 9 ++ [false])
      ∧ ({ decAt .dRead ([true] ++ bitsOf 511 9 ++ [false]) with port.bp := 1 }).port.bp
        = [true].length := by decide

theorem witness_StepRunsTheDecodedInstruction :
    (let s := emitAt .eStep 257;
      s.host.pending = [] ∧ s.ctl.busy = true
        ∧ decode (viewOf s) (.fsm s.ctl.st.code) = .instr .encStep)
      ∧ (let s := { emitAt .eStep 257 with host.pending := [.turn] };
        s.host.pending = .turn :: [] ∧ s.ctl.busy = true
          ∧ decode (viewOf s) (.fsm s.ctl.st.code) = .instr .encStep)
      ∧ (let s := pendingAt (.csr (.write 0x00 1));
        decode (viewOf s) (.csr (.write 0x00 1)) = .instr (.start 1)) := by decide

theorem witness_StepRunsTheItemItReads :
    (let s := decAt .dTag (bitsOf 0x6E 8);
      s.host.pending = [] ∧ s.ctl.busy = true ∧ s.ctl.st = .dTag ∧ nextTag s = some 0x6E)
      ∧ (let s := decAt .dFirst (bitsOf 65 9);
        s.host.pending = [] ∧ s.ctl.busy = true ∧ s.ctl.st = .dFirst ∧ nextCode s = some 65)
      ∧ (let s := readAt 66 257;
        s.host.pending = [] ∧ s.ctl.busy = true ∧ s.ctl.st = .dRead ∧ nextCode s = some 66)
      ∧ (let s := { commandAt 0x6E2D with host.pending := [.csr (.write 0x00 1)] };
        s.host.pending = .csr (.write 0x00 1) :: [] ∧ (1 : CsrWord).getLsbD 0 = true
          ∧ s.ctl.busy = false
          ∧ decode (viewOf s) (.cmd16 s.ctl.cmd) = .instr .compressFrozen) := by decide

theorem witness_ExactlyOneTransitionFires :
    (encPhase (encAt .eScan []).ctl.st || decPhase (encAt .eScan []).ctl.st) = true
      ∧ (encPhase (readAt 66 257).ctl.st || decPhase (readAt 66 257).ctl.st) = true
      ∧ (nextCode (readAt 66 257)).isSome = true := by decide

theorem witness_WaitingCoreKeepsAllState :
    State.reset.host.pending = [] ∧ State.reset.ctl.busy = false := by decide

theorem witness_HostActionsFollowTheirWords :
    ((pendingAt (.load [1])).host.pending = .load [1] :: []
        ∧ (pendingAt (.load [1])).ctl.busy = false
        ∧ ({ encAt .eScan [] with host.pending := [.load [1]] }).ctl.busy = true)
      ∧ ((pendingAt .wait).host.pending = .wait :: []
        ∧ (let s := { emitAt .eStep 257 with host.pending := [.wait] };
          s.host.pending = .wait :: [] ∧ s.ctl.busy = true
            ∧ decode (viewOf s) (.fsm s.ctl.st.code) = .instr .encStep))
      ∧ (pendingAt .check).host.pending = .check :: [] := by decide

/-- Operands at the ends of their ranges, with a view each condition admits. -/
theorem witness_DecodeOfEncodeIsTheInstruction :
    ((Instr.hit 257).wf = true ∧ (Instr.hit 257).guardHolds view258 = true)
      ∧ ((Instr.kwkwk 258).wf = true ∧ (Instr.kwkwk 258).guardHolds view258 = true)
      ∧ ((Instr.codeReserved 65535).wf = true
        ∧ (Instr.codeReserved 65535).guardHolds view258 = true)
      ∧ ((Instr.firstReserved 511).wf = true ∧ (Instr.firstReserved 511).guardHolds view258 = true)
      ∧ ((Instr.tagReserved 0xFF).wf = true ∧ (Instr.csrRead 0xFC).wf = true)
      ∧ Instr.encScanHit.guardHolds { view258 with inEmpty := false, lookup := some 257 } = true
      ∧ Instr.decReadLearn.guardHolds { view258 with next := some 258 } = true := by decide

theorem witness_EncodeOfDecodeIsTheItem :
    decode view258 (.cwRead 257) = .instr (.hit 257)
      ∧ decode view258 (.csr (.read 0xFC)) = .instr (.csrRead 0xFC) := by decide

theorem witness_PlacedInstructionRunsNext :
    (Instr.hit 65535).wf = true ∧ (Instr.kwkwk 65535).wf = true ∧ (Instr.start 1).wf = true := by
  decide

theorem witness_StepKeepsTheInvariant :
    Inv (readAt 66 257)
      ∧ (after (step (readAt 66 257))).map (·.ctl.st) = some .dEmit :=
  ⟨readAt_inv, by decide⟩

/-- A state of a core that stopped with cause 3 before. -/
theorem witness_SoundStateNeverOverflowsTheWidth :
    Inv (raiseFault .counter 0 (emitAt .eStep 257))
      ∧ (after (step (raiseFault .counter 0 (emitAt .eStep 257)))).map (·.err.cause) = some 3 :=
  ⟨(Inv.resting emitAt_inv).raiseFault_inv _ _, by decide⟩

theorem witness_SoundStateAlwaysSteps :
    Inv (readAt 66 257) ∧ hostKeepsRules (readAt 66 257) = true :=
  ⟨readAt_inv, by decide⟩

theorem witness_EveryPassEnds :
    Inv (emitAt .eStep 257) ∧ (emitAt .eStep 257).ctl.busy = true
      ∧ (emitAt .eStep 257).host.pending = [] :=
  ⟨emitAt_inv, by decide⟩

theorem witness_DecodingTheEncodedStreamGivesTheInput :
    State.reset.ctl.busy = false ∧ State.reset.mem.wf = true
      ∧ ([0x41, 0x42] : List Byte).length < 2 ^ 60 := by decide

theorem witness_HostReadsDoNotDisturbThePass : ∀ off, Instr.encStep ≠ .csrRead off := by
  intro off h
  cases h

theorem witness_OnlyTheNamedRulesWriteARegister :
    (after (exec .encStep (emitAt .eStep 257))).map (·.wid.n) = some 258 := by decide

/-- Two idle states that differ in every stale register, and one running state beside itself with
another TAB. -/
theorem witness_StaleStateIsNeverRead :
    (Inv State.reset ∧ State.reset.ctl.busy = false ∧ (1 : CsrWord).getLsbD 0 = true)
      ∧ Inv (emitAt .eStep 257) ∧ (emitAt .eStep 257).ctl.busy = true
        ∧ (emitAt .eStep 257).host.pending = []
        ∧ SamePass (emitAt .eStep 257)
          { emitAt .eStep 257 with dec := { prev := 7, cw := 9 } } := by
  refine ⟨⟨?_, by decide⟩, emitAt_inv, by decide, by decide, ?_⟩
  · refine ⟨by constructor <;> decide, WidthInv.of_start rfl, by constructor <;> decide,
      by constructor <;> decide, ⟨by decide, fun h => ?_, by decide⟩, ⟨by decide, fun h => ?_,
      by decide⟩, by decide, by decide⟩
    · cases h
    · cases h
  · exact ⟨rfl, fun _ => rfl, rfl, rfl, rfl, rfl, rfl, rfl, rfl, fun _ => rfl,
      (fun h => by cases h), fun _ => ⟨rfl, rfl⟩, fun _ => rfl, (fun h => by cases h)⟩

end Sys2Proof.Tests
end

section
/-! PROOFS. What one step of the machine can do (`stepTo_of_step`), and which rows of the transition
table a running state fires (`fetchTransition_mem_rows`). -/

namespace Sys2Proof.Machine

/-! ### The transition of a phase -/

/-- The rows of the transition table a state of ST can fire (`00_scope.md` R14). -/
def phaseRows : Phase → List Instr
  | .idle => []
  | .done => []
  | .error => []
  | .eTag => [.encTag]
  | .eFirst => [.encFirstEmpty, .encFirstByte]
  | .eScan => [.encScanHit, .encScanMiss, .encScanEnd]
  | .eStep => [.encStep]
  | .eLast => [.encLast]
  | .eEof => [.encEof]
  | .dTag => [.decTag]
  | .dFirst => [.decFirstEof, .decFirstLiteral, .decFirstReserved]
  | .dEmit => [.decEmit]
  | .dRead => [.decReadLearn, .decReadEof, .decReadReserved]
  | .dReset => [.decReset]

/-- The decoder of format fsm answers a row of the phase the code names. -/
theorem decodeFsm_mem_rows {v : View} {p : Phase} {i : Instr}
    (h : decodeFsm v p.code = .instr i) : i ∈ phaseRows p := by
  unfold decodeFsm at h
  rw [phaseOfCode_code] at h
  cases p
  case eFirst => cases h; cases v.inEmpty <;> decide
  case eScan => cases h; cases v.inEmpty <;> cases v.lookup.isSome <;> decide
  case dFirst =>
    cases h
    split
    · decide
    · split_ifs <;> decide
  case dRead =>
    cases h
    split
    · decide
    · split_ifs <;> decide
  all_goals cases h <;> decide

/-- A transition is fetched only from a busy core, and it is a row of ST's phase. -/
theorem fetchTransition_mem_rows {s : State} {i : Instr} (h : fetchTransition s = .instr i) :
    s.ctl.busy = true ∧ i ∈ phaseRows s.ctl.st := by
  unfold fetchTransition at h
  split at h
  · exact ⟨‹_›, decodeFsm_mem_rows h⟩
  · cases h

/-! ### One step -/

/-- What a step from `s` can answer. Every constructor but `fired` is a host action, and fires
no transition; `p` is the host's side as the step leaves it, or as the transition finds it. -/
inductive StepTo (s : State) : State → Prop where
  /-- Nothing but the host's side changes. -/
  | hosted (p : HostPort) : StepTo s { s with host := p }
  /-- LOAD IN of an idle core. -/
  | loaded (p : HostPort) (bytes : List Byte) (idle : s.ctl.busy = false) :
      StepTo s { s with host := p, port := { s.port with inp := bytes } }
  /-- A write of CMD of an idle core. -/
  | commanded (p : HostPort) (c : BitVec 16) (idle : s.ctl.busy = false) :
      StepTo s { s with host := p, ctl := { s.ctl with cmd := c } }
  /-- START of an idle core. -/
  | started (p : HostPort) (idle : s.ctl.busy = false) : StepTo s (startPass { s with host := p })
  /-- Hardware reset. -/
  | wasReset (p : HostPort) : StepTo s (hardwareReset { s with host := p })
  /-- The core fires a transition. -/
  | fired (p : HostPort) (i : Instr) (t : State) (fetched : fetchTransition s = .instr i)
      (executed : exec i { s with host := p } = .next t) : StepTo s t

/-- The core's turn fires the fetched transition or waits. -/
theorem coreTurn_cases {s t : State} {p : HostPort} (h : coreTurn { s with host := p } = .next t) :
    StepTo s t := by
  unfold coreTurn at h
  split at h
  case h_1 i hi => exact .fired p i t hi h
  case h_2 => cases h; exact .hosted p

/-- An access to the CSR window reads, writes CMD, starts a pass, or does nothing. -/
theorem csrTurn_cases {s t : State} {p : HostPort} {a : CsrAccess}
    (h : csrTurn a { s with host := p } = .next t) : StepTo s t := by
  unfold csrTurn at h
  split at h
  case h_1 i hi =>
    simp only [decode] at hi
    unfold decodeCsr at hi
    split at hi
    case h_1 off =>
      split at hi <;> cases hi
      rw [exec, execCsrRead, if_pos ‹_›] at h
      cases h
      exact .hosted _
    case h_2 off v =>
      split_ifs at hi <;> cases hi
      · simp only [exec, execStart] at h
        cases h
        split_ifs with hg
        · rw [Bool.and_eq_true, Bool.not_eq_true'] at hg
          exact .started p hg.2
        · exact .hosted p
      · simp only [exec, execCmdWrite] at h
        cases h
        split_ifs with hg
        · exact .hosted p
        · exact .commanded p _ (eq_false_of_ne_true hg)
  case h_2 => cases h
  case h_3 => cases h; exact .hosted p

/-- Everything a step can do. -/
theorem stepTo_of_step {s t : State} (h : step s = .next t) : StepTo s t := by
  unfold step stepTurn at h
  split at h
  case h_1 => exact coreTurn_cases (p := s.host) h
  case h_2 a rest _ =>
    cases a with
    | csr a => exact csrTurn_cases h
    | load bytes =>
      simp only [hostTurn] at h
      split at h
      · cases h
      · cases h; exact .loaded _ bytes (eq_false_of_ne_true ‹_›)
    | turn => exact coreTurn_cases h
    | wait =>
      simp only [hostTurn] at h
      split at h
      · exact coreTurn_cases h
      · cases h; exact .hosted _
    | check =>
      simp only [hostTurn] at h
      cases h
      split_ifs
      · exact .hosted _
      · exact .hosted _
    | hardwareReset => cases h; exact .wasReset _

end Sys2Proof.Machine
end

section
/-! PROOFS. The encoder's transitions without bookkeeping, each as a whole next state
(`40_encoder.md` R160 to R165, R168). -/

namespace Sys2Proof.Machine

/-! ### What the transitions read -/

theorem inEmpty_of_le {s : State} (h : s.port.inp.length ≤ s.port.ip) : inEmpty s = true := by
  simp [inEmpty, nextByte, h]

theorem nextLookup_of_nextByte {s : State} {c : Byte} (h : nextByte s = some c) :
    nextLookup s = dictLookup s.mem s.enc.cur c := by
  simp [nextLookup, h]

/-! ### The statements -/

/-- Settles O11: the guard holds, and the byte written is the policy's tag. -/
theorem encTagWritesTheModeTag : Obligations.EncTagWritesTheModeTag := by
  intro s hst
  rw [exec, execEncTag, hst, bitWrite]
  cases s.ctl.pol <;> rfl

/-- Settles O12, on empty input and on a byte. -/
theorem encFirstTakesTheFirstByte : Obligations.EncFirstTakesTheFirstByte := by
  intro s hst
  refine ⟨fun hend => ?_, fun b hb => ?_⟩
  · rw [exec, execEncFirstEmpty, hst, inEmpty_of_le hend]
    rfl
  · have hnext : nextByte s = some b := hb
    simp only [exec, execEncFirstByte, hnext, hst]
    rfl

/-- Settles O13, on a hit, on a miss and at the end of the input. -/
theorem encScanExtendsOrEndsTheMatch : Obligations.EncScanExtendsOrEndsTheMatch := by
  intro s hst
  refine ⟨fun c k hc hk => ?_, fun c hc hk => ?_, fun hend => ?_⟩
  · have hlookup : nextLookup s = some k := (nextLookup_of_nextByte hc).trans hk
    simp only [exec, execEncScanHit, hlookup, hst]
    simp [goto, skipByte, ← hst]
  · have hnext : nextByte s = some c := hc
    have hlookup : nextLookup s = none := (nextLookup_of_nextByte hc).trans hk
    simp only [exec, execEncScanMiss, hnext, hlookup, hst]
    rfl
  · rw [exec, execEncScanEnd, hst, inEmpty_of_le hend]
    rfl

/-- Settles O16: the padding is what Close() adds after the W bits of EOF. -/
theorem encEofClosesTheStream : Obligations.EncEofClosesTheStream := by
  intro s hst
  refine ⟨(8 - (s.port.ob.length + s.wid.w.toNat) % 8) % 8, by omega, by omega, ?_⟩
  have hlen : (writeCode Config.eofCode s).port.ob.length = s.port.ob.length + s.wid.w.toNat := by
    simp
  rw [exec, execEncEof, hst, closeOut, hlen]
  rfl

/-! ### What they leave alone -/

/-- The encoder's rows without bookkeeping. -/
def scanRows : List Instr :=
  [.encTag, .encFirstEmpty, .encFirstByte, .encScanHit, .encScanMiss, .encScanEnd, .encEof]

/-- A running encoder fires one of these, or its data step. -/
theorem mem_phaseRows_enc {p : Phase} {i : Instr} (hp : encPhase p = true)
    (hi : i ∈ phaseRows p) :
    i ∈ scanRows ∨ (p = .eStep ∧ i = .encStep) ∨ (p = .eLast ∧ i = .encLast) := by
  cases p <;> simp_all [encPhase, phaseRows, scanRows]
  case eFirst => tauto
  case eScan => tauto

/-- The step left the generation as it was (the width controller, the stores, GEN and POL) and raised
no fault. -/
structure SameGeneration (s t : State) : Prop where
  err_eq : t.err = s.err
  wid_eq : t.wid = s.wid
  mem_eq : t.mem = s.mem
  gen_eq : t.cnt.gen = s.cnt.gen
  pol_eq : t.ctl.pol = s.ctl.pol

theorem SameGeneration.of_enabled {s t u : State} {g : Bool}
    (h : whenEnabled g (.next u) = .next t) (hu : SameGeneration s u) : SameGeneration s t := by
  obtain ⟨-, h⟩ := whenEnabled_eq_next.1 h
  cases h
  exact hu

/-- The encoder's rows without bookkeeping leave the generation alone. -/
theorem SameGeneration.exec {s t : State} {i : Instr} (hi : i ∈ scanRows)
    (h : exec i s = .next t) : SameGeneration s t := by
  simp only [scanRows, List.mem_cons, List.not_mem_nil, or_false] at hi
  rcases hi with rfl | rfl | rfl | rfl | rfl | rfl | rfl
  · exact .of_enabled h ⟨rfl, rfl, rfl, rfl, rfl⟩
  · exact .of_enabled h ⟨rfl, rfl, rfl, rfl, rfl⟩
  · simp only [Machine.exec, execEncFirstByte] at h
    split at h
    · exact .of_enabled h ⟨rfl, rfl, rfl, rfl, rfl⟩
    · cases h
  · simp only [Machine.exec, execEncScanHit] at h
    split at h
    · exact .of_enabled h ⟨rfl, rfl, rfl, rfl, rfl⟩
    · cases h
  · simp only [Machine.exec, execEncScanMiss] at h
    split at h
    · exact .of_enabled h ⟨rfl, rfl, rfl, rfl, rfl⟩
    · cases h
  · exact .of_enabled h ⟨rfl, rfl, rfl, rfl, rfl⟩
  · exact .of_enabled h ⟨rfl, rfl, rfl, rfl, rfl⟩

end Sys2Proof.Machine
end

section
/-! PROOFS. The data steps of a sound state: the checks of `60_exceptions.md` R366 pass, so what is
left of E_STEP, E_LAST and D_READ is the accumulation and the consultation. -/

namespace Sys2Proof.Machine

/-! ### What the bookkeeping leaves alone -/

@[simp] theorem learnEntry_err (e : TabEntry) (s : State) : (learnEntry e s).err = s.err := by
  unfold learnEntry
  dsimp only
  split_ifs <;> rfl

@[simp] theorem afterArbitrate_err (s : State) : (afterArbitrate s).err = s.err := by
  rw [afterArbitrate_eq]

@[simp] theorem consultEnc_err (s : State) : (consultEnc s).err = s.err := by
  unfold consultEnc
  split_ifs
  · split <;> simp
  · rfl

@[simp] theorem consultDec_err (s : State) : (consultDec s).err = s.err := by
  unfold consultDec
  split_ifs
  · split <;> simp
  · simp

/-! ### The checks pass -/

theorem Flow.andThen_assoc (f : Flow) (k l : State → Flow) :
    (f.andThen k).andThen l = f.andThen fun s => (k s).andThen l := by
  cases f <;> rfl

/-- On a sound match phase CUR is a value of W bits (`40_encoder.md` R171, second reason). -/
theorem Inv.cur_lt {s : State} (h : Inv s) (hp : matchPhase s.ctl.st = true) :
    s.enc.cur.toNat < s.wid.l.toNat :=
  lt_of_lt_of_le (h.encoder.current hp).1 h.width.n_max

/-- A counter within the invariants of `10_state.md` R31 passes its check. -/
theorem WidthInv.checkCounter_eq {s : State} (h : WidthInv s) : checkCounter s = .cont s := by
  rcases checkCounter_cases s with ⟨-, hc⟩ | ⟨hlt, -⟩
  · exact hc
  · exact absurd h.n_max (Nat.not_le.2 hlt)

/-- With both checks passed, E_STEP and E_LAST accumulate and consult in the state `u` their
bookkeeping `learn` has made (`40_encoder.md` R166, R167). -/
theorem emitMatch_checked {learn : State → State} {s u : State} (hi : WidthInv s)
    (hcur : s.enc.cur.toNat < s.wid.l.toNat) (hl : learn (writeCode s.enc.cur.toNat s) = u)
    (hw : u.wid = nextWidth s) (hs : u.ctl.side = s.ctl.side) :
    emitMatch learn s =
      (accumulate u.enc.curLen.toNat s.wid.w.toNat u).andThen fun u => .cont (consultEnc u) := by
  have hvalue : checkValue s = .cont s := by
    rcases checkValue_cases s with ⟨-, hc⟩ | ⟨hle, -⟩
    · exact hc
    · exact absurd hcur (Nat.not_lt.2 hle)
  rw [emitMatch, hvalue, Flow.andThen_cont, hl, (hi.step hw hs).checkCounter_eq, Flow.andThen_cont]

/-- With its check passed, D_READ accumulates and consults (`41_decoder.md` R205). -/
theorem learnCode_checked {s : State} {cw : Code} (hi : WidthInv s) (hm : s.mem.wf = true) :
    learnCode cw s =
      (accumulate (codeLen cw s) s.wid.w.toNat
        { learnEntry (learnedEntry cw s) (takeCode cw s) with dec.prev := cw }).andThen fun u =>
      .cont (consultDec u) := by
  have htake : WidthInv (takeCode cw s) := hi.frame rfl rfl
  obtain ⟨m, hl, -⟩ := learnEntry_spec htake hm (learnedEntry cw s)
  have hw : WidthInv (learnEntry (learnedEntry cw s) (takeCode cw s)) :=
    htake.step (by rw [hl]) (by rw [hl])
  rw [learnCode, hw.checkCounter_eq, Flow.andThen_cont]

end Sys2Proof.Machine
end

section
/-! PROOFS. From a sound state no step raises WIDTH_OVERFLOW (`40_encoder.md` R171,
`41_decoder.md` R212). -/

namespace Sys2Proof.Machine

/-! ### States a step answers without WIDTH_OVERFLOW -/

/-- The error latch `e` was held before; if `t` shows cause 3, `t` still holds `e`. -/
def NoWidthFault (e : ErrLatch) (t : State) : Prop := t.err.cause = 3 → t.err = e

theorem NoWidthFault.of_eq {e : ErrLatch} {t : State} (h : t.err = e) : NoWidthFault e t :=
  fun _ => h

theorem NoWidthFault.of_cause {t : State} (h : t.err.cause ≠ 3) (e : ErrLatch) :
    NoWidthFault e t :=
  fun h' => absurd h' h

/-- A fault of another cause. -/
theorem NoWidthFault.raise {k : FaultKind} (hk : k.cause ≠ 3) (e : ErrLatch) (v : Code)
    (s : State) : NoWidthFault e (raiseFault k v s) :=
  .of_cause hk e

/-- An accumulation can only raise ACC_OVERFLOW, so it and a continuation that keeps the latch
raise no WIDTH_OVERFLOW. -/
theorem NoWidthFault.accumulate {e : ErrLatch} {s t : State} {len w : Nat} {k : State → State}
    (hs : s.err = e) (hk : ∀ u, (k u).err = u.err)
    (h : ((accumulate len w s).andThen fun u => .cont (k u)).outcome = .next t) :
    NoWidthFault e t := by
  rcases accumulate_cases len w s with
      ⟨-, ha⟩ | ⟨-, -, -, n, d, -, -, ha⟩ | ⟨-, ⟨-, ha⟩ | ⟨-, -, ha⟩⟩ <;>
    rw [ha] at h <;> cases h
  · exact .of_eq ((hk _).trans hs)
  · exact .of_eq ((hk _).trans hs)
  · exact .raise (by decide) e _ _
  · exact .raise (by decide) e _ _

/-! ### The transitions -/

/-- E_STEP or E_LAST of a sound state, with the bookkeeping `learn` and the final steps `k`. -/
theorem NoWidthFault.emit {learn k : State → State} {s t u : State} (hi : Inv s)
    (hp : matchPhase s.ctl.st = true) (hl : learn (writeCode s.enc.cur.toNat s) = u)
    (hw : u.wid = nextWidth s) (hs : u.ctl.side = s.ctl.side) (he : u.err = s.err)
    (hk : ∀ u, (k u).err = u.err)
    (h : ((emitMatch learn s).andThen fun u => .cont (k u)).outcome = .next t) :
    NoWidthFault s.err t := by
  rw [emitMatch_checked hi.width (hi.cur_lt hp) hl hw hs, Flow.andThen_assoc] at h
  exact .accumulate (k := fun u => k (consultEnc u)) he (fun u => by simp [hk]) h

/-- A transition that reads a codeword: TRUNCATED, or what its guarded meaning `r` answers. -/
theorem NoWidthFault.read {s t : State} {g : Code → Bool} {r : Code → Result}
    (hr : ∀ cw, r cw = .next t → NoWidthFault s.err t)
    (h : readCode s (fun cw => whenEnabled (g cw) (r cw)) = .next t) : NoWidthFault s.err t := by
  cases hc : nextCode s with
  | none =>
    rw [readCode_none hc] at h
    cases h
    exact .raise (by decide) _ _ _
  | some cw =>
    rw [readCode_some hc] at h
    exact hr cw (whenEnabled_eq_next.1 h).2

/-- A transition that writes `Str(PREV)`. -/
theorem NoWidthFault.emitPrev {s t : State} {k : State → State} (hk : ∀ u, (k u).err = u.err)
    (h : emitPrev s k = .next t) : NoWidthFault s.err t := by
  unfold Machine.emitPrev at h
  split at h <;> cases h
  exact .of_eq (hk _)

theorem NoWidthFault.takeTag (b : Byte) (s : State) : NoWidthFault s.err (takeTag b s) := by
  unfold Machine.takeTag
  split
  · exact .of_eq rfl
  · exact .raise (by decide) _ _ _

/-- A transition of the encoder, fired from a sound state. -/
theorem NoWidthFault.execEnc {s t : State} {i : Instr} (hi : Inv s)
    (hp : encPhase s.ctl.st = true) (hrow : i ∈ phaseRows s.ctl.st) (h : exec i s = .next t) :
    NoWidthFault s.err t := by
  rcases mem_phaseRows_enc hp hrow with hscan | ⟨hst, rfl⟩ | ⟨hst, rfl⟩
  · exact .of_eq (SameGeneration.exec hscan h).err_eq
  · have hm : matchPhase s.ctl.st = true := by rw [hst]; rfl
    obtain ⟨m, hl, -⟩ := learnKey_spec (writeCode s.enc.cur.toNat s)
    exact .emit (k := fun u => goto .eScan (restartMatch u)) hi hm hl rfl rfl rfl
      (fun u => rfl) (whenEnabled_eq_next.1 h).2
  · have hm : matchPhase s.ctl.st = true := by rw [hst]; rfl
    exact .emit (k := goto .eEof) hi hm (advanceCounter_eq _) rfl rfl rfl (fun u => rfl)
      (whenEnabled_eq_next.1 h).2

/-- The bookkeeping, accumulation and consultation of D_READ in a sound state. -/
theorem NoWidthFault.learnCode {s t : State} {cw : Code} (hi : Inv s)
    (h : (learnCode cw s).outcome = .next t) : NoWidthFault s.err t := by
  rw [learnCode_checked hi.width hi.memory] at h
  exact .accumulate (by simp) consultDec_err h

/-- A transition of the decoder, fired from a sound state. -/
theorem NoWidthFault.execDec {s t : State} {i : Instr} (hi : Inv s)
    (hp : decPhase s.ctl.st = true) (hrow : i ∈ phaseRows s.ctl.st) (h : exec i s = .next t) :
    NoWidthFault s.err t := by
  cases hst : s.ctl.st <;> simp [hst, decPhase] at hp <;>
    simp only [hst, phaseRows, List.mem_cons, List.not_mem_nil, or_false] at hrow
  case dTag =>
    subst hrow
    have h := (whenEnabled_eq_next.1 h).2
    split at h <;> cases h
    · exact .raise (by decide) _ _ _
    · exact .takeTag _ _
  case dFirst =>
    rcases hrow with rfl | rfl | rfl <;> refine .read (fun cw hcw => ?_) (whenEnabled_eq_next.1 h).2
    · cases hcw; exact .of_eq rfl
    · exact .accumulate (s := { takeCode cw s with dec.prev := cw }) (k := goto .dEmit) rfl
        (fun u => rfl) hcw
    · cases hcw; exact .raise (by decide) _ _ _
  case dEmit =>
    subst hrow
    exact .emitPrev (k := goto .dRead) (fun u => rfl) (whenEnabled_eq_next.1 h).2
  case dRead =>
    rcases hrow with rfl | rfl | rfl <;> refine .read (fun cw hcw => ?_) (whenEnabled_eq_next.1 h).2
    · exact .learnCode hi hcw
    · cases hcw; exact .of_eq rfl
    · cases hcw; exact .raise (by decide) _ _ _
  case dReset =>
    subst hrow
    exact .emitPrev (k := fun u => goto .dFirst (reinit u)) (fun u => rfl)
      (whenEnabled_eq_next.1 h).2

/-- START clears the latch, or raises INVALID_ARGUMENT (`45_host_commands.md` R333). -/
theorem NoWidthFault.startPass (e : ErrLatch) (s : State) : NoWidthFault e (startPass s) := by
  unfold Machine.startPass
  split_ifs
  · split
    · exact .of_cause (by simp [startCompress]) e
    · exact .raise (by decide) _ _ _
  · exact .of_cause (by simp [startExpand]) e
  · exact .raise (by decide) _ _ _

/-- Settles O53: of all a step can do only a fired transition could raise WIDTH_OVERFLOW, and from a
sound state its checks pass. -/
theorem soundStateNeverOverflowsTheWidth : Obligations.SoundStateNeverOverflowsTheWidth := by
  intro s t hi h
  cases stepTo_of_step h with
  | hosted p => exact NoWidthFault.of_eq rfl
  | loaded p bytes idle => exact NoWidthFault.of_eq rfl
  | commanded p c idle => exact NoWidthFault.of_eq rfl
  | started p idle => exact NoWidthFault.startPass _ _
  | wasReset p => exact NoWidthFault.of_cause (by simp) _
  | fired p i t fetched executed =>
    obtain ⟨busy, hrow⟩ := fetchTransition_mem_rows fetched
    have hside : encPhase s.ctl.st = true ∨ decPhase s.ctl.st = true := by
      rw [← Bool.or_eq_true, ← hi.control.busy_running, busy]
    rcases hside with hp | hp
    · exact NoWidthFault.execEnc (s := { s with host := p }) (hi.with_host p) hp hrow executed
    · exact NoWidthFault.execDec (s := { s with host := p }) (hi.with_host p) hp hrow executed

end Sys2Proof.Machine
end

section
/-! PROOFS. An encoder pass under FROZEN stays in its one generation (`40_encoder.md` R174). -/

namespace Sys2Proof.Machine

/-- What R174 says of a step from `s` to `t` under FROZEN. -/
structure StaysFrozen (s t : State) : Prop where
  pol_eq : t.ctl.pol = .frozen
  gen_zero : t.cnt.gen = 0
  w_max : s.wid.w.toNat = 16 → t.wid.w.toNat = 16
  n_le : s.wid.n.toNat ≤ t.wid.n.toNat
  keys : ∀ p b, (dictLookup s.mem p b).isSome = true → (dictLookup t.mem p b).isSome = true

/-- A sound encoder pass under FROZEN. -/
structure FrozenPass (s : State) : Prop where
  inv : Inv s
  running : encPhase s.ctl.st = true
  frozen : s.ctl.pol = .frozen

/-- A step without bookkeeping. -/
theorem FrozenPass.same {s t : State} (h : FrozenPass s) (hs : SameGeneration s t) :
    StaysFrozen s t where
  pol_eq := hs.pol_eq.trans h.frozen
  gen_zero := hs.gen_eq.trans (h.inv.arbiter.frozen_gen (.inl h.frozen))
  w_max hw := by rw [hs.wid_eq, hw]
  n_le := by rw [hs.wid_eq]
  keys p b hk := by rw [hs.mem_eq, hk]

/-- A step that advances the width controller and forgets no key. -/
theorem FrozenPass.advance {s t : State} (h : FrozenPass s) (hpol : t.ctl.pol = s.ctl.pol)
    (hgen : t.cnt.gen = s.cnt.gen) (hwid : t.wid = nextWidth s)
    (hkeys : ∀ p b, (dictLookup s.mem p b).isSome = true →
      (dictLookup t.mem p b).isSome = true) :
    StaysFrozen s t where
  pol_eq := hpol.trans h.frozen
  gen_zero := hgen.trans (h.inv.arbiter.frozen_gen (.inl h.frozen))
  w_max hw := by
    have hpromotes : promotes s = false := by simp [promotes, hw]
    rw [hwid, h.inv.width.nextWidth_w, hpromotes, hw]
    rfl
  n_le := by
    rw [hwid, h.inv.width.nextWidth_n]
    exact h.inv.width.nextN_le.1
  keys := hkeys

/-- Under FROZEN every match fits: nothing is accumulated (`43_reset_policy.md` R276). -/
theorem FrozenPass.accFits {s : State} (h : FrozenPass s) (len : Nat) : accFits len s = true := by
  simp [Machine.accFits, h.frozen]

/-- Under FROZEN the consultation reinitializes nothing (`43_reset_policy.md` R271). -/
theorem FrozenPass.consultEnc {s u : State} {len : Nat} (h : FrozenPass s)
    (hu : Consulting len s u) : consultEnc u = { u with arb := sampled len s } := by
  rcases hu.enc with ⟨-, he⟩ | ⟨hr, -⟩
  · exact he
  · exact absurd h.frozen (reinitializes_not_frozen hr)

/-- A transition fired in a sound FROZEN pass of the encoder. -/
theorem FrozenPass.exec {s t : State} {i : Instr} (h : FrozenPass s)
    (hrow : i ∈ phaseRows s.ctl.st) (he : exec i s = .next t) : StaysFrozen s t := by
  rcases mem_phaseRows_enc h.running hrow with hscan | ⟨hst, rfl⟩ | ⟨hst, rfl⟩
  · exact h.same (.exec hscan he)
  · have hcur := h.inv.cur_lt (by rw [hst]; rfl)
    obtain ⟨m, u, hemit, hu, rfl, -, -, hdict⟩ :=
      emitMatch_learnKey h.inv.width hcur (h.accFits _)
    have he := (whenEnabled_eq_next.1 he).2
    rw [hemit, h.consultEnc hu] at he
    cases he
    refine h.advance rfl rfl rfl fun p b hk => ?_
    show (dictLookup m p b).isSome = true
    rw [hdict]
    split_ifs
    · rfl
    · exact hk
  · have hcur := h.inv.cur_lt (by rw [hst]; rfl)
    obtain ⟨u, hemit, hu, rfl⟩ := emitMatch_advanceCounter h.inv.width hcur (h.accFits _)
    have he := (whenEnabled_eq_next.1 he).2
    rw [hemit, h.consultEnc hu] at he
    cases he
    exact h.advance rfl rfl rfl fun p b hk => hk

/-- Settles O36: the core is busy, so the host can only look on, reset the core (which ends the
pass) or let it fire. -/
theorem frozenNeverReinitializes : Obligations.FrozenNeverReinitializes := by
  intro s t hi hp hpol h hbusy
  have hpass : FrozenPass s := ⟨hi, hp, hpol⟩
  have busy := (hi.control.enc_running hp).1
  suffices hstays : StaysFrozen s t by
    exact ⟨hstays.pol_eq, hstays.gen_zero, hstays.w_max, hstays.n_le, hstays.keys⟩
  cases stepTo_of_step h with
  | hosted p => exact hpass.same ⟨rfl, rfl, rfl, rfl, rfl⟩
  | loaded p bytes idle => simp [busy] at idle
  | commanded p c idle => simp [busy] at idle
  | started p idle => simp [busy] at idle
  | wasReset p => cases hbusy
  | fired p i t fetched executed =>
    have hpass' : FrozenPass { s with host := p } := ⟨hi.with_host p, hp, hpol⟩
    have hstays := hpass'.exec (fetchTransition_mem_rows fetched).2 executed
    exact ⟨hstays.pol_eq, hstays.gen_zero, hstays.w_max, hstays.n_le, hstays.keys⟩

end Sys2Proof.Machine
end

section
/-! PROOFS. The decoder's transitions that write `Str(PREV)`, each as a whole next state
(`41_decoder.md` R204, R208). -/

namespace Sys2Proof.Machine

/-- Where `Str(PREV)` exists, `emitPrev` appends its bits and goes on. -/
theorem emitPrev_some {s : State} {bs : List Byte} (h : str s.mem s.dec.prev = some bs)
    (k : State → State) :
    emitPrev s k
      = .next (k { s with port.ob := s.port.ob ++ bs.flatMap fun b => bitsOf b.toNat 8 }) := by
  simp only [emitPrev, h, bytesWrite, bytesBits_eq]

/-- On the decoder's side a reinitialization leaves the code table as it is
(`44_code_table.md` R307). -/
theorem reinit_of_dec {s : State} (h : s.ctl.side = .dec) :
    reinit s = { s with wid := widStart, arb := arbZero, cnt.gen := s.cnt.gen + 1 } := by
  simp [reinit, h, widStart, arbZero]

/-- Settles O19: the guard of DEC_EMIT holds, and its body writes the string and enters D_READ. -/
theorem decEmitWritesTheString : Obligations.DecEmitWritesTheString := by
  intro s bs hst hstr
  calc exec .decEmit s
    _ = emitPrev s (goto .dRead) := by simp [exec, execDecEmit, hst]
    _ = _ := emitPrev_some hstr _

/-- Settles O22: the guard of DEC_RESET holds, and its body writes the string from the table as it
stands before it reinitializes the decoder's side. -/
theorem decResetWritesThenReinitializes : Obligations.DecResetWritesThenReinitializes := by
  intro s bs hst hside hstr
  calc exec .decReset s
    _ = emitPrev s fun t => goto .dFirst (reinit t) := by simp [exec, execDecReset, hst]
    _ = .next (goto .dFirst
          (reinit { s with port.ob := s.port.ob ++ bs.flatMap fun b => bitsOf b.toNat 8 })) :=
      emitPrev_some hstr _
    _ = _ := by rw [reinit_of_dec (by exact hside)]; rfl

end Sys2Proof.Machine
end

section
/-! PROOFS. The tests of the width controller (`42_width_controller.md` R251, R252, R254). -/

namespace Sys2Proof.Machine

/-- The saturation test holds at W = 16 only: below, L is below 65536 and N + δ no greater. -/
theorem WidthInv.w_eq_of_atCeiling {s : State} (h : WidthInv s) (hc : atCeiling s = true) :
    s.wid.w.toNat = 16 := by
  rw [atCeiling_iff] at hc
  by_contra hne
  have hw : s.wid.w.toNat < 16 := lt_of_le_of_ne h.w_max hne
  have hl := h.w_eq_iff.1 hw
  have hn := h.n_max
  cases hside : s.ctl.side with
  | enc => simp only [hside, delta] at hc; omega
  | dec =>
    have hroom := h.dec_room hside hw
    simp only [hside, delta] at hc
    omega

/-- Settles O29: the tests of the model, with the offset 0 of ENC and 1 of DEC. -/
theorem widthTestsFollowTheSideOffset : Obligations.WidthTestsFollowTheSideOffset := by
  intro s
  refine ⟨canInsert_iff s, fun henc => ?_, fun hdec => ?_, WidthInv.w_eq_of_atCeiling⟩
  · rw [shouldGrow_iff, atCeiling_iff, henc]
    exact ⟨Iff.rfl, Iff.rfl⟩
  · rw [shouldGrow_iff, atCeiling_iff, hdec]
    simp only [delta]
    omega

end Sys2Proof.Machine
end

section
/-! PROOFS. Within a generation W never falls (`42_width_controller.md` R257): a transition keeps
the width controller's registers, advances them as a data step does, or reinitializes. -/

namespace Sys2Proof.Machine

/-! ### What the shared operations do to the width controller and GEN -/

@[simp] theorem afterArbitrate_wid (s : State) : (afterArbitrate s).wid = s.wid := by
  rw [afterArbitrate_eq]

@[simp] theorem afterArbitrate_cnt (s : State) : (afterArbitrate s).cnt = s.cnt := by
  rw [afterArbitrate_eq]

@[simp] theorem consultDec_wid (s : State) : (consultDec s).wid = s.wid := by
  unfold consultDec
  split_ifs
  · split <;> simp
  · simp

@[simp] theorem takeTag_wid (b : Byte) (s : State) : (takeTag b s).wid = s.wid := by
  unfold takeTag
  split <;> rfl

/-- An accumulation writes the arbiter's registers, or raises (`43_reset_policy.md` R276, R277). -/
theorem accumulate_writes_arb (len w : Nat) (s : State) :
    (∃ a, accumulate len w s = .cont { s with arb := a })
      ∨ ∃ k, accumulate len w s = .raised (raiseFault k 0 s) := by
  rcases accumulate_cases len w s with
      ⟨-, h⟩ | ⟨-, -, -, n, d, -, -, h⟩ | ⟨-, ⟨-, h⟩ | ⟨-, -, h⟩⟩
  · exact .inl ⟨s.arb, h⟩
  · exact .inl ⟨_, h⟩
  · exact .inr ⟨_, h⟩
  · exact .inr ⟨_, h⟩

/-- A transition that reads a codeword answers TRUNCATED, or what its guarded meaning of some
codeword answers. -/
theorem readCode_eq_next {s t : State} {g : Code → Bool} {r : Code → Result}
    (h : readCode s (fun cw => whenEnabled (g cw) (r cw)) = .next t) :
    t = raiseFault .truncated 0 s ∨ ∃ cw, r cw = .next t := by
  cases hc : nextCode s with
  | none =>
    rw [readCode_none hc] at h
    cases h
    exact .inl rfl
  | some cw =>
    rw [readCode_some hc] at h
    exact .inr ⟨cw, (whenEnabled_eq_next.1 h).2⟩

/-- A transition that writes `Str(PREV)` goes on after some bytes. -/
theorem emitPrev_eq_next {s t : State} {k : State → State} (h : emitPrev s k = .next t) :
    ∃ bs, t = k (bytesWrite bs s) := by
  unfold emitPrev at h
  split at h <;> cases h
  exact ⟨_, rfl⟩

/-- A sound core that is busy stands in a running state of one side. -/
theorem Inv.running {s : State} (h : Inv s) (busy : s.ctl.busy = true) :
    encPhase s.ctl.st = true ∨ decPhase s.ctl.st = true := by
  rw [← Bool.or_eq_true, ← h.control.busy_running, busy]

/-! ### Ways the width controller can change -/

/-- What a transition from `s` to `t` does to the width controller. -/
inductive WidthChange (s t : State) : Prop where
  /-- No bookkeeping. -/
  | kept (wid_eq : t.wid = s.wid)
  /-- A data step (`42_width_controller.md` R251 to R253). -/
  | advanced (wid_eq : t.wid = nextWidth s)
  /-- A reinitialization (`42_width_controller.md` R255). -/
  | restarted (gen_eq : t.cnt.gen = s.cnt.gen + 1) (wid_eq : t.wid = widStart)

/-- Writes of other registers change nothing of it. -/
theorem WidthChange.frame {s u t : State} (h : WidthChange s u) (hw : t.wid = u.wid)
    (hg : t.cnt.gen = u.cnt.gen) : WidthChange s t := by
  cases h with
  | kept wid_eq => exact .kept (hw.trans wid_eq)
  | advanced wid_eq => exact .advanced (hw.trans wid_eq)
  | restarted gen_eq wid_eq => exact .restarted (hg.trans gen_eq) (hw.trans wid_eq)

/-- The invariants of the width controller survive every such change, and W falls only in a
reinitialization. -/
theorem WidthChange.width_le {s t : State} (h : WidthChange s t) (hi : WidthInv s) :
    9 ≤ t.wid.w.toNat ∧ t.wid.w.toNat ≤ 16
      ∧ (s.wid.w.toNat ≤ t.wid.w.toNat ∨ t.cnt.gen = s.cnt.gen + 1 ∧ t.wid = widStart) := by
  cases h with
  | kept wid_eq =>
    rw [wid_eq]
    exact ⟨hi.w_min, hi.w_max, .inl le_rfl⟩
  | advanced wid_eq =>
    have hi' : WidthInv { s with wid := nextWidth s } := hi.step rfl rfl
    rw [wid_eq]
    refine ⟨hi'.w_min, hi'.w_max, .inl ?_⟩
    rw [hi.nextWidth_w]
    exact Nat.le_add_right _ _
  | restarted gen_eq wid_eq =>
    have hi' : WidthInv t := .of_start wid_eq
    exact ⟨hi'.w_min, hi'.w_max, .inr ⟨gen_eq, wid_eq⟩⟩

/-- The consultation of the encoder after a data step's bookkeeping. -/
theorem WidthChange.consultEnc {s u : State} (hw : u.wid = nextWidth s)
    (hg : u.cnt.gen = s.cnt.gen) : WidthChange s (consultEnc u) := by
  unfold Machine.consultEnc
  split_ifs
  · split
    · exact .advanced (by rw [afterArbitrate_wid, hw])
    · exact .restarted (by rw [reinit_cnt, afterArbitrate_cnt, hg]) rfl
  · exact .advanced hw

/-- An accumulation in a state `u` the bookkeeping has made, and a continuation `k`. -/
theorem WidthChange.accumulate {s u t : State} {len w : Nat} {k : State → State}
    (hu : WidthChange s u) (hk : ∀ a, WidthChange s (k { u with arb := a }))
    (h : ((accumulate len w u).andThen fun v => .cont (k v)).outcome = .next t) :
    WidthChange s t := by
  rcases accumulate_writes_arb len w u with ⟨a, ha⟩ | ⟨f, ha⟩ <;> rw [ha] at h <;> cases h
  · exact hk a
  · exact hu.frame rfl rfl

/-! ### The transitions -/

/-- E_STEP or E_LAST of a sound state, with the bookkeeping `learn` and the final steps `k`. -/
theorem WidthChange.emit {learn k : State → State} {s t u : State} (hi : Inv s)
    (hp : matchPhase s.ctl.st = true) (hl : learn (writeCode s.enc.cur.toNat s) = u)
    (hw : u.wid = nextWidth s) (hs : u.ctl.side = s.ctl.side) (hg : u.cnt.gen = s.cnt.gen)
    (hk : ∀ v, (k v).wid = v.wid ∧ (k v).cnt = v.cnt)
    (h : ((emitMatch learn s).andThen fun v => .cont (k v)).outcome = .next t) :
    WidthChange s t := by
  rw [emitMatch_checked hi.width (hi.cur_lt hp) hl hw hs, Flow.andThen_assoc] at h
  refine .accumulate (k := fun v => k (Machine.consultEnc v)) (.advanced hw) (fun a => ?_) h
  obtain ⟨hkw, hkc⟩ := hk (Machine.consultEnc { u with arb := a })
  exact (WidthChange.consultEnc (u := { u with arb := a }) hw hg).frame hkw (by rw [hkc])

/-- A transition of the encoder, fired from a sound state. -/
theorem WidthChange.execEnc {s t : State} {i : Instr} (hi : Inv s)
    (hp : encPhase s.ctl.st = true) (hrow : i ∈ phaseRows s.ctl.st) (h : exec i s = .next t) :
    WidthChange s t := by
  rcases mem_phaseRows_enc hp hrow with hscan | ⟨hst, rfl⟩ | ⟨hst, rfl⟩
  · exact .kept (SameGeneration.exec hscan h).wid_eq
  · obtain ⟨m, hl, -⟩ := learnKey_spec (writeCode s.enc.cur.toNat s)
    exact .emit (k := fun v => goto .eScan (restartMatch v)) hi (by rw [hst]; rfl) hl rfl rfl rfl
      (fun v => ⟨rfl, rfl⟩) (whenEnabled_eq_next.1 h).2
  · exact .emit (k := goto .eEof) hi (by rw [hst]; rfl) (advanceCounter_eq _) rfl rfl rfl
      (fun v => ⟨rfl, rfl⟩) (whenEnabled_eq_next.1 h).2

/-- A transition that reads a codeword: TRUNCATED, or what its guarded meaning `r` answers. -/
theorem WidthChange.read {s t : State} {g : Code → Bool} {r : Code → Result}
    (hr : ∀ cw, r cw = .next t → WidthChange s t)
    (h : readCode s (fun cw => whenEnabled (g cw) (r cw)) = .next t) : WidthChange s t := by
  rcases readCode_eq_next h with rfl | ⟨cw, hcw⟩
  · exact .kept rfl
  · exact hr cw hcw

/-- D_READ of a HIT or KWKWK codeword in a sound state. The decoder's consultation only chooses the
next phase. -/
theorem WidthChange.learnCode {s t : State} {cw : Code} (hi : Inv s)
    (h : (learnCode cw s).outcome = .next t) : WidthChange s t := by
  obtain ⟨m, hl, -⟩ :=
    learnEntry_spec (s := takeCode cw s) (hi.width.frame rfl rfl) hi.memory (learnedEntry cw s)
  rw [learnCode_checked hi.width hi.memory, hl] at h
  exact .accumulate (.advanced rfl) (fun a => .advanced (consultDec_wid _)) h

/-- A transition of the decoder, fired from a sound state. -/
theorem WidthChange.execDec {s t : State} {i : Instr} (hi : Inv s)
    (hp : decPhase s.ctl.st = true) (hrow : i ∈ phaseRows s.ctl.st) (h : exec i s = .next t) :
    WidthChange s t := by
  cases hst : s.ctl.st <;> simp [hst, decPhase] at hp <;>
    simp only [hst, phaseRows, List.mem_cons, List.not_mem_nil, or_false] at hrow
  case dTag =>
    subst hrow
    have h := (whenEnabled_eq_next.1 h).2
    split at h <;> cases h
    · exact .kept rfl
    · exact .kept (takeTag_wid _ _)
  case dFirst =>
    rcases hrow with rfl | rfl | rfl <;> refine .read (fun cw hcw => ?_) (whenEnabled_eq_next.1 h).2
    · cases hcw; exact .kept rfl
    · exact .accumulate (u := { takeCode cw s with dec.prev := cw }) (k := goto .dEmit) (.kept rfl)
        (fun a => .kept rfl) hcw
    · cases hcw; exact .kept rfl
  case dEmit =>
    subst hrow
    obtain ⟨bs, rfl⟩ := emitPrev_eq_next (whenEnabled_eq_next.1 h).2
    exact .kept rfl
  case dRead =>
    rcases hrow with rfl | rfl | rfl <;> refine .read (fun cw hcw => ?_) (whenEnabled_eq_next.1 h).2
    · exact .learnCode hi hcw
    · cases hcw; exact .kept rfl
    · cases hcw; exact .kept rfl
  case dReset =>
    subst hrow
    obtain ⟨bs, rfl⟩ := emitPrev_eq_next (k := fun v => goto .dFirst (reinit v))
      (whenEnabled_eq_next.1 h).2
    exact .restarted rfl rfl

/-- Settles O30: the core is busy, so the host can only look on, reset the core (which ends the
pass) or let it fire. -/
theorem widthNeverFallsWithinAGeneration : Obligations.WidthNeverFallsWithinAGeneration := by
  intro s t hi busy h hbusy
  cases stepTo_of_step h with
  | hosted p => exact (WidthChange.kept (s := s) rfl).width_le hi.width
  | loaded p bytes idle => simp [busy] at idle
  | commanded p c idle => simp [busy] at idle
  | started p idle => simp [busy] at idle
  | wasReset p => cases hbusy
  | fired p i t fetched executed =>
    have hrow := (fetchTransition_mem_rows fetched).2
    have hi' : Inv { s with host := p } := hi.with_host p
    have hchange : WidthChange { s with host := p } t := by
      rcases hi.running busy with hp | hp
      · exact .execEnc hi' hp hrow executed
      · exact .execDec hi' hp hrow executed
    exact hchange.width_le hi'.width

end Sys2Proof.Machine
end

section
/-! PROOFS. The reset policy arbiter's two operations (`43_reset_policy.md` R270 to R277): what
`Arbitrate` decides and writes, policy by policy, and what `Accumulate` adds or raises. -/

namespace Sys2Proof.Machine

/-- `Arbitrate` writes nothing under another policy than MONITORED (`43_reset_policy.md` R271,
R272). -/
theorem afterArbitrate_of_not_monitored {s : State} (h : s.ctl.pol ≠ .monitored) :
    afterArbitrate s = s :=
  if_neg fun hm => h hm.1

/-- With a baseline on record `Arbitrate` writes nothing (`43_reset_policy.md` R274). -/
theorem afterArbitrate_of_baseValid {s : State} (h : s.arb.baseValid = true) :
    afterArbitrate s = s :=
  if_neg fun hm => by simp [h] at hm

/-- The first MONITORED sample becomes the baseline (`43_reset_policy.md` R273). -/
theorem afterArbitrate_of_first_sample {s : State} (hp : s.ctl.pol = .monitored)
    (hb : s.arb.baseValid = false) : afterArbitrate s = capture s :=
  if_pos ⟨hp, hb⟩

/-- NoOp is the only other decision than Reinitialize (`43_reset_policy.md` R270). -/
theorem arbitrate_eq_noOp {s : State} : arbitrate s = .noOp ↔ arbitrate s ≠ .reinit := by
  cases arbitrate s <;> simp

/-- Settles O31: the decision is read off `arbitrate_eq_reinit`, and only the first MONITORED
sample is written. -/
theorem arbiterDecidesByPolicy : Obligations.ArbiterDecidesByPolicy := by
  refine fun s => ⟨fun hp => ⟨?_, ?_⟩, fun hp => ⟨?_, ?_⟩, fun hp hb => ⟨?_, ?_⟩,
    fun hp hb => ⟨?_, ?_⟩⟩
  · simp [arbitrate_eq_noOp, arbitrate_eq_reinit, hp]
  · exact afterArbitrate_of_not_monitored (by simp [hp])
  · exact arbitrate_eq_reinit.2 (.inl hp)
  · exact afterArbitrate_of_not_monitored (by simp [hp])
  · simp [arbitrate_eq_noOp, arbitrate_eq_reinit, hp, hb]
  · exact afterArbitrate_of_first_sample hp hb
  · exact afterArbitrate_of_baseValid hb
  · simp [arbitrate_eq_reinit, hp, hb, ratioDegraded]

/-- Settles O32: each outcome `accumulate_cases` lists is what its own bounds ask for, and those
bounds contradict the other outcomes' premises. -/
theorem accumulateAddsOrFaults : Obligations.AccumulateAddsOrFaults := by
  intro s len w
  rcases accumulate_cases len w s with ⟨hp, h⟩ | ⟨hp, hnum, hden, n, d, hn, hd, h⟩ |
      ⟨hp, ⟨hnum, h⟩ | ⟨hnum, hden, h⟩⟩
  · exact ⟨fun _ => h, fun hm => absurd hm hp⟩
  · exact ⟨fun hne => absurd hp hne, fun _ =>
      ⟨fun _ _ => ⟨_, h, rfl, hn, hd, rfl, rfl, rfl⟩, by omega, by omega⟩⟩
  · exact ⟨fun hne => absurd hp hne, fun _ => ⟨by omega, fun _ => h, by omega⟩⟩
  · exact ⟨fun hne => absurd hp hne, fun _ => ⟨by omega, by omega, fun _ _ => h⟩⟩

end Sys2Proof.Machine
end

section
/-! PROOFS. The strings of the code table (`44_code_table.md` R302): along links the recursion of
`Str` ends, and it carries LEN and FIRST with it. -/

namespace Sys2Proof.Machine

/-- The recursion ends at once on a hardwired entry (`44_code_table.md` R301). -/
theorem str_hardwired (m : Memory) {j : Code} (h : j.toNat < 256) :
    str m j = some [j.setWidth 8] := by
  have h1 : (tabRead m j).len = 1 := by rw [tabRead_hardwired m h]
  calc str m j
    _ = some [(tabRead m j).suffix] := if_pos h1
    _ = some [j.setWidth 8] := by rw [tabRead_hardwired m h]

/-- More fuel finds the same string. -/
theorem strFuel_succ_eq_some {m : Memory} : ∀ {f : Nat} {j : Code} {bs : List Byte},
    strFuel m f j = some bs → strFuel m (f + 1) j = some bs
  | 0, _, _, h => by simp [strFuel] at h
  | f + 1, j, bs, h => by
    rw [strFuel] at h ⊢
    split_ifs at h ⊢
    · exact h
    · obtain ⟨init, hinit, rfl⟩ := Option.map_eq_some_iff.1 h
      simp [strFuel_succ_eq_some hinit]

/-- The code a link extends lies below the same bound (`44_code_table.md` R304). -/
theorem LinksOk.prefix_lt {m : Memory} {n : Nat} (hl : LinksOk m n) {j : Code}
    (h257 : 257 ≤ j.toNat) (hn : j.toNat < n) : (tabRead m j).prefixCode.toNat < n :=
  (hl j h257 hn).below.trans hn

/-- A link is never the end of a string: it is longer than the entry it extends. -/
theorem LinksOk.len_ne_one {m : Memory} {n : Nat} (hl : LinksOk m n) {j : Code}
    (h257 : 257 ≤ j.toNat) (hn : j.toNat < n) : (tabRead m j).len ≠ 1 := by
  have hj := hl j h257 hn
  have hlen := hj.len_eq
  have hpos := (hl.len_bound _ (hl.prefix_lt h257 hn) hj.not_eof).1
  intro h1
  rw [h1] at hlen
  change 1 = _ at hlen
  omega

/-- One link of the recursion: the prefix is a smaller code, so the fuel of one entry less still
finds its string. -/
theorem LinksOk.str_link {m : Memory} {n : Nat} (hl : LinksOk m n) {j : Code}
    (h257 : 257 ≤ j.toNat) (hn : j.toNat < n) :
    ∃ init, str m (tabRead m j).prefixCode = some init
      ∧ str m j = some (init ++ [(tabRead m j).suffix]) := by
  have hj := hl j h257 hn
  have hlt := j.isLt
  have hbelow := hj.below
  obtain ⟨init, hinit⟩ : ∃ init, strFuel m 65535 (tabRead m j).prefixCode = some init :=
    strFuel_isSome hl 65534 _ (hl.prefix_lt h257 hn) hj.not_eof (by omega)
  refine ⟨init, strFuel_succ_eq_some hinit, ?_⟩
  calc str m j
    _ = (strFuel m 65535 (tabRead m j).prefixCode).map (· ++ [(tabRead m j).suffix]) :=
      if_neg (hl.len_ne_one h257 hn)
    _ = some (init ++ [(tabRead m j).suffix]) := by rw [hinit]; rfl

/-- The length and the first byte of a string, by recursion along the links. -/
theorem LinksOk.str_length_head {m : Memory} {n : Nat} (hl : LinksOk m n) (j : Code)
    (hn : j.toNat < n) (h256 : j.toNat ≠ 256) {bs : List Byte} (hs : str m j = some bs) :
    bs.length = (tabRead m j).len.toNat ∧ bs.head? = some (tabRead m j).first := by
  by_cases hbyte : j.toNat < 256
  · rw [str_hardwired m hbyte] at hs
    cases hs
    rw [tabRead_hardwired m hbyte]
    exact ⟨rfl, rfl⟩
  · have h257 : 257 ≤ j.toNat := by omega
    have hj := hl j h257 hn
    obtain ⟨init, hinit, hs'⟩ := hl.str_link h257 hn
    cases hs.symm.trans hs'
    have ⟨hlen, hhead⟩ :=
      hl.str_length_head (tabRead m j).prefixCode (hl.prefix_lt h257 hn) hj.not_eof hinit
    rw [hj.len_eq, hj.first_eq]
    simp [hlen, hhead]
termination_by j.toNat
decreasing_by exact hj.below

/-- Settles O38: the string exists along links, and its shape is that of a hardwired entry or of
one link. -/
theorem stringHasItsLengthAndFirstByte : Obligations.StringHasItsLengthAndFirstByte := by
  intro m n j hl hn h256
  obtain ⟨bs, hs⟩ := str_isSome hl j hn h256
  obtain ⟨hlen, hhead⟩ := hl.str_length_head j hn h256 hs
  refine ⟨bs, hs, hlen, hhead, fun hbyte => ?_, fun h257 => ?_⟩
  · exact Option.some.inj (hs.symm.trans (str_hardwired m hbyte))
  · obtain ⟨init, hinit, hs'⟩ := hl.str_link h257 hn
    exact ⟨init, hinit, Option.some.inj (hs.symm.trans hs')⟩

end Sys2Proof.Machine
end

section
/-! PROOFS. The dictionary's insertion and clear (`44_code_table.md` R312 to R314). -/

namespace Sys2Proof.Machine

@[simp] theorem tabRead_dictClear (m : Memory) (j : Code) :
    tabRead (dictClear m) j = tabRead m j := rfl

/-- Settles O39: an insertion is read off `dictLookup_dictInsert` at its own key and at any
other. -/
theorem dictInsertReplacesOneKey : Obligations.DictInsertReplacesOneKey := by
  refine fun m p b k => ⟨?_, fun p' b' hother => ?_, dictLookup_dictClear m, fun j => ?_,
    fun hm => ⟨dictInsert_wf hm p b k, dictClear_wf hm⟩⟩
  · rw [dictLookup_dictInsert, if_pos ⟨rfl, rfl⟩]
  · rw [dictLookup_dictInsert, if_neg (by tauto)]
  · exact ⟨tabRead_dictInsert m p b k j, tabRead_dictClear m j⟩

end Sys2Proof.Machine
end

section
/-! PROOFS. The host's writes to the CSR window (`45_host_commands.md` R331 to R333): those without
effect, CMD, and START case by case. -/

namespace Sys2Proof.Machine

/-! ### Writes without effect, and CMD -/

/-- An aligned write that is neither CMD's nor a START is decoded as one to ignore
(`45_host_commands.md` R332). -/
theorem decodeCsr_ignoredWrite {off : Byte} {v : CsrWord} (haligned : off.toNat % 4 = 0)
    (hcmd : off.toNat ≠ 4) (hstart : off.toNat = 0 → v.getLsbD 0 = false) :
    decodeCsr (.write off v) = .reject .ignoredWrite := by
  have hne : off ≠ 0x04 := by rintro rfl; exact hcmd rfl
  rw [decodeCsr, if_neg (not_not.2 haligned)]
  by_cases h0 : off = 0x00
  · have hbit : v.getLsbD 0 = false := hstart (by rw [h0]; rfl)
    rw [if_pos h0, hbit]
    rfl
  · rw [if_neg h0, if_neg hne]

/-- Settles O5: the host's access is taken, and the decoder turns the write away. -/
theorem writesWithoutEffectDoNothing : Obligations.WritesWithoutEffectDoNothing := by
  intro s off v rest hpending haligned hcmd hstart
  simp only [step, stepTurn, hpending, hostTurn, csrTurn, decode,
    decodeCsr_ignoredWrite haligned hcmd hstart]

/-- Settles O7, on BUSY clear and on BUSY set. -/
theorem cmdWriteSetsCmdWhileIdle : Obligations.CmdWriteSetsCmdWhileIdle := by
  intro s v
  refine ⟨fun hidle => ?_, fun hbusy => ?_⟩
  · simp only [exec, execCmdWrite, hidle, Bool.false_eq_true, if_false]
  · simp only [exec, execCmdWrite, hbusy, if_true]

/-! ### START -/

/-- START of an idle core begins a pass, or takes the fault of a refused command. -/
theorem exec_start_idle {s : State} {v : CsrWord} (hv : v.getLsbD 0 = true)
    (hidle : s.ctl.busy = false) : exec (.start v) s = .next (startPass s) := by
  simp only [exec, execStart, hv, hidle, Bool.not_false, Bool.and_self, if_true]

/-- A byte that is no policy's tag names no policy (`30_encoding.md` R125, R136). -/
theorem policyOfTag_eq_none {t : Byte} (h : ∀ p : Policy, t ≠ p.tag) : policyOfTag t = none :=
  Option.eq_none_iff_forall_ne_some.2 fun p hp => h p (policyOfTag_eq_some hp)

/-- OP '-' with a legal POLICY. -/
theorem startPass_compress {s : State} {p : Policy} (hop : cmdOp s.ctl.cmd = opCompress)
    (hp : cmdPolicy s.ctl.cmd = p.tag) : startPass s = startCompress p s := by
  simp only [startPass, hop, if_true, hp, policyOfTag_tag]

/-- OP '+', whatever POLICY is. -/
theorem startPass_expand {s : State} (hop : cmdOp s.ctl.cmd = opExpand) :
    startPass s = startExpand s := by
  have hne : opExpand ≠ opCompress := by decide
  simp only [startPass, hop, hne, if_false, if_true]

/-- OP '-' with another POLICY: BAD_POLICY, after SIDE is written. -/
theorem startPass_badPolicy {s : State} (hop : cmdOp s.ctl.cmd = opCompress)
    (hp : ∀ p : Policy, cmdPolicy s.ctl.cmd ≠ p.tag) :
    startPass s = raiseFault .badPolicy ((cmdPolicy s.ctl.cmd).setWidth 16)
      { clearForStart s with ctl.side := .enc } := by
  simp only [startPass, hop, if_true, policyOfTag_eq_none hp]

/-- Another OP: BAD_OP, before SIDE is written. -/
theorem startPass_badOp {s : State} (hc : cmdOp s.ctl.cmd ≠ opCompress)
    (he : cmdOp s.ctl.cmd ≠ opExpand) :
    startPass s = raiseFault .badOp ((cmdOp s.ctl.cmd).setWidth 16) (clearForStart s) := by
  simp only [startPass, hc, he, if_false]

/-- Settles O9: the four cases of START, each written out. -/
theorem startBeginsThePassOfCmd : Obligations.StartBeginsThePassOfCmd := by
  intro s v hv hidle
  rw [exec_start_idle hv hidle]
  refine ⟨fun p hop hp => ?_, fun hop => ?_, fun hop hp => ?_, fun hc he => ?_⟩
  · rw [startPass_compress hop hp]; rfl
  · rw [startPass_expand hop]; rfl
  · rw [startPass_badPolicy hop hp]; rfl
  · rw [startPass_badOp hc he]; rfl

end Sys2Proof.Machine
end

section
/-! PROOFS. Passes are independent (`45_host_commands.md` R337): beside a state of the same pass, no
transition sees a stale register. -/

namespace Sys2Proof.Machine

/-! ### States that differ in the datapath and the stores -/

/-- The second state differs from the first in CUR, CUR_LEN, NXT, PREV, CW, TAB and the dictionary
at most: the stale registers of `10_state.md` R67 are among these. -/
inductive SameOutside (s : State) : State → Prop where
  | intro (e : EncData) (d : DecData) (m : Memory) :
      SameOutside s { s with enc := e, dec := d, mem := m }

theorem SameOutside.ctl_eq {s t : State} (h : SameOutside s t) : t.ctl = s.ctl := by
  cases h; rfl

theorem SameOutside.wid_eq {s t : State} (h : SameOutside s t) : t.wid = s.wid := by
  cases h; rfl

theorem SameOutside.port_eq {s t : State} (h : SameOutside s t) : t.port = s.port := by
  cases h; rfl

/-- Before the tag is read POL may differ too. -/
theorem SamePass.outside_but_pol {s t : State} (h : SamePass s t) :
    ∃ p, SameOutside { s with ctl.pol := p } t := by
  obtain ⟨⟨_, _, _, _, _, _, _⟩, _, _, _, _, _, _, _, _, _, _⟩ := s
  obtain ⟨⟨_, _, p, _, _, _, _⟩, _, _, _, _, _, _, _, _, _, _⟩ := t
  obtain ⟨hctl, -, hwid, harb, hcnt, herr, hport, hhost, harith, -⟩ := h
  cases hctl; cases hwid; cases harb; cases hcnt; cases herr; cases hport; cases hhost; cases harith
  exact ⟨p, .intro _ _ _⟩

/-- Two states of one pass, past the tag. -/
theorem SamePass.outside {s t : State} (h : SamePass s t) (hst : s.ctl.st ≠ .dTag) :
    SameOutside s t := by
  obtain ⟨p, ho⟩ := h.outside_but_pol
  have hp : t.ctl.pol = p := by rw [ho.ctl_eq]
  rw [← hp, ← h.pol_eq hst] at ho
  exact ho

/-- A running state of the encoder: the dictionary counts, and of the match what ST reads. -/
theorem SamePass.of_enc {s t : State} (ho : SameOutside s t) (hp : encPhase s.ctl.st = true)
    (hdict : s.mem.dict = t.mem.dict)
    (hmatch : matchPhase s.ctl.st = true → s.enc.cur = t.enc.cur ∧ s.enc.curLen = t.enc.curLen)
    (hnxt : s.ctl.st = .eStep → s.enc.nxt = t.enc.nxt) : SamePass s t := by
  obtain ⟨e, d, m⟩ := ho
  refine ⟨rfl, fun _ => rfl, rfl, rfl, rfl, rfl, rfl, rfl, rfl, fun _ => hdict, fun hdec => ?_,
    hmatch, hnxt, fun hprev => ?_⟩
  · cases hst : s.ctl.st <;> simp [hst, encPhase, decPhase] at hp hdec
  · cases hst : s.ctl.st <;> simp [hst, encPhase, prevPhase] at hp hprev

/-- A running state of the decoder: the entries of the generation count, and PREV where ST reads
it. -/
theorem SamePass.of_dec {s t : State} (ho : SameOutside s t) (hp : decPhase s.ctl.st = true)
    (htab : ∀ j : Code, j.toNat < s.wid.n.toNat → j.toNat ≠ 256 →
      tabRead s.mem j = tabRead t.mem j)
    (hprev : prevPhase s.ctl.st = true → s.dec.prev = t.dec.prev) : SamePass s t := by
  obtain ⟨e, d, m⟩ := ho
  refine ⟨rfl, fun _ => rfl, rfl, rfl, rfl, rfl, rfl, rfl, rfl, fun henc => ?_, fun _ => htab,
    fun hmatch => ?_, fun hstep => ?_, hprev⟩
  · cases hst : s.ctl.st <;> simp [hst, encPhase, decPhase] at hp henc
  · cases hst : s.ctl.st <;> simp [hst, matchPhase, decPhase] at hp hmatch
  · simp [hstep, decPhase] at hp

/-- At the start of a generation every entry that counts is hardwired (`44_code_table.md` R301). -/
theorem tabRead_eq_of_start (m m' : Memory) {j : Code} (hj : j.toNat < widStart.n.toNat)
    (h256 : j.toNat ≠ 256) : tabRead m j = tabRead m' j := by
  have hbyte : j.toNat < 256 := by
    change j.toNat < 257 at hj
    omega
  rw [tabRead_hardwired m hbyte, tabRead_hardwired m' hbyte]

/-! ### Outcomes that match -/

/-- What the host sees of two states agrees, and while the pass runs they are states of one pass. -/
structure Alike (s t : State) : Prop where
  ctl_eq : { s.ctl with pol := .frozen } = { t.ctl with pol := .frozen }
  port_eq : s.port = t.port
  err_eq : s.err = t.err
  pass : s.ctl.busy = true → SamePass s t

theorem Alike.of_samePass {s t : State} (h : SamePass s t) : Alike s t :=
  ⟨h.ctl_eq, h.port_eq, h.err_eq, fun _ => h⟩

/-- After the pass nothing of the datapath or the stores counts. -/
theorem Alike.of_ended {s t : State} (ho : SameOutside s t) (hb : s.ctl.busy = false) :
    Alike s t := by
  obtain ⟨e, d, m⟩ := ho
  exact ⟨rfl, rfl, rfl, fun h => by simp [hb] at h⟩

/-- A fault ends the pass, and latches N but none of the registers that may differ. -/
theorem Alike.raise {s t : State} (k : FaultKind) (v : Code)
    (hctl : { s.ctl with pol := .frozen } = { t.ctl with pol := .frozen })
    (hwid : s.wid = t.wid) (hport : s.port = t.port) :
    Alike (raiseFault k v s) (raiseFault k v t) where
  ctl_eq := congrArg (fun c : Control =>
    { c with busy := false, done := false, error := true, st := .error }) hctl
  port_eq := hport
  err_eq := by rw [raiseFault_err, raiseFault_err, hwid]
  pass h := by cases h

/-- Every next state of the first outcome has its like in the second. -/
def Matched (r q : Result) : Prop := ∀ s, r = .next s → ∃ t, q = .next t ∧ Alike s t

theorem Matched.next {s t : State} (h : Alike s t) : Matched (.next s) (.next t) := by
  rintro _ ⟨⟩
  exact ⟨t, rfl, h⟩

/-- A refusal has no next state. -/
theorem Matched.refused (r : Refusal) (q : Result) : Matched (.refused r) q := by
  rintro _ ⟨⟩

theorem Matched.guarded {g : Bool} {r q : Result} (h : g = true → Matched r q) :
    Matched (whenEnabled g r) (whenEnabled g q) := by
  cases g
  · exact .refused _ _
  · exact h rfl

/-- A codeword is read, or TRUNCATED raised, in both. -/
theorem Matched.read {s t : State} (ho : SameOutside s t) {r q : Code → Result}
    (h : ∀ cw, Matched (r cw) (q cw)) : Matched (readCode s r) (readCode t q) := by
  obtain ⟨e, d, m⟩ := ho
  cases hc : nextCode s with
  | none =>
    rw [readCode_none hc, readCode_none (by exact hc)]
    exact .next (.raise _ _ rfl rfl rfl)
  | some cw =>
    rw [readCode_some hc, readCode_some (by exact hc)]
    exact h cw

/-- The string of PREV is written, or does not exist, in both. -/
theorem Matched.emitPrev {s t : State} (hstr : str s.mem s.dec.prev = str t.mem t.dec.prev)
    {k l : State → State} (h : ∀ bs, Alike (k (bytesWrite bs s)) (l (bytesWrite bs t))) :
    Matched (emitPrev s k) (emitPrev t l) := by
  unfold Machine.emitPrev
  rw [← hstr]
  cases str s.mem s.dec.prev with
  | none => rintro _ ⟨⟩
  | some bs => exact .next (h bs)

/-! ### Flows that match -/

/-- Both flows go on, in states that `R` relates, or both have raised the same fault. -/
inductive FlowsAlike (R : State → State → Prop) : Flow → Flow → Prop where
  | cont {s t : State} (h : R s t) : FlowsAlike R (.cont s) (.cont t)
  | raised {s t : State} (h : Alike s t) : FlowsAlike R (.raised s) (.raised t)

theorem FlowsAlike.andThen {R Q : State → State → Prop} {f g : Flow} {k l : State → Flow}
    (h : FlowsAlike R f g) (hk : ∀ s t, R s t → FlowsAlike Q (k s) (l t)) :
    FlowsAlike Q (f.andThen k) (g.andThen l) := by
  cases h with
  | cont h => exact hk _ _ h
  | raised h => exact .raised h

theorem FlowsAlike.matched {f g : Flow} (h : FlowsAlike Alike f g) :
    Matched f.outcome g.outcome := by
  cases h with
  | cont h => exact .next h
  | raised h => exact .next h

/-- The same fault raised in both, in states that agree outside the datapath and the stores. -/
theorem FlowsAlike.raise {R : State → State → Prop} {s t : State} (ho : SameOutside s t)
    (k : FaultKind) (v : Code) :
    FlowsAlike R (.raised (raiseFault k v s)) (.raised (raiseFault k v t)) := by
  obtain ⟨e, d, m⟩ := ho
  exact .raised (.raise k v rfl rfl rfl)

/-- The check `CUR >= L` looks at CUR and L only (`60_exceptions.md` R366). -/
theorem FlowsAlike.checkValue {R : State → State → Prop} {s t : State} (ho : SameOutside s t)
    (hcur : s.enc.cur = t.enc.cur) (h : R s t) : FlowsAlike R (checkValue s) (checkValue t) := by
  unfold Machine.checkValue
  rw [ho.wid_eq, ← hcur]
  split_ifs
  · exact .raise ho _ _
  · exact .cont h

/-- The check `N > L` looks at N and L only (`60_exceptions.md` R366). -/
theorem FlowsAlike.checkCounter {R : State → State → Prop} {s t : State} (ho : SameOutside s t)
    (h : R s t) : FlowsAlike R (checkCounter s) (checkCounter t) := by
  unfold Machine.checkCounter
  rw [ho.wid_eq]
  split_ifs
  · exact .raise ho _ _
  · exact .cont h

/-- An accumulation looks at POL and the accumulators only, and writes the latter
(`43_reset_policy.md` R276, R277). -/
theorem FlowsAlike.accumulate {R : State → State → Prop} {s t : State} (ho : SameOutside s t)
    (len w : Nat) (h : ∀ a, R { s with arb := a } { t with arb := a }) :
    FlowsAlike R (accumulate len w s) (accumulate len w t) := by
  obtain ⟨e, d, m⟩ := ho
  unfold Machine.accumulate
  split_ifs
  · exact .cont (h s.arb)
  · exact .raise (.intro _ _ _) _ _
  · exact .raise (.intro _ _ _) _ _
  · exact .cont (h _)

/-! ### The consultation of the arbiter -/

/-- The arbiter's decision and its capture look at POL and its own registers only. -/
theorem SameOutside.arbitrate {s t : State} (ho : SameOutside s t) :
    arbitrate t = arbitrate s
      ∧ ∃ a, afterArbitrate s = { s with arb := a } ∧ afterArbitrate t = { t with arb := a } := by
  obtain ⟨e, d, m⟩ := ho
  refine ⟨rfl, ?_⟩
  unfold afterArbitrate
  split_ifs
  · exact ⟨_, rfl, rfl⟩
  · exact ⟨s.arb, rfl, rfl⟩

/-- The encoder's consultation writes the baseline at most, or reinitializes. -/
theorem SameOutside.consultEnc {s t : State} (ho : SameOutside s t) :
    (∃ a, consultEnc s = { s with arb := a } ∧ consultEnc t = { t with arb := a })
      ∨ consultEnc s = reinit s ∧ consultEnc t = reinit t := by
  obtain ⟨hdecision, a, hs, ht⟩ := ho.arbitrate
  have hceiling : atCeiling t = atCeiling s := by cases ho; rfl
  unfold Machine.consultEnc
  rw [hceiling, hdecision]
  cases hc : atCeiling s
  · refine .inl ⟨s.arb, rfl, ?_⟩
    cases ho
    rfl
  · cases hr : Machine.arbitrate s
    · exact .inl ⟨a, hs, ht⟩
    · have hr' : Machine.arbitrate t = .reinit := hdecision.trans hr
      simp [afterArbitrate_of_reinit hr, afterArbitrate_of_reinit hr']

/-- The decoder's consultation writes the baseline at most, and chooses D_EMIT or D_RESET. -/
theorem SameOutside.consultDec {s t : State} (ho : SameOutside s t) :
    ∃ p a, decPhase p = true ∧ consultDec s = goto p { s with arb := a }
      ∧ consultDec t = goto p { t with arb := a } := by
  obtain ⟨hdecision, a, hs, ht⟩ := ho.arbitrate
  have hceiling : atCeiling t = atCeiling s := by cases ho; rfl
  unfold Machine.consultDec
  rw [hceiling, hdecision, hs, ht]
  cases hc : atCeiling s
  · refine ⟨.dEmit, s.arb, rfl, rfl, ?_⟩
    cases ho
    rfl
  · cases hr : Machine.arbitrate s
    · exact ⟨.dEmit, a, rfl, rfl, rfl⟩
    · exact ⟨.dReset, a, rfl, rfl, rfl⟩

/-! ### The encoder's data steps -/

/-- Two states in the middle of an encoder's data step from the state `p` of ST: all that E_STEP and
E_LAST read agrees, NXT in E_STEP alone. -/
structure SameMatch (p : Phase) (s t : State) : Prop where
  outside : SameOutside s t
  st_eq : s.ctl.st = p
  side_eq : s.ctl.side = .enc
  dict_eq : s.mem.dict = t.mem.dict
  cur_eq : s.enc.cur = t.enc.cur
  curLen_eq : s.enc.curLen = t.enc.curLen
  nxt_eq : p = .eStep → s.enc.nxt = t.enc.nxt

/-- Writes outside the datapath and the stores keep it. -/
theorem SameMatch.frame {p : Phase} {s t s' t' : State} (h : SameMatch p s t)
    (ho : SameOutside s' t') (hctl : s'.ctl = s.ctl) (hs : s'.enc = s.enc) (ht : t'.enc = t.enc)
    (hdict : s'.mem.dict = t'.mem.dict) : SameMatch p s' t' where
  outside := ho
  st_eq := by rw [hctl, h.st_eq]
  side_eq := by rw [hctl, h.side_eq]
  dict_eq := hdict
  cur_eq := by rw [hs, ht, h.cur_eq]
  curLen_eq := by rw [hs, ht, h.curLen_eq]
  nxt_eq hp := by rw [hs, ht, h.nxt_eq hp]

theorem SameMatch.writeCode {p : Phase} {s t : State} (h : SameMatch p s t) (v : Nat) :
    SameMatch p (writeCode v s) (writeCode v t) :=
  h.frame (by cases h.outside; exact .intro _ _ _) rfl rfl rfl h.dict_eq

theorem SameMatch.grow {p : Phase} {s t : State} (h : SameMatch p s t) :
    SameMatch p (grow s) (grow t) :=
  h.frame (by cases h.outside; exact .intro _ _ _) rfl rfl rfl h.dict_eq

theorem SameMatch.bumpN {p : Phase} {s t : State} (h : SameMatch p s t) :
    SameMatch p (bumpN s) (bumpN t) :=
  h.frame (by cases h.outside; exact .intro _ _ _) rfl rfl rfl h.dict_eq

theorem SameMatch.with_arb {p : Phase} {s t : State} (h : SameMatch p s t) (a : Arbiter) :
    SameMatch p { s with arb := a } { t with arb := a } :=
  h.frame (by cases h.outside; exact .intro _ _ _) rfl rfl rfl h.dict_eq

theorem SameMatch.insertKey {s t : State} (h : SameMatch .eStep s t) :
    SameMatch .eStep (insertKey s) (insertKey t) := by
  refine h.frame (by cases h.outside; exact .intro _ _ _) rfl rfl rfl ?_
  simp only [insertKey_mem, dictInsert, h.dict_eq, h.cur_eq, h.nxt_eq rfl, h.outside.wid_eq]

/-- The tests of the width controller look at its own registers and SIDE only. -/
theorem SameOutside.width_tests {s t : State} (ho : SameOutside s t) :
    canInsert t = canInsert s ∧ shouldGrow t = shouldGrow s := by
  cases ho
  exact ⟨rfl, rfl⟩

/-- A test both sides answer alike. -/
theorem SameMatch.ite {p : Phase} {s t s' t' : State} {b b' : Bool} (hb : b' = b)
    (h' : SameMatch p s' t') (h : SameMatch p s t) :
    SameMatch p (if b then s' else s) (if b' then t' else t) := by
  subst hb
  split_ifs
  · exact h'
  · exact h

/-- Source step 3 and the boundary rule of E_STEP. -/
theorem SameMatch.learnKey {s t : State} (h : SameMatch .eStep s t) :
    SameMatch .eStep (learnKey s) (learnKey t) :=
  have hentry := SameMatch.ite h.outside.width_tests.1 h.insertKey h
  .ite hentry.outside.width_tests.2 hentry.grow.insertKey hentry

/-- The same of E_LAST. -/
theorem SameMatch.advanceCounter {p : Phase} {s t : State} (h : SameMatch p s t) :
    SameMatch p (advanceCounter s) (advanceCounter t) :=
  have hentry := SameMatch.ite h.outside.width_tests.1 h.bumpN h
  .ite hentry.outside.width_tests.2 hentry.grow.bumpN hentry

/-- On the encoder's side a reinitialization clears both dictionaries. -/
theorem SameMatch.consultEnc {p : Phase} {s t : State} (h : SameMatch p s t) :
    SameMatch p (consultEnc s) (consultEnc t) := by
  rcases h.outside.consultEnc with ⟨a, hs, ht⟩ | ⟨hs, ht⟩ <;> rw [hs, ht]
  · exact h.with_arb a
  · refine h.frame (by cases h.outside; exact .intro _ _ _) rfl rfl rfl ?_
    simp only [reinit_mem, h.outside.ctl_eq, h.side_eq, dictClear_dict]

/-- The steps R166 and R167 share keep what E_STEP and E_LAST read alike. -/
theorem SameMatch.emitMatch {p : Phase} {s t : State} {learn : State → State}
    (h : SameMatch p s t)
    (hlearn : ∀ {u v : State}, SameMatch p u v → SameMatch p (learn u) (learn v)) :
    FlowsAlike (SameMatch p) (emitMatch learn s) (emitMatch learn t) := by
  unfold Machine.emitMatch
  rw [h.outside.wid_eq]
  refine (FlowsAlike.checkValue h.outside h.cur_eq h).andThen fun s1 t1 h1 => ?_
  rw [← h1.cur_eq]
  have hbooked := hlearn (h1.writeCode s1.enc.cur.toNat)
  refine (FlowsAlike.checkCounter hbooked.outside hbooked).andThen fun s2 t2 h2 => ?_
  rw [← h2.curLen_eq]
  refine (FlowsAlike.accumulate h2.outside _ _ h2.with_arb).andThen fun s3 t3 h3 => ?_
  exact .cont h3.consultEnc

/-! ### The encoder's transitions -/

/-- In E_SCAN both states look the same key up in the same dictionary. -/
theorem SamePass.nextLookup_eq {s t : State} (h : SamePass s t) (hst : s.ctl.st = .eScan) :
    nextLookup t = nextLookup s := by
  have hcur := (h.match_eq (by rw [hst]; rfl)).1
  have hdict := h.dict_eq (by rw [hst]; rfl)
  simp only [nextLookup, nextByte, dictLookup, ← h.port_eq, ← hcur, ← hdict]

/-- E_STEP and E_LAST begin their data step alike. -/
theorem SamePass.sameMatch {s t : State} (h : SamePass s t) (hi : Inv s)
    (hp : encPhase s.ctl.st = true) (hm : matchPhase s.ctl.st = true) :
    SameMatch s.ctl.st s t where
  outside := h.outside (by rintro hst; simp [hst, encPhase] at hp)
  st_eq := rfl
  side_eq := hi.control.enc_side hp
  dict_eq := h.dict_eq hp
  cur_eq := (h.match_eq hm).1
  curLen_eq := (h.match_eq hm).2
  nxt_eq := h.nxt_eq

/-- A transition of the encoder, fired in two sound states of one pass. -/
theorem SamePass.execEnc {s t : State} {i : Instr} (h : SamePass s t) (hi : Inv s)
    (hp : encPhase s.ctl.st = true) (hrow : i ∈ phaseRows s.ctl.st) :
    Matched (exec i s) (exec i t) := by
  have hdict := h.dict_eq hp
  have ho := h.outside (by rintro hst; simp [hst, encPhase] at hp)
  cases hst : s.ctl.st <;> simp [hst, encPhase] at hp <;>
    simp only [hst, phaseRows, List.mem_cons, List.not_mem_nil, or_false] at hrow
  case eTag =>
    subst hrow
    obtain ⟨e, d, m⟩ := ho
    exact .guarded fun _ => .next (.of_samePass (.of_enc (.intro _ _ _) rfl hdict nofun nofun))
  case eFirst =>
    obtain ⟨e, d, m⟩ := ho
    rcases hrow with rfl | rfl
    · exact .guarded fun _ => .next (.of_samePass (.of_enc (.intro _ _ _) rfl hdict nofun nofun))
    · simp only [exec, execEncFirstByte, nextByte]
      cases s.port.inp[s.port.ip]? with
      | none => exact .refused _ _
      | some b =>
        exact .guarded fun _ =>
          .next (.of_samePass (.of_enc (.intro _ _ _) rfl hdict (fun _ => ⟨rfl, rfl⟩) nofun))
  case eScan =>
    have hmatch := h.match_eq (by rw [hst]; rfl)
    have hlookup := h.nextLookup_eq hst
    have hbyte : nextByte t = nextByte s := by rw [nextByte, ho.port_eq, nextByte]
    rcases hrow with rfl | rfl | rfl
    · simp only [exec, execEncScanHit, hlookup]
      obtain ⟨e, d, m⟩ := ho
      cases nextLookup s with
      | none => exact .refused _ _
      | some k =>
        refine .guarded fun _ =>
          .next (.of_samePass (.of_enc (.intro _ _ _) rfl hdict (fun _ => ⟨rfl, ?_⟩) nofun))
        exact congrArg (· + 1) hmatch.2
    · simp only [exec, execEncScanMiss, hlookup, hbyte]
      obtain ⟨e, d, m⟩ := ho
      cases nextByte s with
      | none => exact .refused _ _
      | some c =>
        exact .guarded fun _ => .next (.of_samePass
          (.of_enc (.intro _ _ _) rfl hdict (fun _ => hmatch) (fun _ => rfl)))
    · obtain ⟨e, d, m⟩ := ho
      exact .guarded fun _ =>
        .next (.of_samePass (.of_enc (.intro _ _ _) rfl hdict (fun _ => hmatch) nofun))
  case eStep =>
    subst hrow
    have hm := hst ▸ h.sameMatch hi (by rw [hst]; rfl) (by rw [hst]; rfl)
    simp only [exec, execEncStep, ho.ctl_eq]
    refine .guarded fun _ => FlowsAlike.matched ((hm.emitMatch .learnKey).andThen ?_)
    intro u v huv
    refine .cont (.of_samePass (.of_enc ?_ rfl huv.dict_eq (fun _ => ⟨?_, rfl⟩) nofun))
    · cases huv.outside; exact .intro _ _ _
    · exact congrArg (BitVec.setWidth 16) (huv.nxt_eq rfl)
  case eLast =>
    subst hrow
    have hm := h.sameMatch hi (by rw [hst]; rfl) (by rw [hst]; rfl)
    simp only [exec, execEncLast, ho.ctl_eq]
    refine .guarded fun _ => FlowsAlike.matched ((hm.emitMatch .advanceCounter).andThen ?_)
    intro u v huv
    refine .cont (.of_samePass (.of_enc ?_ rfl huv.dict_eq nofun nofun))
    cases huv.outside; exact .intro _ _ _
  case eEof =>
    subst hrow
    obtain ⟨e, d, m⟩ := ho
    exact .guarded fun _ => .next (.of_ended (.intro _ _ _) rfl)

/-! ### The decoder's data step -/

/-- Along links the strings of two tables that agree below `n` agree (`44_code_table.md` R302,
R304). -/
theorem LinksOk.strFuel_congr {m m' : Memory} {n : Nat} (hl : LinksOk m n)
    (htab : ∀ j : Code, j.toNat < n → j.toNat ≠ 256 → tabRead m j = tabRead m' j) :
    ∀ (f : Nat) (j : Code), j.toNat < n → j.toNat ≠ 256 → strFuel m f j = strFuel m' f j
  | 0, _, _, _ => rfl
  | f + 1, j, hn, h256 => by
    rw [strFuel, strFuel, ← htab j hn h256]
    by_cases hbyte : j.toNat < 256
    · simp [tabRead_hardwired m hbyte]
    · have h257 : 257 ≤ j.toNat := by omega
      rw [hl.strFuel_congr htab f _ (hl.prefix_lt h257 hn) (hl j h257 hn).not_eof]

/-- Two states in the middle of a decoder's step: the entries of the generation and PREV agree. -/
structure SameDecoder (s t : State) : Prop where
  outside : SameOutside s t
  tab_eq : ∀ j : Code, j.toNat < s.wid.n.toNat → j.toNat ≠ 256 →
    tabRead s.mem j = tabRead t.mem j
  prev_eq : s.dec.prev = t.dec.prev

theorem SamePass.sameDecoder {s t : State} (h : SamePass s t) (hp : prevPhase s.ctl.st = true)
    (hdec : decPhase s.ctl.st = true) : SameDecoder s t where
  outside := h.outside (by rintro hst; simp [hst, prevPhase] at hp)
  tab_eq := h.tab_eq hdec
  prev_eq := h.prev_eq hp

/-- Both write the same string. -/
theorem SameDecoder.str_eq {s t : State} (h : SameDecoder s t) (hi : Inv s)
    (hp : prevPhase s.ctl.st = true) (hdec : decPhase s.ctl.st = true) :
    str s.mem s.dec.prev = str t.mem t.dec.prev := by
  obtain ⟨hn, h256⟩ := hi.decoder.previous hp
  rw [← h.prev_eq]
  exact (hi.decoder.links hdec).strFuel_congr h.tab_eq _ _ hn h256

/-- Both learn the same entry, and count the same length, at a codeword. -/
theorem SameDecoder.learned_eq {s t : State} {cw : Code} (h : SameDecoder s t)
    (hprev : s.dec.prev.toNat < s.wid.n.toNat ∧ s.dec.prev.toNat ≠ 256) (h256 : cw.toNat ≠ 256) :
    learnedEntry cw t = learnedEntry cw s ∧ codeLen cw t = codeLen cw s := by
  have hp := h.tab_eq _ hprev.1 hprev.2
  unfold learnedEntry codeFirst codeLen
  rw [h.outside.wid_eq, ← h.prev_eq, ← hp]
  by_cases hhit : cw.toNat < s.wid.n.toNat
  · rw [h.tab_eq cw hhit h256]
    exact ⟨rfl, rfl⟩
  · simp only [hhit, if_false, and_self]

/-- The bookkeeping of D_READ writes the same entry at the same codes. -/
theorem SameDecoder.learnEntry {s t : State} (h : SameDecoder s t) (hs : WidthInv s)
    (ht : WidthInv t) (hms : s.mem.wf = true) (hmt : t.mem.wf = true) (e : TabEntry) :
    SameDecoder (learnEntry e s) (learnEntry e t) := by
  obtain ⟨ho, htab, hprev⟩ := h
  obtain ⟨m, hl, -, -, hm⟩ := learnEntry_spec hs hms e
  obtain ⟨m', hl', -, -, hm'⟩ := learnEntry_spec ht hmt e
  rw [hl, hl']
  have hnext : nextN t = nextN s := by cases ho; rfl
  refine ⟨by cases ho; exact .intro _ _ _, fun j hj h256 => ?_, hprev⟩
  rw [hs.nextWidth_n] at hj
  rw [hm, hm', hnext, ho.wid_eq]
  split_ifs
  · rfl
  · exact htab j (by omega) h256

theorem SameDecoder.with_arb {s t : State} (h : SameDecoder s t) (a : Arbiter) :
    SameDecoder { s with arb := a } { t with arb := a } :=
  ⟨by cases h.outside; exact .intro _ _ _, h.tab_eq, h.prev_eq⟩

theorem SameDecoder.takeCode {s t : State} (h : SameDecoder s t) (cw : Code) :
    SameDecoder (takeCode cw s) (takeCode cw t) :=
  ⟨by cases h.outside; exact .intro _ _ _, h.tab_eq, h.prev_eq⟩

theorem SameDecoder.with_prev {s t : State} (h : SameDecoder s t) (cw : Code) :
    SameDecoder { s with dec.prev := cw } { t with dec.prev := cw } :=
  ⟨by cases h.outside; exact .intro _ _ _, h.tab_eq, rfl⟩

/-- On to a next state of the decoder. -/
theorem SameDecoder.goto {s t : State} (h : SameDecoder s t) {p : Phase}
    (hp : decPhase p = true) : SamePass (goto p s) (goto p t) :=
  .of_dec (by cases h.outside; exact .intro _ _ _) hp h.tab_eq fun _ => h.prev_eq

theorem SameDecoder.consultDec {s t : State} (h : SameDecoder s t) :
    SamePass (consultDec s) (consultDec t) := by
  obtain ⟨p, a, hp, hs, ht⟩ := h.outside.consultDec
  rw [hs, ht]
  exact (h.with_arb a).goto hp

/-- D_READ of a HIT or KWKWK codeword in two sound states. -/
theorem SameDecoder.learnCode {s t : State} {cw : Code} (h : SameDecoder s t) (hs : Inv s)
    (ht : Inv t) (hp : prevPhase s.ctl.st = true) (h256 : cw.toNat ≠ 256) :
    FlowsAlike Alike (learnCode cw s) (learnCode cw t) := by
  obtain ⟨hentry, hlen⟩ := h.learned_eq (hs.decoder.previous hp) h256
  have hlearned := (h.takeCode cw).learnEntry (hs.width.frame rfl rfl) (ht.width.frame rfl rfl)
    hs.memory ht.memory (learnedEntry cw s)
  unfold Machine.learnCode
  rw [hentry, hlen, h.outside.wid_eq]
  refine (FlowsAlike.checkCounter hlearned.outside hlearned).andThen fun s1 t1 h1 => ?_
  have hprev := h1.with_prev cw
  refine (FlowsAlike.accumulate hprev.outside _ _ hprev.with_arb).andThen fun s2 t2 h2 => ?_
  exact .cont (.of_samePass h2.consultDec)

/-! ### The decoder's transitions -/

/-- The mode tag fixes POL, which until then may differ. -/
theorem SamePass.takeTag {s t : State} (h : SamePass s t) (hst : s.ctl.st = .dTag) (b : Byte) :
    Alike (takeTag b s) (takeTag b t) := by
  have htab := h.tab_eq (by rw [hst]; rfl)
  unfold Machine.takeTag
  cases policyOfTag b with
  | none => exact .raise _ _ h.ctl_eq h.wid_eq (by rw [skipBits_port, skipBits_port, h.port_eq])
  | some p =>
    have ho : SameOutside (Machine.goto .dFirst { skipBits 8 s with ctl.pol := p })
        (Machine.goto .dFirst { skipBits 8 t with ctl.pol := p }) := by
      obtain ⟨q, ⟨e, d, m⟩⟩ := h.outside_but_pol
      exact .intro _ _ _
    exact .of_samePass (.of_dec ho rfl htab nofun)

/-- A literal starts a generation: PREV, stale until then, is written. -/
theorem SamePass.startGeneration {s t : State} (h : SamePass s t) (hst : s.ctl.st = .dFirst)
    (cw : Code) : FlowsAlike Alike (startGeneration cw s) (startGeneration cw t) := by
  have ho := h.outside (by simp [hst])
  have hd : SameDecoder { takeCode cw s with dec.prev := cw }
      { takeCode cw t with dec.prev := cw } :=
    ⟨by cases ho; exact .intro _ _ _, h.tab_eq (by rw [hst]; rfl), rfl⟩
  unfold Machine.startGeneration
  rw [ho.wid_eq]
  refine (FlowsAlike.accumulate hd.outside _ _ hd.with_arb).andThen fun u v huv => ?_
  exact .cont (.of_samePass (huv.goto rfl))

/-- EOF ends the pass on both sides. -/
theorem SameOutside.endStream {s t : State} (ho : SameOutside s t) (cw : Code) :
    Alike (endStream cw s) (endStream cw t) :=
  .of_ended (by cases ho; exact .intro _ _ _) rfl

/-- The string of PREV, and back to the wire. -/
theorem SamePass.emitPrev {s t : State} (h : SamePass s t) (hi : Inv s)
    (hp : prevPhase s.ctl.st = true) (hdec : decPhase s.ctl.st = true) {k : State → State}
    (hk : ∀ {u v : State}, SameDecoder u v → SamePass (k u) (k v)) :
    Matched (emitPrev s k) (emitPrev t k) := by
  have hd := h.sameDecoder hp hdec
  refine .emitPrev (hd.str_eq hi hp hdec) fun bs => .of_samePass (hk ?_)
  exact ⟨by cases hd.outside; exact .intro _ _ _, hd.tab_eq, hd.prev_eq⟩

/-- The reinitialization of D_RESET leaves no entry that counts but the hardwired ones. -/
theorem SameDecoder.restart {s t : State} (h : SameDecoder s t) :
    SamePass (Machine.goto .dFirst (reinit s)) (Machine.goto .dFirst (reinit t)) :=
  .of_dec (by cases h.outside; exact .intro _ _ _) rfl
    (fun _ hj h256 => tabRead_eq_of_start _ _ hj h256) nofun

/-- A transition of the decoder, fired in two sound states of one pass. -/
theorem SamePass.execDec {s t : State} {i : Instr} (h : SamePass s t) (hs : Inv s) (ht : Inv t)
    (hp : decPhase s.ctl.st = true) (hrow : i ∈ phaseRows s.ctl.st) :
    Matched (exec i s) (exec i t) := by
  have hstt : t.ctl.st = s.ctl.st := (congrArg Control.st h.ctl_eq).symm
  cases hst : s.ctl.st <;> simp [hst, decPhase] at hp <;>
    simp only [hst, phaseRows, List.mem_cons, List.not_mem_nil, or_false] at hrow
  case dTag =>
    subst hrow
    have htag : nextTag t = nextTag s := by simp only [nextTag, nextBits, h.port_eq]
    simp only [exec, execDecTag, hstt, htag]
    refine .guarded fun _ => ?_
    cases nextTag s with
    | none => exact .next (.raise _ _ h.ctl_eq h.wid_eq h.port_eq)
    | some b => exact .next (h.takeTag hst b)
  case dFirst =>
    have ho := h.outside (by simp [hst])
    rcases hrow with rfl | rfl | rfl <;>
      simp only [exec, execDecFirstEof, execDecFirstLiteral, execDecFirstReserved, hstt] <;>
      refine .guarded fun _ => .read ho fun cw => .guarded fun _ => ?_
    · exact .next (ho.endStream cw)
    · exact (h.startGeneration hst cw).matched
    · exact .next (.of_ended (by cases ho; exact .intro _ _ _) rfl)
  case dEmit =>
    subst hrow
    simp only [exec, execDecEmit, hstt]
    refine .guarded fun _ => h.emitPrev hs ?_ ?_ fun hd => hd.goto rfl
    all_goals rw [hst]; rfl
  case dRead =>
    have hprev : prevPhase s.ctl.st = true := by rw [hst]; rfl
    have hd := h.sameDecoder hprev (by rw [hst]; rfl)
    rcases hrow with rfl | rfl | rfl <;>
      simp only [exec, execDecReadEof, execDecReadLearn, execDecReadReserved, hstt,
        hd.outside.wid_eq] <;>
      refine .guarded fun _ => .read hd.outside fun cw => .guarded fun hguard => ?_
    · have h256 : cw.toNat ≠ 256 := by
        simp only [Bool.and_eq_true, decide_eq_true_eq] at hguard
        exact hguard.1
      exact (hd.learnCode hs ht hprev h256).matched
    · exact .next (hd.outside.endStream cw)
    · exact .next (.of_ended (by cases hd.outside; exact .intro _ _ _) rfl)
  case dReset =>
    subst hrow
    simp only [exec, execDecReset, hstt]
    refine .guarded fun _ => h.emitPrev hs ?_ ?_ fun hd => hd.restart
    all_goals rw [hst]; rfl

/-! ### The core's turn -/

/-- Only E_SCAN looks at the dictionary to choose its transition. -/
theorem decodeFsm_congr_lookup {v : View} {p : Phase} {k : Option Code}
    (h : p = .eScan → k = v.lookup) :
    decodeFsm { v with lookup := k } p.code = decodeFsm v p.code := by
  cases p
  case eScan => rw [h rfl]
  all_goals rfl

/-- Two states of one pass fire the same transition. -/
theorem SamePass.fetchTransition_eq {s t : State} (h : SamePass s t) :
    fetchTransition t = fetchTransition s := by
  have hst : t.ctl.st = s.ctl.st := (congrArg Control.st h.ctl_eq).symm
  have hbusy : t.ctl.busy = s.ctl.busy := (congrArg Control.busy h.ctl_eq).symm
  have hview : viewOf t = { viewOf s with lookup := nextLookup t } := by
    simp only [viewOf, inEmpty, nextByte, nextCode, nextBits, h.port_eq, h.wid_eq]
  unfold fetchTransition
  rw [hst, hbusy, hview, decodeFsm_code, decodeFsm_code, decodeFsm_congr_lookup h.nextLookup_eq]

/-- The core's turn in two sound running states of one pass. -/
theorem SamePass.coreTurn {s t : State} (h : SamePass s t) (hs : Inv s) (ht : Inv t) :
    Matched (coreTurn s) (coreTurn t) := by
  unfold Machine.coreTurn
  rw [h.fetchTransition_eq]
  cases hf : fetchTransition s with
  | reject r => exact .next (.of_samePass h)
  | instr i =>
    obtain ⟨busy, hrow⟩ := fetchTransition_mem_rows hf
    rcases hs.running busy with hp | hp
    · exact h.execEnc hs hp hrow
    · exact h.execDec hs ht hp hrow

/-! ### START -/

section

variable {s t : State} (hcmd : s.ctl.cmd = t.ctl.cmd) (hinp : s.port.inp = t.port.inp)
  (hhost : s.host = t.host) (harith : s.ratioArith = t.ratioArith)

include hcmd hinp hhost harith

/-- A compress starts with an empty dictionary and its own POL. -/
theorem startCompress_samePass (p : Policy) : SamePass (startCompress p s) (startCompress p t) :=
  ⟨by simp [startCompress, openPorts, hcmd], fun _ => rfl, rfl, rfl, rfl, rfl,
    by simp [startCompress, openPorts, hinp], hhost, harith, fun _ => rfl, nofun, nofun,
    nofun, nofun⟩

/-- An expand starts with the hardwired entries, and leaves POL to the tag. -/
theorem startExpand_samePass : SamePass (startExpand s) (startExpand t) :=
  ⟨by simp [startExpand, openPorts, hcmd], fun h => absurd rfl h, rfl, rfl, rfl, rfl,
    by simp [startExpand, openPorts, hinp], hhost, harith, nofun,
    fun _ _ hj h256 => tabRead_eq_of_start _ _ hj h256, nofun, nofun, nofun⟩

/-- START begins the same pass whatever the state before, but for CMD, the input, the host's side
and RATIO_ARITH (`45_host_commands.md` R333). -/
theorem startPass_samePass (hbusy : (startPass s).ctl.busy = true) :
    SamePass (startPass s) (startPass t) := by
  by_cases hc : cmdOp s.ctl.cmd = opCompress
  · by_cases hp : ∃ p : Policy, cmdPolicy s.ctl.cmd = p.tag
    · obtain ⟨p, hp⟩ := hp
      rw [startPass_compress hc hp, startPass_compress (hcmd ▸ hc) (hcmd ▸ hp)]
      exact startCompress_samePass hcmd hinp hhost harith p
    · rw [startPass_badPolicy hc (not_exists.1 hp)] at hbusy
      cases hbusy
  · by_cases he : cmdOp s.ctl.cmd = opExpand
    · rw [startPass_expand he, startPass_expand (hcmd ▸ he)]
      exact startExpand_samePass hcmd hinp hhost harith
    · rw [startPass_badOp hc he] at hbusy
      cases hbusy

end

/-- Settles O59: START sets every register its pass reads, and each transition of the pass reads
what agrees. -/
theorem staleStateIsNeverRead : Obligations.StaleStateIsNeverRead := by
  refine ⟨?_, ?_⟩
  · intro s t v s' _ _ hidle hidle' hv hcmd hinp hhost harith hexec hbusy
    rw [exec_start_idle hv hidle] at hexec
    cases hexec
    exact ⟨_, exec_start_idle hv hidle', startPass_samePass hcmd hinp hhost harith hbusy⟩
  · intro s t s' hs ht h _ hpending hstep
    have hpending' : t.host.pending = [] := by rw [← h.host_eq, hpending]
    simp only [step, stepTurn, hpending] at hstep
    obtain ⟨t', ht', halike⟩ := h.coreTurn hs ht s' hstep
    refine ⟨t', ?_, halike.ctl_eq, halike.port_eq, halike.err_eq, halike.pass⟩
    simp only [step, stepTurn, hpending', ht']

end Sys2Proof.Machine
end

section
/-! PROOFS. ERROR is left only by START and hardware reset (`60_exceptions.md` R373): an idle core
fires nothing, and no other host action reaches beyond CMD and the input. -/

namespace Sys2Proof.Machine

/-- From `s` to `t` nothing changed but CMD, the input and the host's own side. -/
def CoreKept (s t : State) : Prop :=
  t = { s with
    ctl := { s.ctl with cmd := t.ctl.cmd }
    port := { s.port with inp := t.port.inp }
    host := t.host }

/-- The host's next action is one of the two ways out of ERROR: a write of CTRL with bit 0 set, or
a hardware reset. -/
def LeavesError (a : HostAction) : Prop :=
  (∃ v, a = .csr (.write 0x00 v) ∧ v.getLsbD 0 = true) ∨ a = .hardwareReset

/-- With BUSY clear the core's turn keeps all state (`60_exceptions.md` R381). -/
theorem coreTurn_idle {s : State} (hidle : s.ctl.busy = false) : coreTurn s = .next s := by
  simp [coreTurn, fetchTransition, hidle]

/-- A CSR access other than START leaves the core as it is, but for CMD. -/
theorem CoreKept.csrTurn {s t : State} {a : CsrAccess} (hidle : s.ctl.busy = false)
    (ha : ¬ LeavesError (.csr a)) (h : csrTurn a s = .next t) : CoreKept s t := by
  cases a with
  | read off =>
    simp only [Machine.csrTurn, decode, decodeCsr] at h
    by_cases haligned : off.toNat % 4 = 0
    · simp only [haligned, if_true, exec, execCsrRead] at h
      cases h
      rfl
    · simp only [haligned, if_false] at h
      cases h
  | write off v =>
    by_cases haligned : off.toNat % 4 = 0
    · by_cases hcmd : off = 0x04
      · subst hcmd
        have h : exec (.cmdWrite v) s = .next t := h
        rw [(cmdWriteSetsCmdWhileIdle s v).1 hidle] at h
        cases h
        rfl
      · have hstart (h0 : off.toNat = 0) : v.getLsbD 0 = false := by
          obtain rfl : off = 0x00 := BitVec.eq_of_toNat_eq h0
          exact eq_false_of_ne_true fun hv => ha (.inl ⟨v, rfl, hv⟩)
        have hignored : decodeCsr (.write off v) = .reject .ignoredWrite :=
          decodeCsr_ignoredWrite haligned (fun h4 => hcmd (BitVec.eq_of_toNat_eq h4)) hstart
        simp only [Machine.csrTurn, decode, hignored] at h
        cases h
        rfl
    · simp only [Machine.csrTurn, decode, decodeCsr, if_pos haligned] at h
      cases h

/-- Any host action of an idle core but the two ways out of ERROR leaves the core as it is, but for
CMD and the input. -/
theorem CoreKept.hostTurn {s t : State} {a : HostAction} (hidle : s.ctl.busy = false)
    (ha : ¬ LeavesError a) (h : hostTurn a s = .next t) : CoreKept s t := by
  cases a with
  | csr a => exact .csrTurn hidle ha h
  | load bytes =>
    simp only [Machine.hostTurn, hidle, Bool.false_eq_true, if_false] at h
    cases h
    rfl
  | turn =>
    cases (coreTurn_idle hidle).symm.trans h
    rfl
  | wait =>
    simp only [Machine.hostTurn, hidle, Bool.false_eq_true, if_false] at h
    cases h
    rfl
  | check =>
    simp only [Machine.hostTurn] at h
    cases h
    split_ifs
    · rfl
    · rfl
  | hardwareReset => exact absurd (.inr rfl) ha

/-- Settles O25: the flags say the core is idle, so without a pending action the step keeps the
state, and a pending action either is one of the two exits or leaves the core as it is. -/
theorem errorIsLeftOnlyByStartOrReset : Obligations.ErrorIsLeftOnlyByStartOrReset := by
  intro s t hctl hst h
  have hidle : s.ctl.busy = false := by
    rw [hctl.busy_running, hst]
    rfl
  unfold step stepTurn at h
  cases hpending : s.host.pending with
  | nil =>
    simp only [hpending, coreTurn_idle hidle] at h
    cases h
    exact .inl rfl
  | cons a rest =>
    simp only [hpending] at h
    by_cases ha : LeavesError a
    · refine .inr ?_
      rcases ha with ⟨v, rfl, hv⟩ | rfl
      · exact .inl ⟨v, rest, rfl, hv⟩
      · exact .inr ⟨rest, rfl⟩
    · exact .inl (CoreKept.hostTurn (s := { s with host.pending := rest }) hidle ha h)

end Sys2Proof.Machine
end

section
/-! PROOFS. The checks of the data steps (`60_exceptions.md` R366) where they stop a step: a code
not below L, and a counter above L, which gets no entry and no promotion. -/

namespace Sys2Proof.Machine

/-! ### A counter above L -/

/-- A counter above L inserts nothing and grows nothing (`42_width_controller.md` R251, R252). -/
theorem width_tests_of_overflow {s : State} (hn : s.wid.l.toNat < s.wid.n.toNat) :
    canInsert s = false ∧ shouldGrow s = false := by
  refine ⟨eq_false_of_ne_true fun h => ?_, eq_false_of_ne_true fun h => ?_⟩
  · have := (canInsert_iff s).1 h
    omega
  · have := ((shouldGrow_iff s).1 h).2
    omega

theorem learnKey_of_overflow {s : State} (hn : s.wid.l.toNat < s.wid.n.toNat) :
    learnKey s = s := by
  obtain ⟨hinsert, hgrow⟩ := width_tests_of_overflow hn
  simp [learnKey, hinsert, hgrow]

theorem advanceCounter_of_overflow {s : State} (hn : s.wid.l.toNat < s.wid.n.toNat) :
    advanceCounter s = s := by
  obtain ⟨hinsert, hgrow⟩ := width_tests_of_overflow hn
  simp [advanceCounter, hinsert, hgrow]

theorem learnEntry_of_overflow {s : State} (hn : s.wid.l.toNat < s.wid.n.toNat) (e : TabEntry) :
    learnEntry e s = s := by
  obtain ⟨hinsert, hgrow⟩ := width_tests_of_overflow hn
  simp [learnEntry, hinsert, hgrow]

theorem checkCounter_of_overflow {s : State} (hn : s.wid.l.toNat < s.wid.n.toNat) :
    checkCounter s = .raised (raiseFault .counter 0 s) :=
  if_pos hn

/-! ### The data steps that a check stops -/

/-- A code not below L stops E_STEP and E_LAST before the codeword. -/
theorem emitMatch_of_value {s : State} (hcur : s.wid.l.toNat ≤ s.enc.cur.toNat)
    (learn : State → State) : emitMatch learn s = .raised (raiseFault .value s.enc.cur s) := by
  have hvalue : checkValue s = .raised (raiseFault .value s.enc.cur s) := if_pos hcur
  rw [emitMatch, hvalue, Flow.andThen_raised]

/-- A counter above L stops them after the codeword, as bookkeeping keeps such a state. -/
theorem emitMatch_of_counter {learn : State → State} {s : State}
    (hcur : s.enc.cur.toNat < s.wid.l.toNat) (hn : s.wid.l.toNat < s.wid.n.toNat)
    (hl : ∀ u : State, u.wid.l.toNat < u.wid.n.toNat → learn u = u) :
    emitMatch learn s = .raised (raiseFault .counter 0 (writeCode s.enc.cur.toNat s)) := by
  have hvalue : checkValue s = .cont s := if_neg (Nat.not_le.2 hcur)
  have hcounter := checkCounter_of_overflow (s := writeCode s.enc.cur.toNat s) hn
  rw [emitMatch, hvalue, Flow.andThen_cont, hl (writeCode _ s) hn, hcounter, Flow.andThen_raised]

/-- A counter above L stops D_READ after the codeword it has taken. -/
theorem learnCode_of_counter {s : State} (hn : s.wid.l.toNat < s.wid.n.toNat) (cw : Code) :
    learnCode cw s = .raised (raiseFault .counter 0 (takeCode cw s)) := by
  have hcounter := checkCounter_of_overflow (s := takeCode cw s) hn
  rw [learnCode, learnEntry_of_overflow (s := takeCode cw s) hn, hcounter, Flow.andThen_raised]

/-! ### The transitions -/

/-- ENC_STEP answers the state its steps were stopped in. -/
theorem exec_encStep_of_raised {s t : State} (hst : s.ctl.st = .eStep)
    (h : emitMatch learnKey s = .raised t) : exec .encStep s = .next t := by
  simp [exec, execEncStep, hst, h]

/-- ENC_LAST answers the state its steps were stopped in. -/
theorem exec_encLast_of_raised {s t : State} (hst : s.ctl.st = .eLast)
    (h : emitMatch advanceCounter s = .raised t) : exec .encLast s = .next t := by
  simp [exec, execEncLast, hst, h]

/-- DEC_READ_LEARN answers the state its steps were stopped in. -/
theorem exec_decReadLearn_of_raised {s t : State} {cw : Code} (hst : s.ctl.st = .dRead)
    (hcw : nextCode s = some cw) (hne : cw.toNat ≠ 256) (hle : cw.toNat ≤ s.wid.n.toNat)
    (h : learnCode cw s = .raised t) : exec .decReadLearn s = .next t := by
  simp [exec, execDecReadLearn, hst, readCode_some hcw, Config.eofCode, hne, hle, h]

/-- Settles O26: the check of CUR stops the encoder's steps first, and the check of N all three data
steps once the codeword is out or in. -/
theorem overflowChecksRaiseWidthOverflow : Obligations.OverflowChecksRaiseWidthOverflow := by
  refine ⟨fun s hst hcur => ?_, fun s hst hcur => ?_, ?_, ?_⟩
  · exact exec_encStep_of_raised hst (emitMatch_of_value hcur _)
  · exact exec_encLast_of_raised hst (emitMatch_of_value hcur _)
  · rintro s hcur hn _ rfl
    refine ⟨fun _ hst => ?_, fun _ hst => ?_⟩
    · exact exec_encStep_of_raised hst (emitMatch_of_counter hcur hn fun _ => learnKey_of_overflow)
    · exact exec_encLast_of_raised hst
        (emitMatch_of_counter hcur hn fun _ => advanceCounter_of_overflow)
  · intro s cw hst _ hcw hne hle hn
    exact exec_decReadLearn_of_raised hst hcw hne hle (learnCode_of_counter hn cw)

end Sys2Proof.Machine
end

section
/-! PROOFS. Every pass ends (`70_reset_and_hazards.md` R431): from a running state a transition ends
the pass, reads at least eight bits of the input, or takes ST closer to the next read or the end. -/

namespace Sys2Proof.Machine

/-! ### The measure of a pass -/

/-- From this state of ST at most so many transitions lead to a read of the input or to the end of
the pass. -/
def phaseRank : Phase → Nat
  | .idle => 0
  | .done => 0
  | .error => 0
  | .eTag => 3
  | .eFirst => 2
  | .eScan => 3
  | .eStep => 4
  | .eLast => 2
  | .eEof => 1
  | .dTag => 2
  | .dFirst => 1
  | .dEmit => 2
  | .dRead => 1
  | .dReset => 2

theorem phaseRank_le (p : Phase) : phaseRank p ≤ 4 := by
  cases p <;> decide

/-- The bits of the input past the byte position of the encoder and past the bit position of the
decoder. A pass moves only its own side's. -/
def unreadBits (s : State) : Nat :=
  8 * (s.port.inp.length - s.port.ip) + (8 * s.port.inp.length - s.port.bp)

/-- What a running pass has left: it falls with every transition. -/
def passLeft (s : State) : Nat := unreadBits s + phaseRank s.ctl.st

/-- `t` has the input, both positions, BUSY and the host's side of `s`. -/
structure InputKept (s t : State) : Prop where
  busy_eq : t.ctl.busy = s.ctl.busy
  host_eq : t.host = s.host
  inp_eq : t.port.inp = s.port.inp
  ip_eq : t.port.ip = s.port.ip
  bp_eq : t.port.bp = s.port.bp

theorem InputKept.refl (s : State) : InputKept s s := ⟨rfl, rfl, rfl, rfl, rfl⟩

theorem InputKept.trans {s t u : State} (h : InputKept s t) (h' : InputKept t u) :
    InputKept s u where
  busy_eq := h'.busy_eq.trans h.busy_eq
  host_eq := h'.host_eq.trans h.host_eq
  inp_eq := h'.inp_eq.trans h.inp_eq
  ip_eq := h'.ip_eq.trans h.ip_eq
  bp_eq := h'.bp_eq.trans h.bp_eq

theorem InputKept.unreadBits_eq {s t : State} (h : InputKept s t) :
    unreadBits t = unreadBits s := by
  rw [unreadBits, h.inp_eq, h.ip_eq, h.bp_eq, unreadBits]

/-! ### Running passes -/

/-- What a running decoder needs in order to fire: W is at least 9, and `Str(PREV)` exists where ST
writes it (`42_width_controller.md` R257, `44_code_table.md` R304). -/
structure DecPass (s : State) : Prop where
  running : decPhase s.ctl.st = true
  side_eq : s.ctl.side = .dec
  width : WidthInv s
  memory : s.mem.wf = true
  links : LinksOk s.mem s.wid.n.toNat
  previous : prevPhase s.ctl.st = true →
    s.dec.prev.toNat < s.wid.n.toNat ∧ s.dec.prev.toNat ≠ 256

/-- A running pass of either side. The encoder can fire in every running state. -/
structure Running (s : State) : Prop where
  busy : s.ctl.busy = true
  pass : encPhase s.ctl.st = true ∨ DecPass s

/-- A sound busy core is in a running pass. -/
theorem Inv.running_pass {s : State} (h : Inv s) (busy : s.ctl.busy = true) : Running s := by
  refine ⟨busy, (h.running busy).imp_right fun hp => ?_⟩
  exact ⟨hp, h.control.dec_side hp, h.width, h.memory, h.decoder.links hp, h.decoder.previous⟩

/-- A step that leaves the table and the width controller alone keeps a decoder's pass, if PREV is
a string where ST says so. -/
theorem DecPass.frame {s t : State} (h : DecPass s) (hp : decPhase t.ctl.st = true)
    (hside : t.ctl.side = s.ctl.side) (hwid : t.wid = s.wid) (hmem : t.mem = s.mem)
    (hprev : prevPhase t.ctl.st = true →
      t.dec.prev.toNat < s.wid.n.toNat ∧ t.dec.prev.toNat ≠ 256) : DecPass t where
  running := hp
  side_eq := hside.trans h.side_eq
  width := h.width.frame hwid hside
  memory := by rw [hmem, h.memory]
  links := by rw [hmem, hwid]; exact h.links
  previous := by rw [hwid]; exact hprev

/-! ### What a transition does to the pass -/

/-- The step from `s` to `t` ends the pass, or `t` is running with less left. -/
inductive Proceeds (s t : State) : Prop where
  | ended (st_eq : t.ctl.st = .done ∨ t.ctl.st = .error)
  | onward (running : Running t) (host_eq : t.host = s.host) (less : passLeft t < passLeft s)

theorem Proceeds.raise (s : State) (k : FaultKind) (v : Code) (u : State) :
    Proceeds s (raiseFault k v u) :=
  .ended (.inr rfl)

/-- Without a read, ST comes closer to one, or to the end. -/
theorem Proceeds.move {s t : State} {p : Phase} (q : Phase) (hr : Running t) (h : InputKept s t)
    (hs : s.ctl.st = p) (ht : t.ctl.st = q) (hrank : phaseRank q < phaseRank p) :
    Proceeds s t := by
  refine .onward hr h.host_eq ?_
  rw [passLeft, passLeft, h.unreadBits_eq, hs, ht]
  omega

/-- The encoder reads a byte. -/
theorem Proceeds.readByte {s t : State} (hr : Running t) (h : InputKept (skipByte s) t)
    (hlt : s.port.ip < s.port.inp.length) : Proceeds s t := by
  refine .onward hr h.host_eq ?_
  have hrank := phaseRank_le t.ctl.st
  have hunread : unreadBits (skipByte s) + 8 = unreadBits s := by
    simp only [unreadBits, skipByte_port]
    omega
  rw [passLeft, passLeft, h.unreadBits_eq]
  omega

/-- The decoder reads at least eight bits. -/
theorem Proceeds.readBits {s t : State} {w : Nat} (hr : Running t)
    (h : InputKept (skipBits w s) t) (hw : 8 ≤ w)
    (hle : s.port.bp + w ≤ 8 * s.port.inp.length) : Proceeds s t := by
  refine .onward hr h.host_eq ?_
  have hrank := phaseRank_le t.ctl.st
  have hunread : unreadBits (skipBits w s) + w = unreadBits s := by
    simp only [unreadBits, skipBits_port]
    omega
  rw [passLeft, passLeft, h.unreadBits_eq]
  omega

/-! ### Flows -/

/-- The flow goes on in a state with `P`, or the fault entry has ended it. -/
inductive Flow.GoesOn (P : State → Prop) : Flow → Prop where
  | cont {s : State} (h : P s) : (Flow.cont s).GoesOn P
  | raised (k : FaultKind) (v : Code) (s : State) : (Flow.raised (raiseFault k v s)).GoesOn P

theorem Flow.GoesOn.andThen {P Q : State → Prop} {f : Flow} {k : State → Flow} (h : f.GoesOn P)
    (hk : ∀ s, P s → (k s).GoesOn Q) : (f.andThen k).GoesOn Q := by
  cases h with
  | cont h => exact hk _ h
  | raised k v s => exact .raised k v s

theorem checkValue_goesOn {P : State → Prop} {s : State} (h : P s) : (checkValue s).GoesOn P := by
  rcases checkValue_cases s with ⟨-, hc⟩ | ⟨-, hc⟩ <;> rw [hc]
  · exact .cont h
  · exact .raised _ _ _

theorem checkCounter_goesOn {P : State → Prop} {s : State} (h : P s) :
    (checkCounter s).GoesOn P := by
  rcases checkCounter_cases s with ⟨-, hc⟩ | ⟨-, hc⟩ <;> rw [hc]
  · exact .cont h
  · exact .raised _ _ _

theorem accumulate_goesOn {P : State → Prop} {s : State} (h : ∀ a, P { s with arb := a })
    (len w : Nat) : (accumulate len w s).GoesOn P := by
  rcases accumulate_writes_arb len w s with ⟨a, ha⟩ | ⟨k, ha⟩ <;> rw [ha]
  · exact .cont (h a)
  · exact .raised _ _ _

/-- A fault ends the pass too. -/
theorem Flow.GoesOn.proceeds {s : State} {f : Flow} (h : f.GoesOn (Proceeds s)) :
    ∃ t, f.outcome = .next t ∧ Proceeds s t := by
  cases h with
  | cont h => exact ⟨_, rfl, h⟩
  | raised k v u => exact ⟨_, rfl, .raise s k v u⟩

/-! ### The core's turn -/

/-- The core's turn fires a transition with which the pass proceeds. -/
def TurnProceeds (s : State) : Prop := ∃ t, coreTurn s = .next t ∧ Proceeds s t

section

variable {s : State} {p : Phase} {i : Instr} (busy : s.ctl.busy = true) (hst : s.ctl.st = p)
  (hrow : decodeFsm (viewOf s) p.code = .instr i)

include busy hst hrow

/-- A busy core fires the transition that ST and the guards select. -/
theorem coreTurn_busy : coreTurn s = exec i s := by
  have hfetch : fetchTransition s = .instr i := by
    rw [fetchTransition, if_pos busy, decodeFsm_code, hst, hrow]
  rw [coreTurn, hfetch]

/-- A transition with one outcome. -/
theorem TurnProceeds.of_exec {t : State} (hexec : exec i s = .next t) (h : Proceeds s t) :
    TurnProceeds s :=
  ⟨t, (coreTurn_busy busy hst hrow).trans hexec, h⟩

/-- A transition of several steps that may raise. -/
theorem TurnProceeds.of_flow {f : Flow} (hexec : exec i s = f.outcome)
    (h : f.GoesOn (Proceeds s)) : TurnProceeds s := by
  rw [TurnProceeds, coreTurn_busy busy hst hrow, hexec]
  exact h.proceeds

end

/-- The first row of D_FIRST and of D_READ stands for a read that finds too few bits (log 16). -/
theorem decodeFsm_short {s : State} (h : nextCode s = none) :
    decodeFsm (viewOf s) Phase.dFirst.code = .instr .decFirstEof
      ∧ decodeFsm (viewOf s) Phase.dRead.code = .instr .decReadLearn := by
  simp [decodeFsm, phaseOfCode_code, viewOf, h]

/-- D_FIRST chooses by the codeword it reads. -/
theorem decodeFsm_dFirst {s : State} {cw : Code} (h : nextCode s = some cw) :
    decodeFsm (viewOf s) Phase.dFirst.code = .instr (if cw.toNat = 256 then .decFirstEof
      else if cw.toNat < 256 then .decFirstLiteral else .decFirstReserved) := by
  simp [decodeFsm, phaseOfCode_code, viewOf, h]

/-- D_READ chooses by the codeword it reads and N. -/
theorem decodeFsm_dRead {s : State} {cw : Code} (h : nextCode s = some cw) :
    decodeFsm (viewOf s) Phase.dRead.code = .instr (if cw.toNat = 256 then .decReadEof
      else if cw.toNat ≤ s.wid.n.toNat then .decReadLearn else .decReadReserved) := by
  simp [decodeFsm, phaseOfCode_code, viewOf, h]

/-! ### The encoder -/

theorem consultEnc_inputKept (s : State) : InputKept s (consultEnc s) := by
  rcases SameOutside.consultEnc (.intro s.enc s.dec s.mem) with ⟨a, h, -⟩ | ⟨h, -⟩ <;> rw [h]
  · exact ⟨rfl, rfl, rfl, rfl, rfl⟩
  · exact ⟨rfl, rfl, rfl, rfl, rfl⟩

theorem learnKey_inputKept (s : State) : InputKept s (learnKey s) := by
  obtain ⟨m, h, -⟩ := learnKey_spec s
  rw [h]
  exact ⟨rfl, rfl, rfl, rfl, rfl⟩

theorem advanceCounter_inputKept (s : State) : InputKept s (advanceCounter s) := by
  rw [advanceCounter_eq]
  exact ⟨rfl, rfl, rfl, rfl, rfl⟩

/-- E_STEP and E_LAST read no input: what they do happens on the side of the output. -/
theorem emitMatch_goesOn {learn : State → State} (hl : ∀ u, InputKept u (learn u)) (s : State) :
    (emitMatch learn s).GoesOn (InputKept s) := by
  refine (checkValue_goesOn (InputKept.refl s)).andThen fun s1 h1 => ?_
  have hwrite : InputKept s1 (writeCode s1.enc.cur.toNat s1) := ⟨rfl, rfl, rfl, rfl, rfl⟩
  refine (checkCounter_goesOn ((h1.trans hwrite).trans (hl _))).andThen fun s2 h2 => ?_
  refine (accumulate_goesOn (fun a => ?_) _ _).andThen fun s3 (h3 : InputKept s s3) => ?_
  · exact h2.trans ⟨rfl, rfl, rfl, rfl, rfl⟩
  · exact .cont (h3.trans (consultEnc_inputKept s3))

/-- E_FIRST takes a byte, or finds none and goes to E_EOF. -/
theorem eFirst_proceeds {s : State} (busy : s.ctl.busy = true) (hst : s.ctl.st = .eFirst) :
    TurnProceeds s := by
  have hrow : decodeFsm (viewOf s) Phase.eFirst.code
      = .instr (if inEmpty s then .encFirstEmpty else .encFirstByte) := rfl
  obtain ⟨hempty, hbyte⟩ := encFirstTakesTheFirstByte s hst
  cases hb : nextByte s with
  | none =>
    have hend : s.port.inp.length ≤ s.port.ip := List.getElem?_eq_none_iff.1 hb
    rw [if_pos (inEmpty_of_le hend)] at hrow
    exact .of_exec busy hst hrow (hempty hend)
      (.move .eEof ⟨busy, .inl rfl⟩ ⟨rfl, rfl, rfl, rfl, rfl⟩ hst rfl (by decide))
  | some b =>
    rw [if_neg (by simp [inEmpty, hb])] at hrow
    exact .of_exec busy hst hrow (hbyte b hb)
      (.readByte ⟨busy, .inl rfl⟩ ⟨rfl, rfl, rfl, rfl, rfl⟩ (nextByte_lt hb))

/-- E_SCAN takes a byte, or finds none and goes to E_LAST. -/
theorem eScan_proceeds {s : State} (busy : s.ctl.busy = true) (hst : s.ctl.st = .eScan) :
    TurnProceeds s := by
  have hrow : decodeFsm (viewOf s) Phase.eScan.code = .instr (if inEmpty s then .encScanEnd
      else if (nextLookup s).isSome then .encScanHit else .encScanMiss) := rfl
  obtain ⟨hhit, hmiss, hexhausted⟩ := encScanExtendsOrEndsTheMatch s hst
  cases hb : nextByte s with
  | none =>
    have hend : s.port.inp.length ≤ s.port.ip := List.getElem?_eq_none_iff.1 hb
    rw [if_pos (inEmpty_of_le hend)] at hrow
    exact .of_exec busy hst hrow (hexhausted hend)
      (.move .eLast ⟨busy, .inl rfl⟩ ⟨rfl, rfl, rfl, rfl, rfl⟩ hst rfl (by decide))
  | some c =>
    rw [if_neg (by simp [inEmpty, hb]), nextLookup_of_nextByte hb] at hrow
    cases hk : dictLookup s.mem s.enc.cur c with
    | some k =>
      rw [hk, Option.isSome_some, if_pos rfl] at hrow
      exact .of_exec busy hst hrow (hhit c k hb hk)
        (.readByte ⟨busy, .inl (congrArg encPhase hst)⟩ ⟨rfl, rfl, rfl, rfl, rfl⟩ (nextByte_lt hb))
    | none =>
      rw [hk, Option.isSome_none, if_neg Bool.false_ne_true] at hrow
      exact .of_exec busy hst hrow (hmiss c hb hk)
        (.readByte ⟨busy, .inl rfl⟩ ⟨rfl, rfl, rfl, rfl, rfl⟩ (nextByte_lt hb))

/-- E_STEP goes back to E_SCAN, or takes a fault. -/
theorem eStep_proceeds {s : State} (busy : s.ctl.busy = true) (hst : s.ctl.st = .eStep) :
    TurnProceeds s := by
  refine .of_flow busy hst rfl (by rw [exec, execEncStep, hst]; rfl)
    ((emitMatch_goesOn learnKey_inputKept s).andThen fun u hu => .cont ?_)
  have hkept : InputKept s (goto .eScan (restartMatch u)) := hu.trans ⟨rfl, rfl, rfl, rfl, rfl⟩
  exact .move .eScan ⟨hkept.busy_eq.trans busy, .inl rfl⟩ hkept hst rfl (by decide)

/-- E_LAST goes to E_EOF, or takes a fault. -/
theorem eLast_proceeds {s : State} (busy : s.ctl.busy = true) (hst : s.ctl.st = .eLast) :
    TurnProceeds s := by
  refine .of_flow busy hst rfl (by rw [exec, execEncLast, hst]; rfl)
    ((emitMatch_goesOn advanceCounter_inputKept s).andThen fun u hu => .cont ?_)
  have hkept : InputKept s (goto .eEof u) := hu.trans ⟨rfl, rfl, rfl, rfl, rfl⟩
  exact .move .eEof ⟨hkept.busy_eq.trans busy, .inl rfl⟩ hkept hst rfl (by decide)

/-- The pass of a running encoder proceeds. -/
theorem encPass_proceeds {s : State} (busy : s.ctl.busy = true)
    (hp : encPhase s.ctl.st = true) : TurnProceeds s := by
  cases hst : s.ctl.st <;> simp only [hst, encPhase, Bool.false_eq_true] at hp
  case eTag =>
    exact .of_exec busy hst rfl (encTagWritesTheModeTag s hst)
      (.move .eFirst ⟨busy, .inl rfl⟩ ⟨rfl, rfl, rfl, rfl, rfl⟩ hst rfl (by decide))
  case eFirst => exact eFirst_proceeds busy hst
  case eScan => exact eScan_proceeds busy hst
  case eStep => exact eStep_proceeds busy hst
  case eLast => exact eLast_proceeds busy hst
  case eEof =>
    obtain ⟨pad, -, -, heof⟩ := encEofClosesTheStream s hst
    exact .of_exec busy hst rfl heof (.ended (.inl rfl))

/-! ### The decoder -/

/-- A tag that has been read selects the policy, or takes a fault. -/
theorem DecPass.takeTag_proceeds {s : State} {b : Byte} (h : DecPass s)
    (busy : s.ctl.busy = true) (htag : nextTag s = some b) : Proceeds s (takeTag b s) := by
  have hbits := (nextTag_isSome_iff s).1 (by rw [htag]; rfl)
  unfold takeTag
  cases policyOfTag b with
  | none => exact .raise s _ _ _
  | some p =>
    have hpass : DecPass (goto .dFirst { skipBits 8 s with ctl.pol := p }) :=
      h.frame rfl rfl rfl rfl nofun
    exact .readBits ⟨busy, .inr hpass⟩ ⟨rfl, rfl, rfl, rfl, rfl⟩ le_rfl hbits

/-- D_TAG reads the tag, or takes a fault. -/
theorem DecPass.dTag_proceeds {s : State} (h : DecPass s) (busy : s.ctl.busy = true)
    (hst : s.ctl.st = .dTag) : TurnProceeds s := by
  cases htag : nextTag s with
  | none =>
    have hexec : exec .decTag s = .next (raiseFault .truncated 0 s) := by
      simp [exec, execDecTag, hst, htag]
    exact .of_exec busy hst rfl hexec (.raise s _ _ _)
  | some b =>
    have hexec : exec .decTag s = .next (takeTag b s) := by
      simp [exec, execDecTag, hst, htag]
    exact .of_exec busy hst rfl hexec (h.takeTag_proceeds busy htag)

/-- A literal starts a generation, unless its accumulation takes a fault. -/
theorem DecPass.startGeneration_goesOn {s : State} {cw : Code} (h : DecPass s)
    (busy : s.ctl.busy = true) (hcw : nextCode s = some cw) (hlit : cw.toNat < 256) :
    (startGeneration cw s).GoesOn (Proceeds s) := by
  have hbits := (nextCode_isSome_iff s).1 (by rw [hcw]; rfl)
  have hw := h.width.w_min
  have hn := h.width.n_min
  have hpass (a : Arbiter) : DecPass (goto .dEmit
      { takeCode cw s with arb := a, dec := { prev := cw, cw := cw } }) :=
    h.frame rfl rfl rfl rfl fun _ => ⟨lt_of_lt_of_le hlit (by omega), Nat.ne_of_lt hlit⟩
  refine Flow.GoesOn.andThen (P := fun u => DecPass (goto .dEmit u)
      ∧ InputKept (skipBits s.wid.w.toNat s) u)
    (accumulate_goesOn (fun a => ⟨hpass a, ⟨rfl, rfl, rfl, rfl, rfl⟩⟩) _ _) ?_
  rintro u ⟨hu, hkept⟩
  exact .cont (.readBits ⟨hkept.busy_eq.trans busy, .inr hu⟩
    (hkept.trans ⟨rfl, rfl, rfl, rfl, rfl⟩) (by omega) hbits)

/-- D_FIRST reads a codeword, or takes a fault. -/
theorem DecPass.dFirst_proceeds {s : State} (h : DecPass s) (busy : s.ctl.busy = true)
    (hst : s.ctl.st = .dFirst) : TurnProceeds s := by
  cases hcw : nextCode s with
  | none =>
    have hexec : exec .decFirstEof s = .next (raiseFault .truncated 0 s) := by
      simp [exec, execDecFirstEof, hst, readCode_none hcw]
    exact .of_exec busy hst (decodeFsm_short hcw).1 hexec (.raise s _ _ _)
  | some cw =>
    have hrow := decodeFsm_dFirst hcw
    by_cases h256 : cw.toNat = 256
    · have hexec : exec .decFirstEof s = .next (endStream cw s) := by
        simp [exec, execDecFirstEof, hst, readCode_some hcw, h256, Config.eofCode]
      rw [if_pos h256] at hrow
      exact .of_exec busy hst hrow hexec (.ended (.inl rfl))
    · rw [if_neg h256] at hrow
      by_cases hlit : cw.toNat < 256
      · have hexec : exec .decFirstLiteral s = (startGeneration cw s).outcome := by
          simp [exec, execDecFirstLiteral, hst, readCode_some hcw, hlit]
        rw [if_pos hlit] at hrow
        exact .of_flow busy hst hrow hexec (h.startGeneration_goesOn busy hcw hlit)
      · have hreserved : 257 ≤ cw.toNat := by omega
        have hexec : exec .decFirstReserved s = .next (rejectFirst cw s) := by
          simp [exec, execDecFirstReserved, hst, readCode_some hcw, Config.firstCode, hreserved]
        rw [if_neg hlit] at hrow
        exact .of_exec busy hst hrow hexec (.raise s _ _ _)

/-- A HIT or KWKWK codeword is below the next N: D_READ writes slot N, but where N = L, and there N
is 65536, above every codeword (`44_code_table.md` R304). -/
theorem DecPass.code_lt_nextN {s : State} {cw : Code} (h : DecPass s)
    (hle : cw.toNat ≤ s.wid.n.toNat) : cw.toNat < nextN s := by
  have hlt := cw.isLt
  have hw := h.width.w_eq_iff
  have hroom := h.width.dec_room h.side_eq
  have hnext : s.wid.n.toNat + gain s ≤ nextN s := Nat.le_add_right _ _
  rcases gain_cases s with ⟨hg, -⟩ | ⟨hg, hfull⟩
  · omega
  · have hbounds := h.width.bounds
    omega

/-- A HIT or KWKWK codeword is learned, unless its accumulation takes a fault. -/
theorem DecPass.learnCode_goesOn {s : State} {cw : Code} (h : DecPass s)
    (busy : s.ctl.busy = true) (hst : s.ctl.st = .dRead) (hcw : nextCode s = some cw)
    (h256 : cw.toNat ≠ 256) (hle : cw.toNat ≤ s.wid.n.toNat) :
    (learnCode cw s).GoesOn (Proceeds s) := by
  have hbits := (nextCode_isSome_iff s).1 (by rw [hcw]; rfl)
  have hw := h.width.w_min
  obtain ⟨m, hl, -, hwf, htab⟩ :=
    learnEntry_spec (s := takeCode cw s) (h.width.frame rfl rfl) h.memory (learnedEntry cw s)
  have hlinks : LinksOk m (nextN s) :=
    .learn h.width h.links (h.previous (congrArg prevPhase hst)) htab
  have hpass (a : Arbiter) : DecPass { takeCode cw s with
      wid := nextWidth s, mem := m, arb := a, dec := { prev := cw, cw := cw } } := by
    refine ⟨h.running, h.side_eq, h.width.step rfl rfl, hwf, ?_, fun _ => ⟨?_, h256⟩⟩
    · exact h.width.nextWidth_n.symm ▸ hlinks
    · exact h.width.nextWidth_n.symm ▸ h.code_lt_nextN hle
  rw [learnCode_checked h.width h.memory, hl]
  refine Flow.GoesOn.andThen (P := fun u => DecPass u ∧ prevPhase u.ctl.st = true
      ∧ InputKept (skipBits s.wid.w.toNat s) u)
    (accumulate_goesOn
      (fun a => ⟨hpass a, congrArg prevPhase hst, ⟨rfl, rfl, rfl, rfl, rfl⟩⟩) _ _) ?_
  rintro u ⟨hu, hprev, hkept⟩
  obtain ⟨p, b, hp, hconsult, -⟩ := SameOutside.consultDec (.intro u.enc u.dec u.mem)
  rw [hconsult]
  have hnext : DecPass (goto p { u with arb := b }) :=
    hu.frame hp rfl rfl rfl fun _ => hu.previous hprev
  exact .cont (.readBits ⟨hkept.busy_eq.trans busy, .inr hnext⟩
    (hkept.trans ⟨rfl, rfl, rfl, rfl, rfl⟩) (by omega) hbits)

/-- D_READ reads a codeword, or takes a fault. -/
theorem DecPass.dRead_proceeds {s : State} (h : DecPass s) (busy : s.ctl.busy = true)
    (hst : s.ctl.st = .dRead) : TurnProceeds s := by
  cases hcw : nextCode s with
  | none =>
    have hexec : exec .decReadLearn s = .next (raiseFault .truncated 0 s) := by
      simp [exec, execDecReadLearn, hst, readCode_none hcw]
    exact .of_exec busy hst (decodeFsm_short hcw).2 hexec (.raise s _ _ _)
  | some cw =>
    have hrow := decodeFsm_dRead hcw
    by_cases h256 : cw.toNat = 256
    · have hexec : exec .decReadEof s = .next (endStream cw s) := by
        simp [exec, execDecReadEof, hst, readCode_some hcw, h256, Config.eofCode]
      rw [if_pos h256] at hrow
      exact .of_exec busy hst hrow hexec (.ended (.inl rfl))
    · rw [if_neg h256] at hrow
      by_cases hle : cw.toNat ≤ s.wid.n.toNat
      · have hexec : exec .decReadLearn s = (learnCode cw s).outcome := by
          simp [exec, execDecReadLearn, hst, readCode_some hcw, Config.eofCode, h256, hle]
        rw [if_pos hle] at hrow
        exact .of_flow busy hst hrow hexec (h.learnCode_goesOn busy hst hcw h256 hle)
      · have hbeyond : s.wid.n.toNat < cw.toNat := by omega
        have hexec : exec .decReadReserved s = .next (rejectCode cw s) := by
          simp [exec, execDecReadReserved, hst, readCode_some hcw, Config.eofCode, h256, hbeyond]
        rw [if_neg hle] at hrow
        exact .of_exec busy hst hrow hexec (.raise s _ _ _)

/-- Along the links the string of PREV exists. -/
theorem DecPass.str_prev {s : State} (h : DecPass s) (hp : prevPhase s.ctl.st = true) :
    ∃ bs, str s.mem s.dec.prev = some bs :=
  str_isSome h.links _ (h.previous hp).1 (h.previous hp).2

/-- D_EMIT writes the string of PREV. -/
theorem DecPass.dEmit_proceeds {s : State} (h : DecPass s) (busy : s.ctl.busy = true)
    (hst : s.ctl.st = .dEmit) : TurnProceeds s := by
  have hp : prevPhase s.ctl.st = true := congrArg prevPhase hst
  obtain ⟨bs, hbs⟩ := h.str_prev hp
  exact .of_exec busy hst rfl (decEmitWritesTheString s bs hst hbs)
    (.move .dRead ⟨busy, .inr (h.frame rfl rfl rfl rfl fun _ => h.previous hp)⟩
      ⟨rfl, rfl, rfl, rfl, rfl⟩ hst rfl (by decide))

/-- D_RESET writes the string of PREV and starts the next generation, whose entries are all
hardwired. -/
theorem DecPass.dReset_proceeds {s : State} (h : DecPass s) (busy : s.ctl.busy = true)
    (hst : s.ctl.st = .dReset) : TurnProceeds s := by
  obtain ⟨bs, hbs⟩ := h.str_prev (congrArg prevPhase hst)
  have hlinks : LinksOk s.mem widStart.n.toNat := fun j hlo (hhi : j.toNat < 257) => by omega
  exact .of_exec busy hst rfl (decResetWritesThenReinitializes s bs hst h.side_eq hbs)
    (.move .dFirst ⟨busy, .inr ⟨rfl, h.side_eq, .of_start rfl, h.memory, hlinks, nofun⟩⟩
      ⟨rfl, rfl, rfl, rfl, rfl⟩ hst rfl (by decide))

/-- The pass of a running decoder proceeds. -/
theorem DecPass.proceeds {s : State} (h : DecPass s) (busy : s.ctl.busy = true) :
    TurnProceeds s := by
  have hp := h.running
  cases hst : s.ctl.st <;> simp only [hst, decPhase, Bool.false_eq_true] at hp
  case dTag => exact h.dTag_proceeds busy hst
  case dFirst => exact h.dFirst_proceeds busy hst
  case dEmit => exact h.dEmit_proceeds busy hst
  case dRead => exact h.dRead_proceeds busy hst
  case dReset => exact h.dReset_proceeds busy hst

/-! ### The whole pass -/

/-- Some number of steps from `s` leads to a state in DONE or ERROR. -/
def PassEnds (s : State) : Prop :=
  ∃ k t, Sys2Proof.core.run k s = .next t ∧ (t.ctl.st = .done ∨ t.ctl.st = .error)

theorem PassEnds.of_ended {s : State} (h : s.ctl.st = .done ∨ s.ctl.st = .error) : PassEnds s :=
  ⟨0, s, rfl, h⟩

theorem run_succ_of_next {M : Host.Core} {s t : M.State} (h : M.step s = .next t) (k : Nat) :
    M.run (k + 1) s = M.run k t := by
  simp [Host.Core.run, h]

theorem PassEnds.of_step {s t : State} (h : step s = .next t) (ht : PassEnds t) : PassEnds s := by
  obtain ⟨k, u, hrun, hu⟩ := ht
  exact ⟨k + 1, u, (run_succ_of_next (M := Sys2Proof.core) h k).trans hrun, hu⟩

/-- A running pass left alone by the host ends, by induction on what it has left. -/
theorem Running.passEnds {s : State} (h : Running s) (hpending : s.host.pending = []) :
    PassEnds s := by
  have hstep : step s = coreTurn s := by rw [step, stepTurn, hpending]
  obtain ⟨t, hturn, hproceeds⟩ : TurnProceeds s :=
    h.pass.elim (encPass_proceeds h.busy) (·.proceeds h.busy)
  refine .of_step (hstep.trans hturn) ?_
  cases hproceeds with
  | ended st_eq => exact .of_ended st_eq
  | onward running host_eq less => exact running.passEnds (by rw [host_eq, hpending])
termination_by passLeft s

/-- Settles O55: a sound busy core is in a running pass, and every transition of one ends it or
leaves less of it. -/
theorem everyPassEnds : Obligations.EveryPassEnds :=
  fun _ hi busy hpending => (hi.running_pass busy).passEnds hpending

end Sys2Proof.Machine
end

section
/-! PROOFS. Reinitialization (`70_reset_and_hazards.md` R405). -/

namespace Sys2Proof.Machine

/-- On the encoder's side a reinitialization clears the dictionary. -/
theorem reinit_of_enc {s : State} (h : s.ctl.side = .enc) :
    reinit s = { s with
      mem := dictClear s.mem, wid := widStart, arb := arbZero, cnt.gen := s.cnt.gen + 1 } := by
  simp [reinit, h, widStart, arbZero]

/-- Settles O35, on each side. -/
theorem reinitRestoresTheGenerationStart : Obligations.ReinitRestoresTheGenerationStart :=
  fun _ => ⟨reinit_of_enc, reinit_of_dec⟩

end Sys2Proof.Machine
end

section
/-! PROOFS. The data steps as whole next states (`40_encoder.md` R166, R167, `41_decoder.md`
R205). -/

namespace Sys2Proof.Machine

/-! ### The encoder -/

/-- Settles O14: E_STEP reaches its consultation, which leaves the step's registers but for the
baseline, or reinitializes. -/
theorem encStepEmitsLearnsAndConsults : Obligations.EncStepEmitsLearnsAndConsults := by
  intro s hst hside hi hcur hf
  obtain ⟨m, u, hemit, hu, hueq, htab, -, hdict⟩ := emitMatch_learnKey hi hcur hf
  have hexec : exec .encStep s = .next (goto .eScan (restartMatch (consultEnc u))) := by
    simp [exec, execEncStep, hst, hemit]
  rcases hu.enc with ⟨hr, hc⟩ | ⟨hr, hc⟩ <;> rw [hc] at hexec
  · subst hueq
    exact ⟨_, hexec, rfl, rfl, rfl, rfl, htab, rfl, rfl, rfl, rfl,
      fun _ => ⟨rfl, rfl, rfl, hdict⟩, fun h => absurd h (by simp [hr])⟩
  · rw [reinit_of_enc (by rw [hu.ctl_eq, hside])] at hexec
    subst hueq
    exact ⟨_, hexec, rfl, rfl, rfl, rfl, htab, rfl, rfl, rfl, rfl,
      fun h => absurd h (by simp [hr]), fun _ => ⟨rfl, rfl, rfl, rfl⟩⟩

/-- Settles O15, as O14; E_LAST keeps the dictionary it finds. -/
theorem encLastAdvancesTheCounterOnly : Obligations.EncLastAdvancesTheCounterOnly := by
  intro s hst hside hi hcur hf
  obtain ⟨u, hemit, hu, hueq⟩ := emitMatch_advanceCounter hi hcur hf
  have hexec : exec .encLast s = .next (goto .eEof (consultEnc u)) := by
    simp [exec, execEncLast, hst, hemit]
  rcases hu.enc with ⟨hr, hc⟩ | ⟨hr, hc⟩ <;> rw [hc] at hexec
  · subst hueq
    exact ⟨_, hexec, rfl, rfl, rfl, rfl, rfl, rfl, rfl, rfl, rfl,
      fun _ => ⟨rfl, rfl, rfl, rfl⟩, fun h => absurd h (by simp [hr])⟩
  · rw [reinit_of_enc (by rw [hu.ctl_eq, hside])] at hexec
    subst hueq
    exact ⟨_, hexec, rfl, rfl, rfl, rfl, rfl, rfl, rfl, rfl, rfl,
      fun h => absurd h (by simp [hr]), fun _ => ⟨rfl, rfl, rfl, rfl⟩⟩

/-! ### The decoder -/

/-- DEC_READ_LEARN and the row of a HIT or KWKWK codeword do the same (log 2). -/
theorem exec_learn {s : State} {cw : Code} (hst : s.ctl.st = .dRead)
    (hcw : nextCode s = some cw) (h256 : cw.toNat ≠ 256) (hle : cw.toNat ≤ s.wid.n.toNat) :
    exec .decReadLearn s = (learnCode cw s).outcome
      ∧ (cw.toNat < s.wid.n.toNat → exec (.hit cw) s = (learnCode cw s).outcome)
      ∧ (cw.toNat = s.wid.n.toNat → exec (.kwkwk cw) s = (learnCode cw s).outcome) := by
  refine ⟨?_, fun hlt => ?_, fun heq => ?_⟩
  · simp [exec, execDecReadLearn, hst, readCode_some hcw, Config.eofCode, h256, hle]
  · simp [exec, execHit, codeAt, hst, hcw, Config.eofCode, h256, hlt]
  · have h256' : s.wid.n.toNat ≠ 256 := heq ▸ h256
    simp [exec, execKwkwk, codeAt, hst, hcw, Config.eofCode, heq, h256']

/-- Settles O20: D_READ reaches its consultation, which only chooses the next state of ST and
captures a baseline. -/
theorem decReadLearnsOneEntry : Obligations.DecReadLearnsOneEntry := by
  intro s cw first len hst hside hi hm hcw h256 hclass hf
  have hle : cw.toNat ≤ s.wid.n.toNat := by omega
  obtain ⟨hfirst, hlen⟩ : codeFirst cw s = first ∧ codeLen cw s = len := by
    unfold codeFirst codeLen
    rcases hclass with ⟨hlt, rfl, rfl⟩ | ⟨heq, rfl, rfl⟩
    · simp only [hlt, if_true, and_self]
    · simp only [heq, lt_irrefl, if_false, and_self]
  subst hlen
  obtain ⟨m, u, hlearn, hu, hueq, hdict, -, htab⟩ := learnCode_fits hi hm hf
  obtain ⟨hexec, hhit, hkwkwk⟩ := exec_learn hst hcw h256 hle
  rw [hlearn, Flow.outcome_cont] at hexec hhit hkwkwk
  rw [learnedEntry, hfirst] at htab
  refine ⟨consultDec u, hexec, hhit, hkwkwk, ?_⟩
  rcases hu.dec with ⟨hr, hc⟩ | ⟨hr, hc⟩ <;> rw [hc, hueq, hr]
  · exact ⟨rfl, rfl, rfl, rfl, rfl, rfl, htab, hdict, rfl, rfl, rfl, rfl⟩
  · exact ⟨rfl, rfl, rfl, rfl, rfl, rfl, htab, hdict, rfl, rfl, rfl, rfl⟩

/-! ### A match that no longer fits -/

/-- Where a match does not fit the state `s` a step began in, `accumulate` raises in the state `u`
the step has reached: NUM before DEN (`43_reset_policy.md` R277). -/
theorem accumulate_overflows {len : Nat} {s u : State} (h : accFits len s = false)
    (hc : u.ctl = s.ctl) (ha : u.arb = s.arb) :
    accumulate len s.wid.w.toNat u = .raised (raiseFault
      (if 2 ^ 64 ≤ s.arb.accNum.toNat + 8 * len then .accNum else .accDen) 0 u) := by
  unfold accFits at h
  rw [← hc, ← ha] at h
  rw [← ha]
  rcases accumulate_cases len s.wid.w.toNat u with ⟨hp, h'⟩ | ⟨hp, h1, h2, h'⟩ |
      ⟨hp, ⟨h1, h'⟩ | ⟨h1, h2, h'⟩⟩
  · simp [hp] at h
  · simp [hp] at h; omega
  · rw [h', if_pos h1]
  · rw [h', if_neg (Nat.not_le.2 h1)]

/-- What the fault entry of an overflowing match latches. -/
theorem err_of_overflow (big : Prop) [Decidable big] (t : State) :
    (raiseFault (if big then .accNum else .accDen) 0 t).err
      = { cause := 4, detail := if big then 1 else 2, cw := 0, n := t.wid.n } := by
  split_ifs <;> rfl

/-- E_STEP and E_LAST of a match that does not fit. -/
theorem emitMatch_overflows {learn : State → State} {s u : State} (hi : WidthInv s)
    (hcur : s.enc.cur.toNat < s.wid.l.toNat) (hf : accFits s.enc.curLen.toNat s = false)
    (hl : learn (writeCode s.enc.cur.toNat s) = u) (hw : u.wid = nextWidth s)
    (hc : u.ctl = s.ctl) (ha : u.arb = s.arb) (he : u.enc = s.enc) :
    emitMatch learn s = .raised (raiseFault
      (if 2 ^ 64 ≤ s.arb.accNum.toNat + 8 * s.enc.curLen.toNat then .accNum else .accDen) 0 u) := by
  rw [emitMatch_checked hi hcur hl hw (by rw [hc]), he, accumulate_overflows hf hc ha,
    Flow.andThen_raised]

/-- The first codeword of a generation, where its one byte does not fit. -/
theorem startGeneration_overflows {s : State} (hf : accFits 1 s = false) (cw : Code) :
    startGeneration cw s = .raised (raiseFault
      (if 2 ^ 64 ≤ s.arb.accNum.toNat + 8 * 1 then .accNum else .accDen) 0
      { takeCode cw s with dec.prev := cw }) := by
  have hacc := accumulate_overflows (u := { takeCode cw s with dec.prev := cw }) hf rfl rfl
  rw [startGeneration, hacc, Flow.andThen_raised]

/-- A HIT or KWKWK codeword whose string does not fit. -/
theorem learnCode_overflows {s : State} {cw : Code} (hi : WidthInv s) (hm : s.mem.wf = true)
    (hf : accFits (codeLen cw s) s = false) :
    ∃ m, learnCode cw s = .raised (raiseFault
        (if 2 ^ 64 ≤ s.arb.accNum.toNat + 8 * codeLen cw s then .accNum else .accDen) 0
        { takeCode cw s with wid := nextWidth s, mem := m, dec := { prev := cw, cw := cw } })
      ∧ m.wf = true := by
  obtain ⟨m, hl, -, hwf, -⟩ :=
    learnEntry_spec (s := takeCode cw s) (hi.frame rfl rfl) hm (learnedEntry cw s)
  refine ⟨m, ?_, hwf⟩
  rw [learnCode_checked hi hm, hl, accumulate_overflows hf (by rfl) (by rfl), Flow.andThen_raised]
  rfl

/-- Settles O27: at each of the four transitions the steps before the accumulation leave the
arbiter's registers alone, and the accumulation raises. -/
theorem accumulatorOverflowStopsTheStep : Obligations.AccumulatorOverflowStopsTheStep := by
  rintro s i len hi hm hf (⟨hst, rfl, rfl, hcur⟩ | ⟨hst, rfl, rfl, hcur⟩ |
    ⟨hst, rfl, rfl, cw, hcw, hlit⟩ | ⟨hst, rfl, cw, hcw, h256, hle, hlen⟩)
  · obtain ⟨m, hl, -⟩ := learnKey_spec (writeCode s.enc.cur.toNat s)
    exact ⟨_, exec_encStep_of_raised hst (emitMatch_overflows hi hcur hf hl rfl rfl rfl rfl),
      rfl, rfl, rfl, err_of_overflow _ _⟩
  · exact ⟨_, exec_encLast_of_raised hst
      (emitMatch_overflows hi hcur hf (advanceCounter_eq _) rfl rfl rfl rfl),
      rfl, rfl, rfl, err_of_overflow _ _⟩
  · have hexec : exec .decFirstLiteral s = (startGeneration cw s).outcome := by
      simp [exec, execDecFirstLiteral, hst, readCode_some hcw, hlit]
    rw [startGeneration_overflows hf, Flow.outcome_raised] at hexec
    exact ⟨_, hexec, rfl, rfl, rfl, err_of_overflow _ _⟩
  · obtain rfl : len = codeLen cw s := hlen
    obtain ⟨m, hraised, -⟩ := learnCode_overflows hi hm hf
    exact ⟨_, exec_decReadLearn_of_raised hst hcw h256 hle hraised,
      rfl, rfl, rfl, err_of_overflow _ _⟩

end Sys2Proof.Machine
end


section
/-! PROOFS. The bit order of the wire (`20_memory.md` R86 to R90): a bit sequence packed into bytes
reads back bit for bit, and every byte of a closed output is what its eight bits spell. -/

namespace Sys2Proof

/-! ### The bits of a number -/

/-- Bit `j` of the `w` bits written for `v`. -/
theorem bitsOf_getD (v : Nat) :
    ∀ {w j : Nat}, j < w → (bitsOf v w).getD j false = v.testBit (w - 1 - j)
  | w + 1, 0, _ => rfl
  | w + 1, j + 1, h => by
    have hbits := bitsOf_getD v (w := w) (j := j) (by omega)
    have hpos : w + 1 - 1 - (j + 1) = w - 1 - j := by omega
    rw [hpos, ← hbits, bitsOf, List.getD_cons_succ]

/-- Bit `i` of the number a bit sequence spells. -/
theorem testBit_bitsValue : ∀ (bs : List Bool) {i : Nat}, i < bs.length →
    (bitsValue bs).testBit i = bs.getD (bs.length - 1 - i) false
  | b :: bs, i, h => by
    have hlt := bitsValue_lt bs
    rw [bitsValue, Nat.mul_comm, Nat.testBit_two_pow_mul_add _ hlt]
    by_cases hi : i < bs.length
    · have hpos : (b :: bs).length - 1 - i = (bs.length - 1 - i) + 1 := by simp; omega
      rw [if_pos hi, testBit_bitsValue bs hi, hpos, List.getD_cons_succ]
    · have hi' : i = bs.length := by simp at h; omega
      subst hi'
      cases b <;> simp

/-- The low `w` bits of a number, each at its weight, most significant first. -/
theorem sum_bits (v : Nat) (w : Nat) :
    (∑ j ∈ Finset.range w, if v.testBit (w - 1 - j) then 2 ^ (w - 1 - j) else 0) = v % 2 ^ w := by
  rw [Finset.sum_range_reflect (fun i => if v.testBit i then 2 ^ i else 0)]
  induction w with
  | zero => simp [Nat.mod_one]
  | succ w ih =>
    rw [Finset.sum_range_succ, ih, Nat.mod_pow_succ, ← Nat.toNat_testBit]
    cases v.testBit w <;> simp

/-! ### Packing -/

/-- The next eight bits of a sequence, zero bits standing for missing ones. -/
def octet (bits : List Bool) : List Bool := (bits ++ List.replicate 7 false).take 8

/-- Packing takes eight bits at a time (`20_memory.md` R88). -/
theorem packBytes_eq : ∀ {bits : List Bool}, bits ≠ [] →
    packBytes bits = BitVec.ofNat 8 (bitsValue (octet bits)) :: packBytes (bits.drop 8)
  | [], h => absurd rfl h
  | [_], _ => rfl
  | [_, _], _ => rfl
  | [_, _, _], _ => rfl
  | [_, _, _, _], _ => rfl
  | [_, _, _, _, _], _ => rfl
  | [_, _, _, _, _, _], _ => rfl
  | [_, _, _, _, _, _, _], _ => rfl
  | _ :: _ :: _ :: _ :: _ :: _ :: _ :: _ :: _, _ => rfl

theorem octet_length {bits : List Bool} (h : bits ≠ []) : (octet bits).length = 8 := by
  have := List.length_pos_of_ne_nil h
  simp [octet]
  omega

theorem octet_getD {bits : List Bool} {k : Nat} (hk : k < 8) :
    (octet bits).getD k false = bits.getD k false := by
  by_cases h : k < bits.length
  · simp [octet, hk, List.getElem?_append, h]
  · simp [octet, hk, List.getElem?_append, h, List.getElem?_replicate, -List.reduceReplicate]
    split_ifs <;> rfl

/-- As many bytes as hold the bits. -/
theorem length_packBytes (bits : List Bool) : (packBytes bits).length = (bits.length + 7) / 8 := by
  by_cases h : bits = []
  · subst h; rfl
  · have hpos := List.length_pos_of_ne_nil h
    rw [packBytes_eq h, List.length_cons, length_packBytes (bits.drop 8), List.length_drop]
    omega
termination_by bits.length
decreasing_by simp; omega

/-- Bit `k` of the packed bytes is bit `k` of the sequence, and zero beyond it. -/
theorem streamBit_packBytes (bits : List Bool) (k : Nat) :
    streamBit (packBytes bits) k = bits.getD k false := by
  by_cases h : bits = []
  · subst h; simp [streamBit, packBytes]
  · have hpos := List.length_pos_of_ne_nil h
    by_cases hk : k < 8
    · have hdiv : k / 8 = 0 := by omega
      have hmod : k % 8 = k := by omega
      have hlen := octet_length h
      have hbit : (bitsValue (octet bits)).testBit (7 - k) = (octet bits).getD k false := by
        rw [testBit_bitsValue _ (by omega), hlen]
        congr 1
        omega
      rw [streamBit, packBytes_eq h, hdiv, hmod, List.getD_cons_zero, BitVec.getLsbD_ofNat, hbit,
        octet_getD hk]
      simp
      omega
    · have hdiv : k / 8 = (k - 8) / 8 + 1 := by omega
      have hmod : k % 8 = (k - 8) % 8 := by omega
      rw [streamBit, packBytes_eq h, hdiv, List.getD_cons_succ, hmod]
      refine (streamBit_packBytes (bits.drop 8) (k - 8)).trans ?_
      simp only [List.getD_eq_getElem?_getD, List.getElem?_drop]
      congr 2
      omega
termination_by bits.length
decreasing_by simp; omega

/-- A stretch of the sequence stands in the packed bytes at the same bit position. -/
theorem streamBits_packBytes (bits : List Bool) : ∀ {w k : Nat}, k + w ≤ bits.length →
    streamBits (packBytes bits) k w = (bits.drop k).take w
  | 0, _, _ => by simp [streamBits]
  | w + 1, k, h => by
    have hk : k < bits.length := by omega
    rw [streamBits, streamBit_packBytes, streamBits_packBytes bits (by omega),
      List.drop_eq_getElem_cons hk, List.take_succ_cons, List.getD_eq_getElem _ _ hk]

/-- A byte is the sum of its bits. -/
theorem byte_eq_sum (b : Byte) :
    b.toNat = ∑ j ∈ Finset.range 8, if b.getLsbD (7 - j) then 2 ^ (7 - j) else 0 := by
  have h := sum_bits b.toNat 8
  rw [Nat.mod_eq_of_lt b.isLt] at h
  exact h.symm

/-- Bit `8 k + j` of a byte sequence is bit `7 - j` of byte `k` (`20_memory.md` R86). -/
theorem streamBit_byte (bytes : List Byte) (k : Nat) {j : Nat} (hj : j < 8) :
    streamBit bytes (8 * k + j) = (bytes.getD k 0).getLsbD (7 - j) := by
  have hdiv : (8 * k + j) / 8 = k := by omega
  have hmod : (8 * k + j) % 8 = j := by omega
  rw [streamBit, hdiv, hmod]

namespace Machine

/-- The bits of a byte sequence pack into it again. -/
theorem packBytes_bytesBits : ∀ bs : List Byte, packBytes (bytesBits bs) = bs
  | [] => rfl
  | b :: bs => by
    have hne : bytesBits (b :: bs) ≠ [] := by simp [bytesBits, bitsOf]
    have hoctet : octet (bytesBits (b :: bs)) = bitsOf b.toNat 8 := by
      simp [octet, bytesBits]
    have hdrop : (bytesBits (b :: bs)).drop 8 = bytesBits bs := by
      simp [bytesBits]
    rw [packBytes_eq hne, hoctet, hdrop, packBytes_bytesBits bs, bitsValue_bitsOf,
      Nat.mod_eq_of_lt b.isLt, BitVec.ofNat_toNat, BitVec.setWidth_eq]

/-! ### The statements -/

/-- Settles O40: the bits of the value are those of its stretch of the stream, and spell it. -/
theorem writtenValueReadsBack : Obligations.WrittenValueReadsBack := by
  intro before after v w s hv hinp hbp
  have hle : before.length + w ≤ (before ++ bitsOf v w ++ after).length := by simp
  have hroom : before.length + w ≤ 8 * (packBytes (before ++ bitsOf v w ++ after)).length := by
    rw [length_packBytes]
    omega
  rw [nextBits, hinp, hbp, if_pos hroom, streamBits_packBytes _ hle]
  simp [bitsValue_bitsOf, Nat.mod_eq_of_lt hv]

/-- Settles O41: the padding is what the length lacks to a multiple of eight, and byte `k` is the
sum of its own bits, which are bits `8 k` to `8 k + 7`. -/
theorem closedOutputIsWholeBytes : Obligations.ClosedOutputIsWholeBytes := by
  intro s
  refine ⟨(8 - s.port.ob.length % 8) % 8, by omega, rfl, rfl, ?_, fun k _ => ?_⟩
  · have hwhole := (closeOut_whole s).1
    rw [outBytes, length_packBytes]
    omega
  · rw [byte_eq_sum]
    refine Finset.sum_congr rfl fun j hj => ?_
    rw [outBytes, ← streamBit_byte _ k (Finset.mem_range.1 hj), streamBit_packBytes]

end Machine
end Sys2Proof
end


section
/-! PROOFS. The host's port does not disturb a transition (`20_memory.md` R105): every meaning but
that of CSR_READ does the same beside another host port. -/

namespace Sys2Proof.Machine

/-! ### Outcomes beside another host port -/

/-- The state with another host port. -/
def State.beside (s : State) (h : HostPort) : State := { s with host := h }

/-- An outcome with another host port in its state. -/
def withHost (h : HostPort) : Result → Result
  | .next t => .next (t.beside h)
  | .fault f => .fault f
  | .refused r => .refused r

/-- A flow with another host port in its state. -/
def Flow.withHost (h : HostPort) : Flow → Flow
  | .cont s => .cont (s.beside h)
  | .raised s => .raised (s.beside h)

theorem Flow.outcome_withHost (h : HostPort) (f : Flow) :
    (f.withHost h).outcome = Machine.withHost h f.outcome := by
  cases f <;> rfl

theorem Flow.andThen_withHost {h : HostPort} {k l : State → Flow} (f : Flow)
    (hk : ∀ s, l (s.beside h) = (k s).withHost h) :
    (f.withHost h).andThen l = (f.andThen k).withHost h := by
  cases f with
  | cont s => exact hk s
  | raised s => rfl

/-- A test both flows answer alike. -/
theorem Flow.ite_withHost {h : HostPort} {c : Prop} [Decidable c] {f f' g g' : Flow}
    (hf : f' = f.withHost h) (hg : g' = g.withHost h) :
    (if c then f' else g') = (if c then f else g).withHost h := by
  subst hf hg
  split_ifs <;> rfl

/-- A test both states answer alike. -/
theorem ite_beside (h : HostPort) {c : Prop} [Decidable c] {t t' u u' : State}
    (ht : t' = t.beside h) (hu : u' = u.beside h) :
    (if c then t' else u') = (if c then t else u).beside h := by
  subst ht hu
  split_ifs <;> rfl

theorem whenEnabled_withHost {h : HostPort} {r q : Result} (g : Bool) (hr : q = withHost h r) :
    whenEnabled g q = withHost h (whenEnabled g r) := by
  cases g
  · rfl
  · exact hr

section

variable (s : State) (h : HostPort)

theorem readCode_withHost {k l : Code → Result} (hk : ∀ cw, l cw = withHost h (k cw)) :
    readCode (s.beside h) l = withHost h (readCode s k) := by
  have hnext : nextCode (s.beside h) = nextCode s := rfl
  cases hc : nextCode s with
  | none => rw [readCode_none (hnext.trans hc), readCode_none hc]; rfl
  | some cw => rw [readCode_some (hnext.trans hc), readCode_some hc, hk]

theorem emitPrev_withHost {k l : State → State}
    (hk : ∀ s, l (s.beside h) = (k s).beside h) :
    emitPrev (s.beside h) l = withHost h (emitPrev s k) := by
  have hstr : str (s.beside h).mem (s.beside h).dec.prev = str s.mem s.dec.prev := rfl
  unfold emitPrev
  rw [hstr]
  cases str s.mem s.dec.prev with
  | none => rfl
  | some bs => exact congrArg Host.Outcome.next (hk (bytesWrite bs s))

/-! ### The shared operations -/

theorem checkValue_withHost : checkValue (s.beside h) = (checkValue s).withHost h :=
  Flow.ite_withHost rfl rfl

theorem checkCounter_withHost :
    checkCounter (s.beside h) = (checkCounter s).withHost h :=
  Flow.ite_withHost rfl rfl

theorem accumulate_withHost (len w : Nat) :
    accumulate len w (s.beside h) = (accumulate len w s).withHost h :=
  Flow.ite_withHost rfl (Flow.ite_withHost rfl (Flow.ite_withHost rfl rfl))

theorem afterArbitrate_beside :
    afterArbitrate (s.beside h) = (afterArbitrate s).beside h :=
  ite_beside h rfl rfl

/-- The arbiter's decision does not see the host's port. -/
theorem arbitrate_beside : arbitrate (s.beside h) = arbitrate s := rfl

theorem consultEnc_beside :
    consultEnc (s.beside h) = (consultEnc s).beside h := by
  have hceiling : atCeiling (s.beside h) = atCeiling s := rfl
  unfold consultEnc
  rw [hceiling, arbitrate_beside, afterArbitrate_beside]
  exact ite_beside h (by cases arbitrate s <;> rfl) rfl

theorem consultDec_beside :
    consultDec (s.beside h) = (consultDec s).beside h := by
  have hceiling : atCeiling (s.beside h) = atCeiling s := rfl
  unfold consultDec
  rw [hceiling, arbitrate_beside, afterArbitrate_beside]
  exact ite_beside h (by cases arbitrate s <;> rfl) rfl

theorem learnKey_beside : learnKey (s.beside h) = (learnKey s).beside h := by
  have hentry : (if canInsert (s.beside h) then insertKey (s.beside h) else s.beside h)
      = (if canInsert s then insertKey s else s).beside h := ite_beside h rfl rfl
  unfold learnKey
  dsimp only
  rw [hentry]
  exact ite_beside h rfl rfl

theorem advanceCounter_beside :
    advanceCounter (s.beside h) = (advanceCounter s).beside h := by
  rw [advanceCounter_eq, advanceCounter_eq]
  rfl

theorem learnEntry_beside (e : TabEntry) :
    learnEntry e (s.beside h) = (learnEntry e s).beside h := by
  have hentry : (if canInsert (s.beside h) then insertEntry e (s.beside h) else s.beside h)
      = (if canInsert s then insertEntry e s else s).beside h := ite_beside h rfl rfl
  unfold learnEntry
  dsimp only
  rw [hentry]
  exact ite_beside h rfl rfl

theorem takeTag_beside (t : Byte) :
    takeTag t (s.beside h) = (takeTag t s).beside h := by
  unfold takeTag
  cases policyOfTag t <;> rfl

theorem startPass_beside : startPass (s.beside h) = (startPass s).beside h := by
  have hcmd : (s.beside h).ctl = s.ctl := rfl
  unfold startPass
  rw [hcmd]
  exact ite_beside h (by cases policyOfTag (cmdPolicy s.ctl.cmd) <;> rfl) (ite_beside h rfl rfl)

/-! ### The data steps -/

theorem emitMatch_withHost {learn : State → State}
    (hl : ∀ s, learn (s.beside h) = (learn s).beside h) :
    emitMatch learn (s.beside h) = (emitMatch learn s).withHost h := by
  unfold emitMatch
  rw [checkValue_withHost]
  refine Flow.andThen_withHost _ fun s1 => ?_
  have hwritten : learn (writeCode (s1.beside h).enc.cur.toNat (s1.beside h))
      = (learn (writeCode s1.enc.cur.toNat s1)).beside h := hl (writeCode _ s1)
  rw [hwritten, checkCounter_withHost]
  refine Flow.andThen_withHost _ fun s2 => ?_
  rw [accumulate_withHost]
  refine Flow.andThen_withHost _ fun s3 => ?_
  rw [consultEnc_beside]
  rfl

theorem startGeneration_withHost (cw : Code) :
    startGeneration cw (s.beside h) = (startGeneration cw s).withHost h := by
  have hacc := accumulate_withHost { takeCode cw s with dec.prev := cw } h 1 s.wid.w.toNat
  exact (congrArg (Flow.andThen · _) hacc).trans (Flow.andThen_withHost _ fun _ => rfl)

theorem learnCode_withHost (cw : Code) :
    learnCode cw (s.beside h) = (learnCode cw s).withHost h := by
  have hlearned := learnEntry_beside (takeCode cw s) h (learnedEntry cw s)
  have hcheck := (congrArg checkCounter hlearned).trans (checkCounter_withHost _ h)
  refine (congrArg (Flow.andThen · _) hcheck).trans (Flow.andThen_withHost _ fun s1 => ?_)
  have hacc := accumulate_withHost { s1 with dec.prev := cw } h (codeLen cw s) s.wid.w.toNat
  refine (congrArg (Flow.andThen · _) hacc).trans (Flow.andThen_withHost _ fun s2 => ?_)
  exact congrArg Flow.cont (consultDec_beside s2 h)

/-! ### The instructions -/

/-- Every meaning but that of CSR_READ does the same beside another host port. -/
theorem exec_withHost {i : Instr} (hi : ∀ off, i ≠ .csrRead off) :
    exec i (s.beside h) = withHost h (exec i s) := by
  cases i with
  | csrRead off => exact absurd rfl (hi off)
  | tagFrozen => exact whenEnabled_withHost _ (congrArg Host.Outcome.next (takeTag_beside s h _))
  | tagSaturate => exact whenEnabled_withHost _ (congrArg Host.Outcome.next (takeTag_beside s h _))
  | tagMonitored =>
    exact whenEnabled_withHost _ (congrArg Host.Outcome.next (takeTag_beside s h _))
  | tagReserved t =>
    exact whenEnabled_withHost _ (congrArg Host.Outcome.next (takeTag_beside s h _))
  | firstLiteral b =>
    refine whenEnabled_withHost _ ?_
    rw [startGeneration_withHost, Flow.outcome_withHost]
  | firstEof => exact whenEnabled_withHost _ rfl
  | firstReserved cw => exact whenEnabled_withHost _ rfl
  | eof => exact whenEnabled_withHost _ rfl
  | hit cw =>
    refine whenEnabled_withHost _ ?_
    rw [learnCode_withHost, Flow.outcome_withHost]
  | kwkwk cw =>
    refine whenEnabled_withHost _ ?_
    rw [learnCode_withHost, Flow.outcome_withHost]
  | codeReserved cw => exact whenEnabled_withHost _ rfl
  | compressFrozen =>
    exact whenEnabled_withHost _ (congrArg Host.Outcome.next (ite_beside h rfl rfl))
  | compressSaturate =>
    exact whenEnabled_withHost _ (congrArg Host.Outcome.next (ite_beside h rfl rfl))
  | compressMonitored =>
    exact whenEnabled_withHost _ (congrArg Host.Outcome.next (ite_beside h rfl rfl))
  | expand p => exact whenEnabled_withHost _ (congrArg Host.Outcome.next (ite_beside h rfl rfl))
  | start v => exact congrArg Host.Outcome.next (ite_beside h (startPass_beside s h) rfl)
  | cmdWrite v => exact congrArg Host.Outcome.next (ite_beside h rfl rfl)
  | encTag => exact whenEnabled_withHost _ rfl
  | encFirstEmpty => exact whenEnabled_withHost _ rfl
  | encFirstByte =>
    have hbyte : nextByte (s.beside h) = nextByte s := rfl
    simp only [exec, execEncFirstByte, hbyte]
    cases nextByte s with
    | none => rfl
    | some b => exact whenEnabled_withHost _ rfl
  | encScanHit =>
    have hlookup : nextLookup (s.beside h) = nextLookup s := rfl
    simp only [exec, execEncScanHit, hlookup]
    cases nextLookup s with
    | none => rfl
    | some k => exact whenEnabled_withHost _ rfl
  | encScanMiss =>
    have hbyte : nextByte (s.beside h) = nextByte s := rfl
    simp only [exec, execEncScanMiss, hbyte]
    cases nextByte s with
    | none => rfl
    | some c => exact whenEnabled_withHost _ rfl
  | encScanEnd => exact whenEnabled_withHost _ rfl
  | encStep =>
    refine whenEnabled_withHost _ ?_
    rw [emitMatch_withHost s h (learnKey_beside · h), ← Flow.outcome_withHost]
    exact congrArg Flow.outcome (Flow.andThen_withHost _ fun _ => rfl)
  | encLast =>
    refine whenEnabled_withHost _ ?_
    rw [emitMatch_withHost s h (advanceCounter_beside · h), ← Flow.outcome_withHost]
    exact congrArg Flow.outcome (Flow.andThen_withHost _ fun _ => rfl)
  | encEof => exact whenEnabled_withHost _ rfl
  | decTag =>
    refine whenEnabled_withHost _ ?_
    have htag : nextTag (s.beside h) = nextTag s := rfl
    rw [htag]
    cases nextTag s with
    | none => rfl
    | some t => exact congrArg Host.Outcome.next (takeTag_beside s h t)
  | decFirstEof =>
    exact whenEnabled_withHost _ (readCode_withHost s h fun _ => whenEnabled_withHost _ rfl)
  | decFirstLiteral =>
    refine whenEnabled_withHost _ (readCode_withHost s h fun cw => whenEnabled_withHost _ ?_)
    rw [startGeneration_withHost, Flow.outcome_withHost]
  | decFirstReserved =>
    exact whenEnabled_withHost _ (readCode_withHost s h fun _ => whenEnabled_withHost _ rfl)
  | decEmit => exact whenEnabled_withHost _ (emitPrev_withHost s h fun _ => rfl)
  | decReadLearn =>
    refine whenEnabled_withHost _ (readCode_withHost s h fun cw => whenEnabled_withHost _ ?_)
    rw [learnCode_withHost, Flow.outcome_withHost]
  | decReadEof =>
    exact whenEnabled_withHost _ (readCode_withHost s h fun _ => whenEnabled_withHost _ rfl)
  | decReadReserved =>
    exact whenEnabled_withHost _ (readCode_withHost s h fun _ => whenEnabled_withHost _ rfl)
  | decReset => exact whenEnabled_withHost _ (emitPrev_withHost s h fun _ => rfl)

end

/-- Settles O57: `exec_withHost`, its outcome written out. -/
theorem hostReadsDoNotDisturbThePass : Obligations.HostReadsDoNotDisturbThePass := by
  intro i s h hi
  refine (exec_withHost s h hi).trans ?_
  cases exec i s <;> rfl

end Sys2Proof.Machine
end


section
/-! PROOFS. Every step keeps the invariant, and no step from a sound state stops unless the host
breaks a rule of its own. -/

namespace Sys2Proof.Machine

/-! ### Moves within a pass -/

/-- A transition that goes on to the running state `q` of the encoder: what is left to show for the
parts of the invariant. -/
theorem Inv.enc_move {s t : State} (h : Inv s) (hp : encPhase s.ctl.st = true) (q : Phase)
    (hq : encPhase q = true) (hctl : t.ctl = { s.ctl with st := q }) (hwidth : WidthInv t)
    (harb : ArbiterOk t.ctl.pol t.arb) (hgen : t.ctl.pol = .frozen → t.cnt.gen = 0)
    (hip : t.port.ip ≤ t.port.inp.length) (hopen : t.port.closed = s.port.closed)
    (henc : EncoderInv t) (hmem : t.mem.wf = true) (herr : t.err = s.err) : Inv t := by
  obtain ⟨hbusy, hdone, herror, hside⟩ := h.control.enc_running hp
  have hopen' : s.port.closed = false := h.ports.is_open hbusy
  have hst : t.ctl.st = q := by rw [hctl]
  have hdec : decPhase q = false := by cases q <;> simp_all [encPhase, decPhase]
  refine ⟨⟨?_, ?_, ?_, ?_, ?_⟩, hwidth, harb.inv ?_ hgen ?_, ⟨?_, ?_, ?_, ?_, ?_⟩, henc,
    ⟨?_, ?_, ?_⟩, hmem, herr ▸ h.errors⟩
  · simp [hctl, hbusy, hq]
  · simp only [hctl, hdone]; cases q <;> simp_all [encPhase]
  · simp only [hctl, herror]; cases q <;> simp_all [encPhase]
  · exact fun _ => by rw [hctl]; exact hside
  · simp [hst, hdec]
  · rw [hst]; rintro rfl; cases hq
  · rw [hst]; rintro rfl; cases hq
  · exact fun _ => hip
  · simp [hst, hdec]
  · exact fun _ => hopen.trans hopen'
  · rw [hst]; rintro rfl; cases hq
  · simp [hst, hdec]
  · rw [hst]; rintro (rfl | rfl) <;> cases hq
  · simp [hst, hdec]
  · rw [hst]; cases q <;> simp_all [encPhase, prevPhase]

/-- A transition that goes on to the running state `q` of the decoder. -/
theorem Inv.dec_move {s t : State} (h : Inv s) (hp : decPhase s.ctl.st = true) (q : Phase)
    (hq : decPhase q = true) (hst : t.ctl.st = q)
    (hctl : { t.ctl with st := s.ctl.st, pol := s.ctl.pol } = s.ctl) (hwidth : WidthInv t)
    (harb : ArbiterOk t.ctl.pol t.arb) (hgen : t.ctl.pol = .frozen → t.cnt.gen = 0)
    (hreset : q = .dReset → t.ctl.pol ≠ .frozen) (htag : q ≠ .dTag)
    (hbp : t.port.bp ≤ 8 * t.port.inp.length) (hopen : t.port.closed = s.port.closed)
    (hwhole : t.port.ob.length % 8 = 0) (hdec : DecoderInv t) (hmem : t.mem.wf = true)
    (herr : t.err = s.err) : Inv t := by
  obtain ⟨hbusy, hdone, herror, hside⟩ := h.control.dec_running hp
  have hopen' : s.port.closed = false := h.ports.is_open hbusy
  have hbusy' : t.ctl.busy = true := (congrArg Control.busy hctl).trans hbusy
  have hdone' : t.ctl.done = false := (congrArg Control.done hctl).trans hdone
  have herror' : t.ctl.error = false := (congrArg Control.error hctl).trans herror
  have hside' : t.ctl.side = .dec := (congrArg Control.side hctl).trans hside
  have henc : encPhase q = false := by cases q <;> simp_all [encPhase, decPhase]
  refine ⟨⟨?_, ?_, ?_, ?_, ?_⟩, hwidth, harb.inv (hst ▸ htag) hgen (hst ▸ hreset),
    ⟨?_, ?_, ?_, ?_, ?_⟩, ⟨?_, ?_, ?_⟩, hdec, hmem, herr ▸ h.errors⟩
  · simp [hst, hbusy', hq]
  · rw [hst, hdone']; cases q <;> simp_all [decPhase]
  · rw [hst, herror']; cases q <;> simp_all [decPhase]
  · simp [hst, henc]
  · exact fun _ => hside'
  · simp [hst, henc]
  · exact fun _ => hbp
  · exact fun _ => hopen.trans hopen'
  · rw [hst]; rintro rfl; cases hq
  · exact fun _ => hwhole
  · rw [hst]; rintro (rfl | rfl) <;> cases hq
  · simp [hst, henc]
  · rw [hst]; cases q <;> simp_all [decPhase, matchPhase]

/-- The fault entry, from a state that differs from a sound one in registers no fault looks at. -/
theorem Resting.frame {s t : State} (h : Resting s) (hctl : t.ctl = s.ctl) (hwid : t.wid = s.wid)
    (harb : t.arb = s.arb) (hcnt : t.cnt.gen = s.cnt.gen) (hmem : t.mem = s.mem) : Resting t where
  width := h.width.frame hwid (by rw [hctl])
  arbiter := by rw [hctl, harb]; exact h.arbiter
  frozen_gen := by rw [hctl, hcnt]; exact h.frozen_gen
  memory := by rw [hmem]; exact h.memory

/-- Between the bookkeeping of a data step and its accumulation. -/
theorem Resting.advance {s t : State} (h : Resting s) (hctl : t.ctl = s.ctl)
    (hwid : t.wid = nextWidth s) (harb : t.arb = s.arb) (hcnt : t.cnt.gen = s.cnt.gen)
    (hmem : t.mem.wf = true) : Resting t where
  width := h.width.step hwid (by rw [hctl])
  arbiter := by rw [hctl, harb]; exact h.arbiter
  frozen_gen := by rw [hctl, hcnt]; exact h.frozen_gen
  memory := hmem

/-- Every fault from a resting state leads to a sound one; so does ACC_OVERFLOW of either kind. -/
theorem Resting.overflow_inv {t : State} (h : Resting t) (big : Prop) [Decidable big] :
    Inv (raiseFault (if big then .accNum else .accDen) 0 t) := h.raiseFault_inv _ _

/-- Close() and the end of a pass, from a running state. -/
theorem Inv.ended {s t : State} (h : Inv s) (herror : s.ctl.error = false) (hctl : t.ctl = s.ctl)
    (hwid : t.wid = s.wid) (harb : t.arb = s.arb) (hcnt : t.cnt.gen = s.cnt.gen)
    (hmem : t.mem = s.mem) (herr : t.err = s.err) : Inv (finishPass (closeOut t)) := by
  obtain ⟨hwhole, hclosed⟩ := closeOut_whole t
  have hrest : Resting (closeOut t) := h.resting.frame hctl hwid harb hcnt hmem
  refine hrest.finishPass_inv hclosed hwhole ?_ ?_
  · rw [closeOut_ctl, hctl, herror]
  · rw [closeOut_err, herr]
    exact h.errors

/-! ### The encoder -/

/-- A hit of the dictionary is a longer match, still in range. -/
theorem Inv.match_extends {s : State} (h : Inv s) (hst : s.ctl.st = .eScan) {c : Byte} {k : Code}
    (hk : dictLookup s.mem s.enc.cur c = some k) :
    k.toNat < s.wid.n.toNat ∧ k.toNat ≠ 256 ∧ k.toNat ∉ shadowedCodes
      ∧ (s.enc.curLen + 1).toNat = s.enc.curLen.toNat + 1
      ∧ s.enc.curLen.toNat + 1 + 255 ≤ max k.toNat 256 := by
  have hlt := k.isLt
  obtain ⟨h257, hn, hshadow, hcur, -⟩ := h.encoder.learned (by rw [hst]; rfl) _ _ _ hk
  obtain ⟨-, -, -, -, hlen⟩ := h.encoder.current (by rw [hst]; rfl)
  refine ⟨hn, by omega, hshadow, ?_, by omega⟩
  rw [BitVec.toNat_add]
  simp
  omega

/-- E_STEP and E_LAST after their consultation, where nothing overflowed. -/
theorem Inv.consulted {s u t : State} (h : Inv s) (hp : encPhase s.ctl.st = true)
    (hm : matchPhase s.ctl.st = true) (hu : Consulting s.enc.curLen.toNat s u)
    (hport : u.port = { s.port with ob := u.port.ob }) (hgen : u.cnt.gen = s.cnt.gen)
    (herr : u.err = s.err) (hmem : u.mem.wf = true)
    (hlearned : ∀ p b k, dictLookup u.mem p b = some k → 257 ≤ k.toNat ∧ k.toNat < nextN s
      ∧ k.toNat ∉ shadowedCodes ∧ p.toNat < k.toNat ∧ p.toNat ≠ 256)
    {q : Phase} (hq : q = .eScan ∨ q = .eEof) {e : EncData}
    (ht : t = { goto q (consultEnc u) with enc := e })
    (hcur : q = .eScan → e.cur.toNat < 257 ∧ e.cur.toNat ≠ 256 ∧ e.cur.toNat ∉ shadowedCodes
      ∧ 1 ≤ e.curLen.toNat ∧ e.curLen.toNat + 255 ≤ max e.cur.toNat 256) : Inv t := by
  have hside := (h.control.enc_running hp).2.2.2
  have hip : u.port.ip ≤ u.port.inp.length := by rw [hport]; exact h.ports.ip_bound hp
  have hopen : u.port.closed = s.port.closed := by rw [hport]
  have hq' : encPhase q = true := by rcases hq with rfl | rfl <;> rfl
  have hfresh : ¬ (q = .eTag ∨ q = .eFirst) := by rcases hq with rfl | rfl <;> decide
  have hscan : matchPhase q = true → q = .eScan := by
    rcases hq with rfl | rfl
    · exact fun _ => rfl
    · simp [matchPhase]
  have hctl : (goto q u).ctl = { s.ctl with st := q } := by rw [goto_ctl, hu.ctl_eq]
  have hwidth : WidthInv { u with wid := nextWidth s } := h.width.step rfl (by rw [hu.ctl_eq])
  rcases hu.enc with ⟨-, hc⟩ | ⟨hr, hc⟩
  · rw [hc] at ht
    subst ht
    have hn : u.wid.n.toNat = nextN s := by rw [hu.wid_eq, h.width.nextWidth_n]
    refine h.enc_move hp q hq' hctl (hwidth.frame hu.wid_eq rfl) ?_ ?_ hip hopen
      ⟨fun hf => absurd hf hfresh, fun _ p b k hk => ?_, fun hmt => ?_⟩ hmem herr
    · have hlen := (h.encoder.current hm).2.2.2.1
      have harb := h.arbiterOk.sampled hlen h.width hu.fits
      exact (congrArg Control.pol hu.ctl_eq).symm ▸ harb
    · intro hf
      refine hgen.trans (h.arbiter.frozen_gen (.inl ?_))
      exact (congrArg Control.pol hu.ctl_eq).symm.trans hf
    · exact hn.symm ▸ hlearned p b k hk
    · obtain ⟨h1, h2⟩ := hcur (hscan hmt)
      have h257 : 257 ≤ u.wid.n.toNat := by rw [hu.wid_eq]; exact hwidth.n_min
      exact ⟨lt_of_lt_of_le h1 h257, h2⟩
  · rw [hc, reinit_of_enc (by rw [hu.ctl_eq, hside])] at ht
    subst ht
    refine h.enc_move hp q hq' hctl (.of_start rfl) (.zero _) ?_ hip hopen
      ⟨fun hf => absurd hf hfresh, fun _ p b k hk => ?_, fun hmt => hcur (hscan hmt)⟩
      (dictClear_wf hmem) herr
    · intro hf
      exact absurd ((congrArg Control.pol hu.ctl_eq).symm.trans hf) (reinitializes_not_frozen hr)
    · cases hk

/-- E_STEP of a sound state. -/
theorem Inv.execEncStep {s t : State} (h : Inv s) (hst : s.ctl.st = .eStep)
    (hexec : exec .encStep s = .next t) : Inv t := by
  have hp : encPhase s.ctl.st = true := by rw [hst]; rfl
  have hm : matchPhase s.ctl.st = true := by rw [hst]; rfl
  have hcur := h.cur_lt hm
  cases hf : accFits s.enc.curLen.toNat s with
  | true =>
    obtain ⟨m, u, hemit, hu, hueq, -, hwf, hdict⟩ := emitMatch_learnKey h.width hcur hf
    have ht := (whenEnabled_eq_next.1 hexec).2
    rw [hemit] at ht
    cases ht
    have hmu : u.mem = m := by rw [hueq]
    refine h.consulted hp hm hu ?_ ?_ ?_ (hmu ▸ hwf h.memory) ?_ (.inl rfl) rfl fun _ => ?_
    · rw [hueq]; rfl
    · rw [hueq]; rfl
    · rw [hueq]; rfl
    · exact hmu ▸ h.learned_step hst hdict
    · obtain ⟨h1, h2, h3, h4⟩ := byte_code_ok (consultEnc u).enc.nxt 257 le_rfl
      exact ⟨h1, h2, h3, le_rfl, h4⟩
  | false =>
    obtain ⟨m, hl, -, hwf, -⟩ := learnKey_spec (writeCode s.enc.cur.toNat s)
    have hraised := emitMatch_overflows h.width hcur hf hl rfl rfl rfl rfl
    cases (exec_encStep_of_raised hst hraised).symm.trans hexec
    refine Resting.overflow_inv ?_ _
    exact h.resting.advance rfl rfl rfl rfl (hwf h.memory)

/-- E_LAST of a sound state. -/
theorem Inv.execEncLast {s t : State} (h : Inv s) (hst : s.ctl.st = .eLast)
    (hexec : exec .encLast s = .next t) : Inv t := by
  have hp : encPhase s.ctl.st = true := by rw [hst]; rfl
  have hm : matchPhase s.ctl.st = true := by rw [hst]; rfl
  have hcur := h.cur_lt hm
  cases hf : accFits s.enc.curLen.toNat s with
  | true =>
    obtain ⟨u, hemit, hu, hueq⟩ := emitMatch_advanceCounter h.width hcur hf
    have ht := (whenEnabled_eq_next.1 hexec).2
    rw [hemit] at ht
    cases ht
    have hmu : u.mem = s.mem := by rw [hueq]; rfl
    refine h.consulted hp hm hu ?_ ?_ ?_ (hmu ▸ h.memory) ?_ (.inr rfl) rfl nofun
    · rw [hueq]; rfl
    · rw [hueq]; rfl
    · rw [hueq]; rfl
    · intro p b k hk
      obtain ⟨h1, h2, h3⟩ := h.encoder.learned hp p b k (hmu ▸ hk)
      exact ⟨h1, lt_of_lt_of_le h2 h.width.nextN_le.1, h3⟩
  | false =>
    have hraised := emitMatch_overflows h.width hcur hf (advanceCounter_eq _) rfl rfl rfl rfl
    cases (exec_encLast_of_raised hst hraised).symm.trans hexec
    refine Resting.overflow_inv ?_ _
    exact h.resting.advance rfl rfl rfl rfl h.memory

/-- Every transition of the encoder keeps the invariant. -/
theorem Inv.execEnc {s t : State} {i : Instr} (h : Inv s) (hp : encPhase s.ctl.st = true)
    (hrow : i ∈ phaseRows s.ctl.st) (hexec : exec i s = .next t) : Inv t := by
  have hwidth : ∀ {u : State}, u.wid = s.wid → u.ctl.side = s.ctl.side → WidthInv u :=
    fun hw hs => h.width.frame hw hs
  have hgen : s.ctl.pol = .frozen → s.cnt.gen = 0 := fun hf => h.arbiter.frozen_gen (.inl hf)
  have hip := h.ports.ip_bound hp
  have hlearned := h.encoder.learned hp
  cases hst : s.ctl.st <;> simp [hst, encPhase] at hp <;>
    simp only [hst, phaseRows, List.mem_cons, List.not_mem_nil, or_false] at hrow
  case eTag =>
    subst hrow
    cases (encTagWritesTheModeTag s hst).symm.trans hexec
    exact h.enc_move (congrArg encPhase hst) .eFirst rfl rfl (hwidth rfl rfl) h.arbiterOk hgen hip
      rfl ⟨fun _ => h.encoder.fresh (.inl hst), fun _ => hlearned, nofun⟩ h.memory rfl
  case eFirst =>
    rcases hrow with rfl | rfl
    · cases (whenEnabled_eq_next.1 hexec).2
      exact h.enc_move (congrArg encPhase hst) .eEof rfl rfl (hwidth rfl rfl) h.arbiterOk hgen hip
        rfl ⟨nofun, fun _ => hlearned, nofun⟩ h.memory rfl
    · simp only [exec, execEncFirstByte] at hexec
      split at hexec
      · rename_i b hb
        cases (whenEnabled_eq_next.1 hexec).2
        obtain ⟨h1, h2, h3, h4⟩ := byte_code_ok b s.wid.n.toNat h.width.n_min
        exact h.enc_move (congrArg encPhase hst) .eScan rfl rfl (hwidth rfl rfl) h.arbiterOk hgen
          (nextByte_lt hb) rfl
          ⟨nofun, fun _ => hlearned, fun _ => ⟨h1, h2, h3, le_rfl, h4⟩⟩ h.memory rfl
      · cases hexec
  case eScan =>
    have hcurrent := h.encoder.current (by rw [hst]; rfl)
    rcases hrow with rfl | rfl | rfl
    · simp only [exec, execEncScanHit] at hexec
      split at hexec
      · rename_i k hk
        cases (whenEnabled_eq_next.1 hexec).2
        cases hb : nextByte s with
        | none => simp [nextLookup, hb] at hk
        | some c =>
          rw [nextLookup_of_nextByte hb] at hk
          obtain ⟨h1, h2, h3, h4, h5⟩ := h.match_extends hst hk
          refine h.enc_move (congrArg encPhase hst) .eScan rfl rfl (hwidth rfl rfl) h.arbiterOk
            hgen (nextByte_lt hb) rfl
            ⟨nofun, fun _ => hlearned, fun _ => ⟨h1, h2, h3, ?_, ?_⟩⟩ h.memory rfl
          · exact h4.symm ▸ Nat.le_add_left _ _
          · exact h4.symm ▸ h5
      · cases hexec
    · simp only [exec, execEncScanMiss] at hexec
      split at hexec
      · rename_i c hb
        cases (whenEnabled_eq_next.1 hexec).2
        exact h.enc_move (congrArg encPhase hst) .eStep rfl rfl (hwidth rfl rfl) h.arbiterOk hgen
          (nextByte_lt hb) rfl ⟨nofun, fun _ => hlearned, fun _ => hcurrent⟩ h.memory rfl
      · cases hexec
    · cases (whenEnabled_eq_next.1 hexec).2
      exact h.enc_move (congrArg encPhase hst) .eLast rfl rfl (hwidth rfl rfl) h.arbiterOk hgen hip
        rfl ⟨nofun, fun _ => hlearned, fun _ => hcurrent⟩ h.memory rfl
  case eStep =>
    subst hrow
    exact h.execEncStep hst hexec
  case eLast =>
    subst hrow
    exact h.execEncLast hst hexec
  case eEof =>
    subst hrow
    cases (whenEnabled_eq_next.1 hexec).2
    have herror := (h.control.enc_running (congrArg encPhase hst)).2.2.1
    exact h.ended herror rfl rfl rfl rfl rfl rfl

/-! ### The decoder -/

/-- A tag that has been read. The arbiter is unused until then, whatever policy the tag selects. -/
theorem Inv.takeTag {s : State} {b : Byte} (h : Inv s) (hst : s.ctl.st = .dTag)
    (htag : nextTag s = some b) : Inv (takeTag b s) := by
  have hbits := (nextTag_isSome_iff s).1 (by rw [htag]; rfl)
  have hp : decPhase s.ctl.st = true := by rw [hst]; rfl
  have harb : s.arb = arbZero := h.arbiter.unused (.inr hst)
  unfold Machine.takeTag
  cases policyOfTag b with
  | none =>
    refine Resting.raiseFault_inv ?_ _ _
    exact h.resting.frame rfl rfl rfl rfl rfl
  | some p =>
    refine h.dec_move hp .dFirst rfl rfl rfl (h.width.frame rfl rfl) ?_
      (fun _ => h.arbiter.frozen_gen (.inr hst)) nofun nofun hbits rfl (h.ports.whole_bytes hp)
      ⟨fun _ => h.decoder.fresh (.inl hst), fun _ => h.decoder.links hp, nofun⟩ h.memory rfl
    exact harb.symm ▸ ArbiterOk.zero p

/-- The first codeword of a generation, a literal. -/
theorem Inv.startGeneration {s t : State} {cw : Code} (h : Inv s) (hst : s.ctl.st = .dFirst)
    (hcw : nextCode s = some cw) (hlit : cw.toNat < 256)
    (ht : (startGeneration cw s).outcome = .next t) : Inv t := by
  have hp : decPhase s.ctl.st = true := by rw [hst]; rfl
  have hbits := (nextCode_isSome_iff s).1 (by rw [hcw]; rfl)
  have hn := h.width.n_min
  have hprev : cw.toNat < s.wid.n.toNat := by omega
  cases hf : accFits 1 s with
  | true =>
    have hacc := accumulate_fits (u := { takeCode cw s with dec.prev := cw }) hf rfl rfl
    rw [Machine.startGeneration, hacc] at ht
    cases ht
    exact h.dec_move hp .dEmit rfl rfl rfl (h.width.frame rfl rfl) h.arbiterOk.accumulated
      (fun hf => h.arbiter.frozen_gen (.inl hf)) nofun nofun hbits rfl (h.ports.whole_bytes hp)
      ⟨nofun, fun _ => h.decoder.links hp,
        fun _ => ⟨hprev, Nat.ne_of_lt hlit⟩⟩ h.memory rfl
  | false =>
    rw [startGeneration_overflows hf] at ht
    cases ht
    refine Resting.overflow_inv ?_ _
    exact h.resting.frame rfl rfl rfl rfl rfl

/-- The string of a HIT or KWKWK codeword has at least one byte. -/
theorem Inv.codeLen_pos {s : State} {cw : Code} (h : Inv s) (hp : decPhase s.ctl.st = true)
    (h256 : cw.toNat ≠ 256) : 1 ≤ codeLen cw s := by
  unfold codeLen
  split_ifs with hlt
  · exact ((h.decoder.links hp).len_bound cw hlt h256).1
  · exact Nat.le_add_left _ _

/-- A running decoder of a sound state. -/
theorem Inv.decPass {s : State} (h : Inv s) (hp : decPhase s.ctl.st = true) : DecPass s :=
  ⟨hp, h.control.dec_side hp, h.width, h.memory, h.decoder.links hp, h.decoder.previous⟩

/-- A HIT or KWKWK codeword. -/
theorem Inv.learnCode {s t : State} {cw : Code} (h : Inv s) (hst : s.ctl.st = .dRead)
    (hcw : nextCode s = some cw) (h256 : cw.toNat ≠ 256) (hle : cw.toNat ≤ s.wid.n.toNat)
    (ht : (learnCode cw s).outcome = .next t) : Inv t := by
  have hp : decPhase s.ctl.st = true := by rw [hst]; rfl
  have hbits := (nextCode_isSome_iff s).1 (by rw [hcw]; rfl)
  have hgen : s.ctl.pol = .frozen → s.cnt.gen = 0 := fun hf => h.arbiter.frozen_gen (.inl hf)
  cases hf : accFits (codeLen cw s) s with
  | true =>
    obtain ⟨m, u, hlearn, hu, hueq, -, hwf, htab⟩ := learnCode_fits h.width h.memory hf
    rw [hlearn] at ht
    cases ht
    have hlinks : LinksOk m (nextWidth s).n.toNat := by
      rw [h.width.nextWidth_n]
      exact .learn h.width (h.decoder.links hp) (h.decoder.previous (by rw [hst]; rfl)) htab
    have hprev : cw.toNat < (nextWidth s).n.toNat := by
      rw [h.width.nextWidth_n]
      exact (h.decPass hp).code_lt_nextN hle
    rcases hu.dec with ⟨-, hc⟩ | ⟨hr, hc⟩ <;> rw [hc] <;> subst hueq
    · exact h.dec_move hp .dEmit rfl rfl rfl (h.width.step rfl rfl)
        (h.arbiterOk.sampled (h.codeLen_pos hp h256) h.width hf) hgen nofun nofun hbits rfl
        (h.ports.whole_bytes hp) ⟨nofun, fun _ => hlinks, fun _ => ⟨hprev, h256⟩⟩ hwf rfl
    · have hpol : s.ctl.pol ≠ .frozen := reinitializes_not_frozen hr
      exact h.dec_move hp .dReset rfl rfl rfl (h.width.step rfl rfl) h.arbiterOk.accumulated hgen
        (fun _ => hpol) nofun hbits rfl
        (h.ports.whole_bytes hp) ⟨nofun, fun _ => hlinks, fun _ => ⟨hprev, h256⟩⟩ hwf rfl
  | false =>
    obtain ⟨m, hraised, hwf⟩ := learnCode_overflows h.width h.memory hf
    rw [hraised] at ht
    cases ht
    refine Resting.overflow_inv ?_ _
    exact h.resting.advance rfl rfl rfl rfl hwf

/-- A transition that reads a codeword: TRUNCATED, or what its guarded meaning of the codeword
answers. -/
theorem Inv.read {s t : State} {g : Code → Bool} {r : Code → Result} (h : Inv s)
    (hr : ∀ cw, nextCode s = some cw → g cw = true → r cw = .next t → Inv t)
    (ht : readCode s (fun cw => whenEnabled (g cw) (r cw)) = .next t) : Inv t := by
  cases hcw : nextCode s with
  | none =>
    rw [readCode_none hcw] at ht
    cases ht
    exact h.resting.raiseFault_inv _ _
  | some cw =>
    rw [readCode_some hcw] at ht
    obtain ⟨hg, ht⟩ := whenEnabled_eq_next.1 ht
    exact hr cw hcw hg ht

/-- The output of the decoder after a string. -/
theorem Inv.whole_bytes_after {s : State} (h : Inv s) (hp : decPhase s.ctl.st = true)
    (bs : List Byte) : (bytesWrite bs s).port.ob.length % 8 = 0 := by
  have := h.ports.whole_bytes hp
  rw [bytesWrite_port, List.length_append, bytesBits_length]
  omega

/-- Every transition of the decoder keeps the invariant. -/
theorem Inv.execDec {s t : State} {i : Instr} (h : Inv s) (hp : decPhase s.ctl.st = true)
    (hrow : i ∈ phaseRows s.ctl.st) (hexec : exec i s = .next t) : Inv t := by
  have hp' := hp
  have herror := (h.control.dec_running hp).2.2.1
  have hgen : s.ctl.pol = .frozen → s.cnt.gen = 0 := fun hf => h.arbiter.frozen_gen (.inl hf)
  cases hst : s.ctl.st <;> simp [hst, decPhase] at hp <;>
    simp only [hst, phaseRows, List.mem_cons, List.not_mem_nil, or_false] at hrow
  case dTag =>
    subst hrow
    have hexec := (whenEnabled_eq_next.1 hexec).2
    split at hexec <;> cases hexec
    · exact h.resting.raiseFault_inv _ _
    · exact h.takeTag hst ‹_›
  case dFirst =>
    rcases hrow with rfl | rfl | rfl <;>
      refine h.read (fun cw hcw hg ht => ?_) (whenEnabled_eq_next.1 hexec).2
    · cases ht
      exact h.ended herror rfl rfl rfl rfl rfl rfl
    · exact h.startGeneration hst hcw (of_decide_eq_true hg) ht
    · cases ht
      refine Resting.raiseFault_inv ?_ _ _
      exact h.resting.frame rfl rfl rfl rfl rfl
  case dEmit =>
    subst hrow
    obtain ⟨bs, rfl⟩ := emitPrev_eq_next (whenEnabled_eq_next.1 hexec).2
    exact h.dec_move hp' .dRead rfl rfl rfl (h.width.frame rfl rfl) h.arbiterOk hgen
      nofun nofun (h.ports.bp_bound hp') rfl (h.whole_bytes_after hp' bs)
      ⟨nofun, fun _ => h.decoder.links hp', fun _ => h.decoder.previous (by rw [hst]; rfl)⟩
      h.memory rfl
  case dRead =>
    rcases hrow with rfl | rfl | rfl <;>
      refine h.read (fun cw hcw hg ht => ?_) (whenEnabled_eq_next.1 hexec).2
    · rw [Bool.and_eq_true, decide_eq_true_iff, decide_eq_true_iff] at hg
      exact h.learnCode hst hcw hg.1 hg.2 ht
    · cases ht
      exact h.ended herror rfl rfl rfl rfl rfl rfl
    · cases ht
      refine Resting.raiseFault_inv ?_ _ _
      exact h.resting.frame rfl rfl rfl rfl rfl
  case dReset =>
    subst hrow
    obtain ⟨bs, rfl⟩ := emitPrev_eq_next (k := fun u => goto .dFirst (reinit u))
      (whenEnabled_eq_next.1 hexec).2
    have hside : (bytesWrite bs s).ctl.side = .dec := (h.control.dec_running hp').2.2.2
    have hlinks : LinksOk s.mem widStart.n.toNat := fun j hlo (hhi : j.toNat < 257) => by omega
    rw [reinit_of_dec hside]
    exact h.dec_move hp' .dFirst rfl rfl rfl (.of_start rfl) (.zero _)
      (fun hf => absurd hf (h.arbiter.reset_asked hst)) nofun nofun (h.ports.bp_bound hp') rfl
      (h.whole_bytes_after hp' bs) ⟨fun _ => rfl, fun _ => hlinks, nofun⟩ h.memory rfl

/-- A transition fired from a sound state leads to one. -/
theorem Inv.exec_row {s t : State} {i : Instr} (h : Inv s) (busy : s.ctl.busy = true)
    (hrow : i ∈ phaseRows s.ctl.st) (hexec : exec i s = .next t) : Inv t :=
  (h.running busy).elim (h.execEnc · hrow hexec) (h.execDec · hrow hexec)

/-! ### START -/

/-- After the first lines of START the state rests (`45_host_commands.md` R333). -/
theorem clearForStart_resting {s : State} (hm : s.mem.wf = true) : Resting (clearForStart s) :=
  ⟨.of_start rfl, .zero _, fun _ => rfl, hm⟩

/-- A compress starts a sound pass from any state with sound stores. -/
theorem startCompress_inv {s : State} (hm : s.mem.wf = true) (p : Policy) :
    Inv (startCompress p s) := by
  refine ⟨⟨rfl, rfl, rfl, fun _ => rfl, nofun⟩, .of_start rfl,
    ArbiterOk.inv (.zero _) nofun (fun _ => rfl) nofun,
    ⟨fun _ => Nat.zero_le _, nofun, fun _ => rfl, nofun, nofun⟩,
    ⟨fun _ => ⟨rfl, rfl⟩, fun _ p b k hk => ?_, nofun⟩,
    ⟨nofun, nofun, nofun⟩, dictClear_wf hm, .head _⟩
  cases hk

/-- So does an expand. -/
theorem startExpand_inv {s : State} (hm : s.mem.wf = true) : Inv (startExpand s) := by
  refine ⟨⟨rfl, rfl, rfl, nofun, fun _ => rfl⟩, .of_start rfl,
    ⟨fun _ => rfl, fun _ => ⟨rfl, rfl⟩, nofun, fun _ => rfl, nofun⟩,
    ⟨nofun, fun _ => Nat.zero_le _, fun _ => rfl, nofun, fun _ => rfl⟩,
    ⟨nofun, nofun, nofun⟩,
    ⟨fun _ => rfl, fun _ j hlo (hhi : j.toNat < 257) => by omega, nofun⟩, hm, .head _⟩

/-- START leads to a sound state, whatever CMD holds. -/
theorem startPass_inv {s : State} (hm : s.mem.wf = true) : Inv (startPass s) := by
  have hrest := clearForStart_resting hm
  unfold startPass
  split_ifs
  · cases policyOfTag (cmdPolicy s.ctl.cmd) with
    | some p => exact startCompress_inv hm p
    | none =>
      refine Resting.raiseFault_inv ?_ _ _
      exact ⟨.of_start rfl, hrest.arbiter, hrest.frozen_gen, hrest.memory⟩
  · exact startExpand_inv hm
  · exact hrest.raiseFault_inv _ _

/-! ### The other host actions -/

/-- Hardware reset leads to a sound state. -/
theorem hardwareReset_inv {s : State} (hm : s.mem.wf = true) : Inv (hardwareReset s) := by
  refine ⟨⟨rfl, rfl, rfl, nofun, nofun⟩, .of_start rfl,
    ArbiterOk.inv (.zero _) nofun (fun _ => rfl) nofun, ⟨nofun, nofun, nofun, nofun, nofun⟩,
    ⟨nofun, nofun, nofun⟩, ⟨nofun, nofun, nofun⟩, hm, .head _⟩

/-- While no pass runs the input and CMD may change. -/
theorem Inv.idle_input {s : State} (h : Inv s) (hidle : s.ctl.busy = false) (c : BitVec 16)
    (bytes : List Byte) : Inv { s with ctl.cmd := c, port.inp := bytes } := by
  have hnone : (encPhase s.ctl.st || decPhase s.ctl.st) = false :=
    h.control.busy_running.symm.trans hidle
  obtain ⟨henc, hdec⟩ := Bool.or_eq_false_iff.1 hnone
  obtain ⟨c1, c2, c3, c4, c5⟩ := h.control
  obtain ⟨a1, a2, a3, a4, a5⟩ := h.arbiter
  obtain ⟨-, -, p3, p4, p5⟩ := h.ports
  obtain ⟨e1, e2, e3⟩ := h.encoder
  obtain ⟨d1, d2, d3⟩ := h.decoder
  exact ⟨⟨c1, c2, c3, c4, c5⟩, h.width.frame rfl rfl, ⟨a1, a2, a3, a4, a5⟩,
    ⟨fun hp => absurd hp (by simp [henc]), fun hp => absurd hp (by simp [hdec]), p3, p4, p5⟩,
    ⟨e1, e2, e3⟩, ⟨d1, d2, d3⟩, h.memory, h.errors⟩

/-! ### The statements -/

/-- Settles O51: reset is the hardware reset of itself. -/
theorem resetMeetsTheInvariant : Obligations.ResetMeetsTheInvariant :=
  hardwareReset_inv (s := State.reset) reset_mem_wf

/-- Settles O52: of all a step can do, a fired transition keeps the invariant part by part, START
and hardware reset establish it, and the other host actions do not touch it. -/
theorem stepKeepsTheInvariant : Obligations.StepKeepsTheInvariant := by
  intro s t hi h
  cases stepTo_of_step h with
  | hosted p => exact hi.with_host p
  | loaded p bytes idle => exact (hi.with_host p).idle_input idle s.ctl.cmd bytes
  | commanded p c idle => exact (hi.with_host p).idle_input idle c s.port.inp
  | started p idle => exact startPass_inv hi.memory
  | wasReset p => exact hardwareReset_inv hi.memory
  | fired p i t fetched executed =>
    obtain ⟨busy, hrow⟩ := fetchTransition_mem_rows fetched
    exact (hi.with_host p).exec_row busy hrow executed

/-- The core's turn from a sound state answers a next state. -/
theorem Inv.coreTurn_next {s : State} (h : Inv s) : ∃ t, coreTurn s = .next t := by
  cases hbusy : s.ctl.busy with
  | false => exact ⟨s, coreTurn_idle hbusy⟩
  | true =>
    obtain ⟨t, ht, -⟩ : TurnProceeds s :=
      (h.running_pass hbusy).pass.elim (encPass_proceeds hbusy) (·.proceeds hbusy)
    exact ⟨t, ht⟩

/-- An access at an aligned offset answers a next state (`10_state.md` R51). -/
theorem csrTurn_next (s : State) {a : CsrAccess} (ha : decodeCsr a ≠ .reject .misaligned) :
    ∃ t, csrTurn a s = .next t := by
  unfold csrTurn
  split
  case h_1 i hi =>
    have hi : decodeCsr a = .instr i := hi
    unfold decodeCsr at hi
    split at hi
    · split_ifs at hi with haligned
      cases hi
      exact ⟨_, if_pos haligned⟩
    · split_ifs at hi <;> cases hi <;> exact ⟨_, rfl⟩
  case h_2 hr => exact absurd hr ha
  case h_3 => exact ⟨s, rfl⟩

theorem decodeCsr_aligned {a : CsrAccess} {off : Byte} (ha : a = .read off ∨ ∃ v, a = .write off v)
    (haligned : off.toNat % 4 = 0) : decodeCsr a ≠ .reject .misaligned := by
  rcases ha with rfl | ⟨v, rfl⟩
  · simp [decodeCsr, haligned]
  · simp only [decodeCsr, haligned, ne_eq, not_true, if_false]
    split_ifs <;> simp

/-- Settles O54: the core's turn always goes on, and so do the host's actions where its own rules
hold. -/
theorem soundStateAlwaysSteps : Obligations.SoundStateAlwaysSteps := by
  intro s hi hrules
  unfold hostKeepsRules at hrules
  unfold step stepTurn
  cases hpending : s.host.pending with
  | nil => exact hi.coreTurn_next
  | cons a rest =>
    rw [hpending] at hrules
    have hi' : Inv { s with host.pending := rest } := hi.with_host _
    cases a with
    | csr a =>
      cases a with
      | read off => exact csrTurn_next _ (decodeCsr_aligned (.inl rfl) (of_decide_eq_true hrules))
      | write off v =>
        exact csrTurn_next _ (decodeCsr_aligned (.inr ⟨v, rfl⟩) (of_decide_eq_true hrules))
    | load bytes =>
      have hidle : s.ctl.busy = false := by simpa using hrules
      simp only [hostTurn, hidle]
      exact ⟨_, rfl⟩
    | turn => exact hi'.coreTurn_next
    | wait =>
      simp only [hostTurn]
      split_ifs
      · exact Inv.coreTurn_next ((hi'.with_host _).with_host _)
      · exact ⟨_, rfl⟩
    | check => exact ⟨_, rfl⟩
    | hardwareReset => exact ⟨_, rfl⟩

end Sys2Proof.Machine
end


section
/-! PROOFS. Decoding and encoding agree (`30_encoding.md` §2 to §4, §6). -/

namespace Sys2Proof

/-! ### The fields of CMD -/

/-- CMD as a number: POLICY over OP (`10_state.md` R53). -/
theorem toNat_command (p q : Byte) : (p ++ q : BitVec 16).toNat = 256 * p.toNat + q.toNat := by
  rw [BitVec.toNat_append, Nat.shiftLeft_eq, Nat.mul_comm, ← Nat.two_pow_add_eq_or_of_lt q.isLt]

@[simp] theorem cmdOp_append (p q : Byte) : cmdOp (p ++ q) = q := by
  have hq := q.isLt
  apply BitVec.eq_of_toNat_eq
  rw [cmdOp, BitVec.extractLsb'_toNat, toNat_command]
  omega

@[simp] theorem cmdPolicy_append (p q : Byte) : cmdPolicy (p ++ q) = p := by
  have hp := p.isLt
  have hq := q.isLt
  apply BitVec.eq_of_toNat_eq
  rw [cmdPolicy, BitVec.extractLsb'_toNat, toNat_command, Nat.shiftRight_eq_div_pow]
  omega

/-- CMD is its two fields. -/
theorem cmdPolicy_append_cmdOp (c : BitVec 16) : cmdPolicy c ++ cmdOp c = c := by
  have hc := c.isLt
  apply BitVec.eq_of_toNat_eq
  rw [toNat_command, cmdPolicy, cmdOp, BitVec.extractLsb'_toNat, BitVec.extractLsb'_toNat,
    Nat.shiftRight_eq_div_pow, Nat.shiftRight_zero]
  omega

/-! ### Decoding an item -/

/-- A byte written as a codeword and cut back to a byte. -/
theorem byte_of_code {cw : Code} (h : cw.toNat < 256) : (cw.setWidth 8).setWidth 16 = cw := by
  apply BitVec.eq_of_toNat_eq
  simp
  omega

theorem code_of_byte (b : Byte) : (b.setWidth 16 : Code).setWidth 8 = b := by
  apply BitVec.eq_of_toNat_eq
  simp

theorem toNat_code_of_byte (b : Byte) : (b.setWidth 16 : Code).toNat = b.toNat := by
  have hb := b.isLt
  simp
  omega

/-- What the guards of D_FIRST and D_READ say of the codeword they see. -/
theorem exists_of_any {o : Option Code} {g : Code → Bool} (h : o.any g = true) :
    ∃ cw, o = some cw ∧ g cw = true := by
  cases o with
  | none => cases h
  | some cw => exact ⟨cw, rfl, h⟩

/-- The rows of E_FIRST and E_SCAN in a view their guards admit. -/
theorem decode_encode_scan {v : View} :
    (v.inEmpty = true → decode v (encode .encFirstEmpty) = .instr .encFirstEmpty
      ∧ decode v (encode .encScanEnd) = .instr .encScanEnd)
    ∧ (v.inEmpty = false → decode v (encode .encFirstByte) = .instr .encFirstByte
      ∧ decode v (encode .encScanHit)
        = .instr (if v.lookup.isSome then .encScanHit else .encScanMiss)) := by
  obtain ⟨e, lookup, next, n⟩ := v
  exact ⟨fun h => by cases h; exact ⟨rfl, rfl⟩, fun h => by cases h; exact ⟨rfl, rfl⟩⟩

/-- The rows of D_FIRST and D_READ, by the codeword they see. -/
theorem decode_encode_code {v : View} {cw : Code} (h : v.next = some cw) :
    decode v (encode .decFirstEof) = .instr (if cw.toNat = 256 then .decFirstEof
      else if cw.toNat < 256 then .decFirstLiteral else .decFirstReserved)
    ∧ decode v (encode .decReadEof) = .instr (if cw.toNat = 256 then .decReadEof
      else if cw.toNat ≤ v.n.toNat then .decReadLearn else .decReadReserved) := by
  obtain ⟨e, lookup, next, n⟩ := v
  cases h
  exact ⟨rfl, rfl⟩

/-- Settles O47, row by row: each class and guard picks its own row out of those that share its
format and bits. -/
theorem decodeOfEncodeIsTheInstruction : Obligations.DecodeOfEncodeIsTheInstruction := by
  intro i v hwf hguard
  cases i with
  | tagReserved t =>
    have hnone : policyOfTag t = none := by
      simp only [Instr.wf, Bool.and_eq_true, bne_iff_ne] at hwf
      obtain ⟨⟨hn, hr⟩, hm⟩ := hwf
      rw [policyOfTag, if_neg hn, if_neg hr, if_neg hm]
    simp only [encode, decode, decodeTag, hnone]
  | firstLiteral b =>
    simp only [encode, decode, decodeFirst, toNat_code_of_byte, b.isLt, if_true, code_of_byte]
  | firstReserved cw =>
    simp only [Instr.wf, Bool.and_eq_true, decide_eq_true_eq] at hwf
    have hlit : ¬ cw.toNat < 256 := by omega
    have heof : ¬ cw.toNat = 256 := by omega
    simp only [encode, decode, decodeFirst, hlit, heof, if_false]
  | hit cw =>
    have heof : ¬ cw.toNat = 256 := of_decide_eq_true hwf
    have hlt : cw.toNat < v.n.toNat := of_decide_eq_true hguard
    simp only [encode, decode, decodeRead, heof, hlt, if_true, if_false]
  | kwkwk cw =>
    have h257 : 257 ≤ cw.toNat := of_decide_eq_true hwf
    have heq : cw.toNat = v.n.toNat := of_decide_eq_true hguard
    have heof : ¬ cw.toNat = 256 := by omega
    have hlt : ¬ cw.toNat < v.n.toNat := by omega
    simp only [encode, decode, decodeRead, if_neg heof, if_neg hlt, if_pos heq]
  | codeReserved cw =>
    have h257 : 257 < cw.toNat := of_decide_eq_true hwf
    have hgt : v.n.toNat < cw.toNat := of_decide_eq_true hguard
    have heof : ¬ cw.toNat = 256 := by omega
    have hlt : ¬ cw.toNat < v.n.toNat := by omega
    have hne : ¬ cw.toNat = v.n.toNat := by omega
    simp only [encode, decode, decodeRead, if_neg heof, if_neg hlt, if_neg hne]
  | expand p =>
    have hne : opExpand ≠ opCompress := by decide
    simp only [encode, decode, decodeCommand, cmdOp_append, cmdPolicy_append, if_neg hne, if_true]
  | start v' =>
    have hbit : v'.getLsbD 0 = true := hwf
    simp [encode, decode, decodeCsr, hbit]
  | csrRead off =>
    have haligned : off.toNat % 4 = 0 := of_decide_eq_true hwf
    simp only [encode, decode, decodeCsr, haligned, if_true]
  | encFirstEmpty => exact (decode_encode_scan.1 hguard).1
  | encFirstByte => exact (decode_encode_scan.2 (by simpa [Instr.guardHolds] using hguard)).1
  | encScanHit =>
    simp only [Instr.guardHolds, Bool.and_eq_true, Bool.not_eq_true'] at hguard
    rw [(decode_encode_scan.2 hguard.1).2, if_pos hguard.2]
  | encScanMiss =>
    simp only [Instr.guardHolds, Bool.and_eq_true, Bool.not_eq_true', Option.isNone_iff_eq_none]
      at hguard
    refine (decode_encode_scan.2 hguard.1).2.trans ?_
    rw [hguard.2]
    rfl
  | encScanEnd => exact (decode_encode_scan.1 hguard).2
  | decFirstEof =>
    obtain ⟨cw, hcw, hg⟩ := exists_of_any hguard
    rw [(decode_encode_code hcw).1, if_pos (of_decide_eq_true hg)]
  | decFirstLiteral =>
    obtain ⟨cw, hcw, hg⟩ := exists_of_any hguard
    have hlit : cw.toNat < 256 := of_decide_eq_true hg
    refine (decode_encode_code hcw).1.trans ?_
    rw [if_neg (Nat.ne_of_lt hlit), if_pos hlit]
  | decFirstReserved =>
    obtain ⟨cw, hcw, hg⟩ := exists_of_any hguard
    have hgt : 256 < cw.toNat := of_decide_eq_true hg
    refine (decode_encode_code hcw).1.trans ?_
    rw [if_neg (Nat.ne_of_gt hgt), if_neg (Nat.not_lt.2 hgt.le)]
  | decReadLearn =>
    obtain ⟨cw, hcw, hg⟩ := exists_of_any hguard
    simp only [Bool.and_eq_true, decide_eq_true_eq] at hg
    refine (decode_encode_code hcw).2.trans ?_
    rw [if_neg hg.1, if_pos hg.2]
  | decReadEof =>
    obtain ⟨cw, hcw, hg⟩ := exists_of_any hguard
    rw [(decode_encode_code hcw).2, if_pos (of_decide_eq_true hg)]
  | decReadReserved =>
    obtain ⟨cw, hcw, hg⟩ := exists_of_any hguard
    simp only [Bool.and_eq_true, decide_eq_true_eq] at hg
    refine (decode_encode_code hcw).2.trans ?_
    rw [if_neg hg.1, if_neg (Nat.not_le.2 hg.2)]
  | tagFrozen => rfl
  | tagSaturate => rfl
  | tagMonitored => rfl
  | firstEof => rfl
  | eof => rfl
  | compressFrozen => rfl
  | compressSaturate => rfl
  | compressMonitored => rfl
  | cmdWrite v' => rfl
  | encTag => rfl
  | encStep => rfl
  | encLast => rfl
  | encEof => rfl
  | decTag => rfl
  | decEmit => rfl
  | decReset => rfl

/-! ### Encoding what was decoded -/

theorem encode_decodeTag (t : Byte) : encode (decodeTag t) = .tag8 t := by
  unfold decodeTag
  cases hp : policyOfTag t with
  | none => rfl
  | some p =>
    rw [Machine.policyOfTag_eq_some hp]
    cases p <;> rfl

theorem encode_decodeFirst (cw : Code) : encode (decodeFirst cw) = .cwFirst cw := by
  unfold decodeFirst
  split_ifs with hlit heof
  · exact congrArg Encoded.cwFirst (byte_of_code hlit)
  · exact congrArg Encoded.cwFirst (BitVec.eq_of_toNat_eq heof.symm)
  · rfl

theorem encode_decodeRead (n : Count) (cw : Code) : encode (decodeRead n cw) = .cwRead cw := by
  unfold decodeRead
  split_ifs with heof
  · exact congrArg Encoded.cwRead (BitVec.eq_of_toNat_eq heof.symm)
  · rfl
  · rfl
  · rfl

theorem encode_decodeCommand {c : BitVec 16} {i : Instr} (h : decodeCommand c = .instr i) :
    encode i = .cmd16 c := by
  have hc := cmdPolicy_append_cmdOp c
  unfold decodeCommand at h
  split_ifs at h with hop hop'
  · rw [hop] at hc
    cases hp : policyOfTag (cmdPolicy c) with
    | none => simp [hp] at h
    | some p =>
      rw [Machine.policyOfTag_eq_some hp] at hc
      rw [hp] at h
      rw [← hc]
      cases p <;> cases h <;> rfl
  · cases h
    rw [hop'] at hc
    exact congrArg Encoded.cmd16 hc

theorem encode_decodeCsr {a : CsrAccess} {i : Instr} (h : decodeCsr a = .instr i) :
    encode i = .csr a := by
  cases a with
  | read off =>
    rw [decodeCsr] at h
    split_ifs at h
    cases h
    rfl
  | write off v =>
    rw [decodeCsr] at h
    split_ifs at h with _ h0 _ h4
    · cases h; rw [h0]; rfl
    · cases h; rw [h4]; rfl

namespace Machine

/-- Every row of the transition table is encoded as its state of ST. -/
theorem encode_of_mem_rows {p : Phase} {i : Instr} (h : i ∈ phaseRows p) :
    encode i = .fsm p.code := by
  revert h i
  cases p <;> simp [phaseRows, encode, Phase.code]

end Machine

theorem encode_decodeFsm {v : View} {c : BitVec 5} {i : Instr} (h : decodeFsm v c = .instr i) :
    encode i = .fsm c := by
  cases hp : phaseOfCode c with
  | none => simp [decodeFsm, hp] at h
  | some p =>
    obtain rfl := Machine.phaseOfCode_eq_some hp
    exact Machine.encode_of_mem_rows (Machine.decodeFsm_mem_rows h)

/-- Settles O48, format by format. -/
theorem encodeOfDecodeIsTheItem : Obligations.EncodeOfDecodeIsTheItem := by
  intro e v i h
  cases e with
  | tag8 t => cases h; exact encode_decodeTag t
  | cwFirst cw => cases h; exact encode_decodeFirst cw
  | cwRead cw => cases h; exact encode_decodeRead v.n cw
  | cmd16 c => exact encode_decodeCommand h
  | csr a => exact encode_decodeCsr h
  | fsm c => exact encode_decodeFsm h

/-- Settles O49: the decoder looks at nothing but the word. -/
theorem opcodeWordsDecodeToTheirRows : Obligations.OpcodeWordsDecodeToTheirRows :=
  fun _ => ⟨rfl, rfl, rfl, rfl, rfl, rfl, rfl, rfl, rfl, rfl, rfl, rfl, rfl, rfl, rfl⟩

end Sys2Proof
end


section
/-! PROOFS. A wire item and the transition that reads it do the same (`41_decoder.md` R200 to R203,
R206, R207; log 2), and a short read raises TRUNCATED in every row (`60_exceptions.md` R365). -/

namespace Sys2Proof.Machine

/-! ### Short reads -/

theorem nextCode_eq_none {s : State} (h : 8 * s.port.inp.length < s.port.bp + s.wid.w.toNat) :
    nextCode s = none := by
  rw [← Option.not_isSome_iff_eq_none, nextCode_isSome_iff]
  omega

theorem nextTag_eq_none {s : State} (h : 8 * s.port.inp.length < s.port.bp + 8) :
    nextTag s = none := by
  rw [← Option.not_isSome_iff_eq_none, nextTag_isSome_iff]
  omega

theorem exec_decTag_short {s : State} (hst : s.ctl.st = .dTag) (h : nextTag s = none) :
    exec .decTag s = .next (raiseFault .truncated 0 s) := by
  simp [exec, execDecTag, hst, h]

/-- Every row of D_FIRST takes the short read (log 16). -/
theorem exec_dFirst_short {s : State} {i : Instr} (hst : s.ctl.st = .dFirst)
    (h : nextCode s = none) (hi : i ∈ phaseRows .dFirst) :
    exec i s = .next (raiseFault .truncated 0 s) := by
  simp only [phaseRows, List.mem_cons, List.not_mem_nil, or_false] at hi
  rcases hi with rfl | rfl | rfl
  · simp [exec, execDecFirstEof, hst, readCode_none h]
  · simp [exec, execDecFirstLiteral, hst, readCode_none h]
  · simp [exec, execDecFirstReserved, hst, readCode_none h]

/-- Every row of D_READ takes the short read (log 16). -/
theorem exec_dRead_short {s : State} {i : Instr} (hst : s.ctl.st = .dRead)
    (h : nextCode s = none) (hi : i ∈ phaseRows .dRead) :
    exec i s = .next (raiseFault .truncated 0 s) := by
  simp only [phaseRows, List.mem_cons, List.not_mem_nil, or_false] at hi
  rcases hi with rfl | rfl | rfl
  · simp [exec, execDecReadLearn, hst, readCode_none h]
  · simp [exec, execDecReadEof, hst, readCode_none h]
  · simp [exec, execDecReadReserved, hst, readCode_none h]

/-- Settles O23: the read itself raises, whatever the row's guard asks. -/
theorem shortReadRaisesTruncated : Obligations.ShortReadRaisesTruncated := by
  rintro s i (⟨hst, hshort, rfl⟩ | ⟨hst, hshort, hi⟩ | ⟨hst, hshort, hi⟩)
  · exact exec_decTag_short hst (nextTag_eq_none hshort)
  · exact exec_dFirst_short hst (nextCode_eq_none hshort) hi
  · exact exec_dRead_short hst (nextCode_eq_none hshort) hi

/-! ### The tag -/

/-- DEC_TAG and the tag it reads. -/
theorem exec_tag {s : State} {t : Byte} (hst : s.ctl.st = .dTag) (ht : nextTag s = some t) :
    exec .decTag s = .next (takeTag t s) ∧ exec (decodeTag t) s = .next (takeTag t s) := by
  refine ⟨by simp [exec, execDecTag, hst, ht], ?_⟩
  unfold decodeTag
  cases hp : policyOfTag t with
  | none => simp [exec, execTagReserved, tagAt, hst, ht, hp]
  | some p =>
    obtain rfl := policyOfTag_eq_some hp
    cases p
    · simp only [exec, execTagFrozen, tagAt, hst, ht]; rfl
    · simp only [exec, execTagSaturate, tagAt, hst, ht]; rfl
    · simp only [exec, execTagMonitored, tagAt, hst, ht]; rfl

theorem decodeTag_tag (p : Policy) : decodeTag p.tag = match p with
    | .frozen => .tagFrozen
    | .saturate => .tagSaturate
    | .monitored => .tagMonitored := by
  cases p <;> rfl

theorem takeTag_policy (p : Policy) (s : State) :
    takeTag p.tag s = goto .dFirst { skipBits 8 s with ctl.pol := p } := by
  rw [takeTag, policyOfTag_tag]

/-- A byte that is no tag is one of the reserved rows. -/
theorem policyOfTag_reserved {t : Byte} (hn : t ≠ 0x6E) (hr : t ≠ 0x72) (hm : t ≠ 0x6D) :
    policyOfTag t = none := by
  rw [policyOfTag, if_neg hn, if_neg hr, if_neg hm]

/-- Settles O17: DEC_TAG and the row of the tag run the same steps on the byte read. -/
theorem decTagSelectsThePolicy : Obligations.DecTagSelectsThePolicy := by
  intro s hst
  refine ⟨fun p ht => ?_, fun t ht hn hr hm => ?_, fun ht => exec_decTag_short hst ht⟩
  · obtain ⟨hdec, hrow⟩ := exec_tag hst ht
    rw [takeTag_policy] at hdec hrow
    exact ⟨_, hdec, (congrArg (exec · s) (decodeTag_tag p)).symm.trans hrow, rfl⟩
  · have hnone := policyOfTag_reserved hn hr hm
    obtain ⟨hdec, hrow⟩ := exec_tag hst ht
    rw [takeTag, hnone] at hdec hrow
    rw [decodeTag, hnone] at hrow
    exact ⟨_, hdec, hrow, rfl⟩

/-! ### The first codeword of a generation -/

theorem exec_first_eof {s : State} (hst : s.ctl.st = .dFirst) (hcw : nextCode s = some 256) :
    exec .decFirstEof s = .next (endStream 256 s) ∧ exec .firstEof s = .next (endStream 256 s) := by
  refine ⟨?_, ?_⟩
  · simp [exec, execDecFirstEof, hst, readCode_some hcw, Config.eofCode]
  · simp [exec, execFirstEof, codeAt, hst, hcw]

theorem exec_first_literal {s : State} {b : Byte} (hst : s.ctl.st = .dFirst)
    (hcw : nextCode s = some (b.setWidth 16)) :
    exec .decFirstLiteral s = (startGeneration (b.setWidth 16) s).outcome
      ∧ exec (.firstLiteral b) s = (startGeneration (b.setWidth 16) s).outcome := by
  have hlit : (b.setWidth 16 : Code).toNat < 256 := by rw [toNat_code_of_byte]; exact b.isLt
  refine ⟨?_, ?_⟩
  · simp only [exec, execDecFirstLiteral, hst, readCode_some hcw, hlit]; rfl
  · simp [exec, execFirstLiteral, codeAt, hst, hcw]

theorem exec_first_reserved {s : State} {cw : Code} (hst : s.ctl.st = .dFirst)
    (hcw : nextCode s = some cw) (hge : 257 ≤ cw.toNat) :
    exec .decFirstReserved s = .next (rejectFirst cw s)
      ∧ exec (.firstReserved cw) s = .next (rejectFirst cw s) := by
  refine ⟨?_, ?_⟩
  · simp [exec, execDecFirstReserved, hst, readCode_some hcw, Config.firstCode, hge]
  · simp [exec, execFirstReserved, codeAt, hst, hcw, Config.firstCode, hge]

/-- The padding of Close() after a codeword has been taken: fewer than eight bits. -/
theorem endStream_eq (cw : Code) (s : State) :
    ∃ pad : Nat, pad < 8 ∧ (s.port.ob.length + pad) % 8 = 0 ∧ endStream cw s = { s with
      ctl := { s.ctl with busy := false, done := true, st := .done }
      dec := { s.dec with cw := cw }
      cnt := { s.cnt with cwCount := s.cnt.cwCount + 1 }
      port := { s.port with
        bp := s.port.bp + s.wid.w.toNat
        ob := s.port.ob ++ List.replicate pad false
        closed := true } } :=
  ⟨(8 - s.port.ob.length % 8) % 8, by omega, by omega, rfl⟩

/-- Settles O18, class by class. -/
theorem firstCodewordEndsStartsOrFaults : Obligations.FirstCodewordEndsStartsOrFaults := by
  intro s hst
  refine ⟨fun hcw => ?_, fun b hcw => ?_, fun cw hcw hge => ?_, fun hcw i hi => ?_⟩
  · obtain ⟨hdec, hrow⟩ := exec_first_eof hst hcw
    obtain ⟨pad, hlt, hwhole, heq⟩ := endStream_eq 256 s
    exact ⟨pad, _, hlt, hwhole, hdec, hrow, heq⟩
  · obtain ⟨hdec, hrow⟩ := exec_first_literal hst hcw
    cases hf : accFits 1 s with
    | true =>
      have hacc := accumulate_fits
        (u := { takeCode (b.setWidth 16) s with dec.prev := b.setWidth 16 }) hf rfl rfl
      rw [startGeneration, hacc] at hdec hrow
      exact ⟨_, hdec, hrow, fun _ => rfl, nofun⟩
    | false =>
      rw [startGeneration_overflows hf] at hdec hrow
      refine ⟨_, hdec, hrow, nofun, fun _ => ?_⟩
      exact congrArg (fun e => { takeCode (b.setWidth 16) s with
        ctl := { s.ctl with busy := false, done := false, error := true, st := .error }
        dec := { prev := b.setWidth 16, cw := b.setWidth 16 }
        err := e }) (err_of_overflow (2 ^ 64 ≤ s.arb.accNum.toNat + 8 * 1) s)
  · obtain ⟨hdec, hrow⟩ := exec_first_reserved hst hcw hge
    exact ⟨_, hdec, hrow, rfl⟩
  · exact exec_dFirst_short hst hcw hi

/-! ### A later codeword -/

theorem exec_read_eof {s : State} (hst : s.ctl.st = .dRead) (hcw : nextCode s = some 256) :
    exec .decReadEof s = .next (endStream 256 s) ∧ exec .eof s = .next (endStream 256 s) := by
  refine ⟨?_, ?_⟩
  · simp [exec, execDecReadEof, hst, readCode_some hcw, Config.eofCode]
  · simp [exec, execEof, codeAt, hst, hcw]

theorem exec_read_reserved {s : State} {cw : Code} (hst : s.ctl.st = .dRead)
    (hcw : nextCode s = some cw) (h256 : cw.toNat ≠ 256) (hgt : s.wid.n.toNat < cw.toNat) :
    exec .decReadReserved s = .next (rejectCode cw s)
      ∧ exec (.codeReserved cw) s = .next (rejectCode cw s) := by
  refine ⟨?_, ?_⟩
  · simp [exec, execDecReadReserved, hst, readCode_some hcw, Config.eofCode, h256, hgt]
  · simp [exec, execCodeReserved, codeAt, hst, hcw, Config.eofCode, h256, hgt]

/-- Settles O21, class by class. -/
theorem decReadEndsOrFaults : Obligations.DecReadEndsOrFaults := by
  intro s hst
  refine ⟨fun hcw => ?_, fun cw hcw h256 hgt => ?_, fun hcw i hi => ?_⟩
  · obtain ⟨hdec, hrow⟩ := exec_read_eof hst hcw
    obtain ⟨pad, hlt, hwhole, heq⟩ := endStream_eq 256 s
    exact ⟨pad, _, hlt, hwhole, hdec, hrow, heq⟩
  · obtain ⟨hdec, hrow⟩ := exec_read_reserved hst hcw h256 hgt
    exact ⟨_, hdec, hrow, rfl⟩
  · exact exec_dRead_short hst hcw hi

end Sys2Proof.Machine
end


section
/-! PROOFS. What a step runs (`00_scope.md` R14, `30_encoding.md` R146, `45_host_commands.md` R335):
the transition ST and the guards decode to, the wire item or the command it stands for, or the host
access that is next. -/

namespace Sys2Proof.Machine

/-! ### The step -/

theorem step_of_no_action {s : State} (h : s.host.pending = []) : step s = coreTurn s := by
  simp only [step, stepTurn, h]

theorem step_of_action {s : State} {a : HostAction} {rest : List HostAction}
    (h : s.host.pending = a :: rest) :
    step s = hostTurn a { s with host := { s.host with pending := rest } } := by
  simp only [step, stepTurn, h]

/-- A busy core's turn fires the transition ST and the guards decode to. -/
theorem coreTurn_of_decode {s : State} {i : Instr} (busy : s.ctl.busy = true)
    (h : decode (viewOf s) (.fsm s.ctl.st.code) = .instr i) : coreTurn s = exec i s :=
  coreTurn_busy busy rfl h

/-- An access that decodes to an instruction runs it. -/
theorem csrTurn_of_decode {s : State} {a : CsrAccess} {i : Instr} (h : decodeCsr a = .instr i) :
    csrTurn a s = exec i s := by
  simp only [csrTurn, decode, h]

/-- Settles O42: a core's turn, given by no action or by a turn, and a CSR access. -/
theorem stepRunsTheDecodedInstruction : Obligations.StepRunsTheDecodedInstruction := by
  intro s i
  refine ⟨fun hpending busy h => ?_, fun rest hpending busy h => ?_, fun a rest hpending h => ?_⟩
  · rw [step_of_no_action hpending]
    exact coreTurn_of_decode busy h
  · rw [step_of_action hpending]
    exact coreTurn_of_decode (s := { s with host := { s.host with pending := rest } }) busy h
  · rw [step_of_action hpending]
    exact csrTurn_of_decode h

/-- Settles O45: a core that is not busy keeps all state in its turn. -/
theorem waitingCoreKeepsAllState : Obligations.WaitingCoreKeepsAllState := by
  intro s hpending hidle
  rw [step_of_no_action hpending, coreTurn_idle hidle]

/-- Settles O46: LOAD, WAIT and CHECK, each by BUSY or ERROR. -/
theorem hostActionsFollowTheirWords : Obligations.HostActionsFollowTheirWords := by
  intro s rest
  refine ⟨fun bytes hpending => ⟨fun hidle => ?_, fun busy => ?_⟩,
    fun hpending => ⟨fun hidle => ?_, fun busy i h => ?_⟩, fun hpending => ?_⟩ <;>
    rw [step_of_action hpending]
  · simp only [hostTurn, hidle]
    rfl
  · simp only [hostTurn, busy, if_true]
  · simp only [hostTurn, hidle]
    rfl
  · simp only [hostTurn, busy, if_true]
    exact coreTurn_of_decode
      (s := { s with host := { rdata := csrStatus s, pending := .wait :: rest } }) busy h
  · cases herror : s.ctl.error <;> simp only [hostTurn, herror] <;> rfl

/-! ### The item a transition reads -/

/-- In D_FIRST the transition and the codeword it reads do the same. -/
theorem exec_decodeFirst {s : State} {cw : Code} {i : Instr} (hst : s.ctl.st = .dFirst)
    (hcw : nextCode s = some cw)
    (hrow : decodeFsm (viewOf s) Phase.dFirst.code = .instr i) :
    exec i s = exec (decodeFirst cw) s := by
  rw [decodeFsm_dFirst hcw] at hrow
  unfold decodeFirst
  by_cases heof : cw.toNat = 256
  · obtain rfl : cw = 256 := BitVec.eq_of_toNat_eq heof
    cases hrow
    obtain ⟨hdec, hitem⟩ := exec_first_eof hst hcw
    exact hdec.trans hitem.symm
  · rw [if_neg heof] at hrow ⊢
    by_cases hlit : cw.toNat < 256
    · rw [if_pos hlit] at hrow ⊢
      cases hrow
      obtain ⟨hdec, hitem⟩ := exec_first_literal (b := cw.setWidth 8) hst
        (by rw [byte_of_code hlit, hcw])
      exact hdec.trans hitem.symm
    · rw [if_neg hlit] at hrow ⊢
      cases hrow
      obtain ⟨hdec, hitem⟩ := exec_first_reserved hst hcw (by omega)
      exact hdec.trans hitem.symm

/-- In D_READ the transition and the codeword it reads do the same. -/
theorem exec_decodeRead {s : State} {cw : Code} {i : Instr} (hst : s.ctl.st = .dRead)
    (hcw : nextCode s = some cw)
    (hrow : decodeFsm (viewOf s) Phase.dRead.code = .instr i) :
    exec i s = exec (decodeRead s.wid.n cw) s := by
  rw [decodeFsm_dRead hcw] at hrow
  unfold decodeRead
  by_cases heof : cw.toNat = 256
  · obtain rfl : cw = 256 := BitVec.eq_of_toNat_eq heof
    cases hrow
    obtain ⟨hdec, hitem⟩ := exec_read_eof hst hcw
    exact hdec.trans hitem.symm
  · rw [if_neg heof] at hrow ⊢
    by_cases hle : cw.toNat ≤ s.wid.n.toNat
    · rw [if_pos hle] at hrow
      cases hrow
      obtain ⟨hdec, hhit, hkwkwk⟩ := exec_learn hst hcw heof hle
      by_cases hlt : cw.toNat < s.wid.n.toNat
      · rw [if_pos hlt, hdec, hhit hlt]
      · have heq : cw.toNat = s.wid.n.toNat := by omega
        rw [if_neg hlt, if_pos heq, hdec, hkwkwk heq]
    · have hgt : s.wid.n.toNat < cw.toNat := by omega
      rw [if_neg hle] at hrow
      rw [if_neg (by omega), if_neg (by omega)]
      cases hrow
      obtain ⟨hdec, hitem⟩ := exec_read_reserved hst hcw heof hgt
      exact hdec.trans hitem.symm

/-- A command is what START does with it (log 3). -/
theorem exec_command {s : State} {i : Instr} (hidle : s.ctl.busy = false)
    (h : decodeCommand s.ctl.cmd = .instr i) : exec i s = .next (startPass s) := by
  have hword := encode_decodeCommand h
  have hcompress (p : Policy) (hcmd : s.ctl.cmd = p.tag ++ opCompress) :
      startPass s = startCompress p s :=
    startPass_compress (by rw [hcmd, cmdOp_append]) (by rw [hcmd, cmdPolicy_append])
  cases i <;> simp only [encode, reduceCtorEq, Encoded.cmd16.injEq] at hword
  case compressFrozen =>
    rw [hcompress .frozen hword.symm]
    simp [exec, execCompressFrozen, ← hword, hidle]
  case compressSaturate =>
    rw [hcompress .saturate hword.symm]
    simp [exec, execCompressSaturate, ← hword, hidle]
  case compressMonitored =>
    rw [hcompress .monitored hword.symm]
    simp [exec, execCompressMonitored, ← hword, hidle]
  case expand p =>
    rw [startPass_expand (by rw [← hword, cmdOp_append])]
    simp [exec, execExpand, ← hword, hidle]

/-- D_FIRST and D_READ always decode to a row, and so does every other running state. -/
theorem decodeFsm_running (v : View) {p : Phase} (hp : (encPhase p || decPhase p) = true) :
    ∃ i, decodeFsm v p.code = .instr i := by
  cases p <;> simp only [encPhase, decPhase, Bool.or_self, Bool.false_eq_true] at hp <;>
    exact ⟨_, rfl⟩

/-- Settles O43: the step fires the transition of the state, which does what its item does; START
does what its command does. -/
theorem stepRunsTheItemItReads : Obligations.StepRunsTheItemItReads := by
  intro s
  refine ⟨fun t hpending busy hst ht => ?_, fun cw hpending busy hst hcw => ?_,
    fun cw hpending busy hst hcw => ?_, fun v rest i hpending hv hidle h => ?_⟩
  · have hrow : decodeFsm (viewOf s) Phase.dTag.code = .instr .decTag := rfl
    obtain ⟨hdec, hitem⟩ := exec_tag hst ht
    refine ⟨_, rfl, ?_⟩
    rw [step_of_no_action hpending, coreTurn_busy busy hst hrow, hdec, hitem]
  · obtain ⟨i, hrow⟩ := decodeFsm_running (viewOf s) (p := .dFirst) rfl
    refine ⟨_, rfl, ?_⟩
    rw [step_of_no_action hpending, coreTurn_busy busy hst hrow, exec_decodeFirst hst hcw hrow]
  · obtain ⟨i, hrow⟩ := decodeFsm_running (viewOf s) (p := .dRead) rfl
    refine ⟨_, rfl, ?_⟩
    rw [step_of_no_action hpending, coreTurn_busy busy hst hrow, exec_decodeRead hst hcw hrow]
    rfl
  · have hstart : decodeCsr (.write 0x00 v) = .instr (.start v) := by simp [decodeCsr, hv]
    have hcommand := exec_command (s := { s with host := { s.host with pending := rest } }) hidle h
    rw [step_of_action hpending, hcommand]
    exact (csrTurn_of_decode hstart).trans (exec_start_idle hv hidle)

/-! ### The transition that fires -/

/-- A guarded meaning is not turned away exactly where its guard holds and its body is not. -/
theorem whenEnabled_ne {g : Bool} {r : Result} :
    whenEnabled g r ≠ .refused .notEnabled ↔ g = true ∧ r ≠ .refused .notEnabled := by
  cases g <;> simp

theorem Flow.outcome_ne (f : Flow) : f.outcome ≠ .refused .notEnabled := by
  cases f <;> simp

theorem emitPrev_ne (s : State) (k : State → State) : emitPrev s k ≠ .refused .notEnabled := by
  unfold emitPrev
  split <;> simp

/-- A row of D_FIRST or D_READ whose codeword is there fires where its guard holds of it. -/
theorem readCode_ne {s : State} {cw : Code} (hcw : nextCode s = some cw) {g : Code → Bool}
    {r : Code → Result} (hr : ∀ cw, r cw ≠ .refused .notEnabled) :
    readCode s (fun cw => whenEnabled (g cw) (r cw)) ≠ .refused .notEnabled ↔ g cw = true := by
  rw [readCode_some hcw, whenEnabled_ne]
  exact ⟨And.left, fun h => ⟨h, hr cw⟩⟩

/-- The same with the row's own state of ST as its outer guard. -/
theorem readRow_ne {s : State} {p : Phase} {g : Code → Bool} {r : Code → Result}
    (hread : s.ctl.st = p → (nextCode s).isSome = true) (hr : ∀ cw, r cw ≠ .refused .notEnabled) :
    whenEnabled (s.ctl.st = p) (readCode s fun cw => whenEnabled (g cw) (r cw))
      ≠ .refused .notEnabled ↔ s.ctl.st = p ∧ (nextCode s).any g = true := by
  rw [whenEnabled_ne, decide_eq_true_iff]
  refine and_congr_right fun hst => ?_
  obtain ⟨cw, hcw⟩ := Option.isSome_iff_exists.1 (hread hst)
  rw [readCode_ne hcw hr, hcw]
  rfl

theorem phase_code_inj {p q : Phase} (h : p.code = q.code) : p = q :=
  Option.some.inj (by rw [← phaseOfCode_code, h, phaseOfCode_code])

/-- The row stands in the state of ST it is encoded as, and in no other. -/
theorem encode_eq_fsm_iff {i : Instr} {p : Phase} (h : encode i = .fsm p.code) (q : Phase) :
    encode i = .fsm q.code ↔ q = p := by
  rw [h, Encoded.fsm.injEq]
  exact ⟨fun hc => (phase_code_inj hc).symm, fun hq => by rw [hq]⟩

/-- A row of the transition table fires exactly in its own state of ST, where its guard holds
(`00_scope.md` R14), the bits D_FIRST and D_READ read being there. -/
theorem fires_iff {s : State} {i : Instr} (hi : i ∈ fsmRows)
    (hread : s.ctl.st = .dFirst ∨ s.ctl.st = .dRead → (nextCode s).isSome = true) :
    fires i s ↔ encode i = .fsm s.ctl.st.code ∧ i.guardHolds (viewOf s) = true := by
  cases i <;> simp only [fsmRows, List.mem_cons, List.not_mem_nil, reduceCtorEq, or_self] at hi
  case encTag =>
    rw [encode_eq_fsm_iff (p := .eTag) rfl]
    simp [fires, exec, execEncTag, whenEnabled_ne, Instr.guardHolds]
  case encFirstEmpty =>
    rw [encode_eq_fsm_iff (p := .eFirst) rfl]
    simp [fires, exec, execEncFirstEmpty, whenEnabled_ne, Instr.guardHolds, viewOf]
  case encFirstByte =>
    rw [encode_eq_fsm_iff (p := .eFirst) rfl]
    cases hb : nextByte s <;>
      simp [fires, exec, execEncFirstByte, whenEnabled_ne, Instr.guardHolds, viewOf, inEmpty, hb]
  case encScanHit =>
    rw [encode_eq_fsm_iff (p := .eScan) rfl]
    cases hb : nextByte s <;> cases hk : nextLookup s <;>
      simp_all [fires, exec, execEncScanHit, whenEnabled_ne, Instr.guardHolds, viewOf, inEmpty,
        nextLookup]
  case encScanMiss =>
    rw [encode_eq_fsm_iff (p := .eScan) rfl]
    cases hb : nextByte s <;>
      simp [fires, exec, execEncScanMiss, whenEnabled_ne, Instr.guardHolds, viewOf, inEmpty, hb]
  case encScanEnd =>
    rw [encode_eq_fsm_iff (p := .eScan) rfl]
    simp [fires, exec, execEncScanEnd, whenEnabled_ne, Instr.guardHolds, viewOf]
  case encStep =>
    rw [encode_eq_fsm_iff (p := .eStep) rfl]
    simp [fires, exec, execEncStep, whenEnabled_ne, Instr.guardHolds, Flow.outcome_ne]
  case encLast =>
    rw [encode_eq_fsm_iff (p := .eLast) rfl]
    simp [fires, exec, execEncLast, whenEnabled_ne, Instr.guardHolds, Flow.outcome_ne]
  case encEof =>
    rw [encode_eq_fsm_iff (p := .eEof) rfl]
    simp [fires, exec, execEncEof, whenEnabled_ne, Instr.guardHolds]
  case decTag =>
    rw [encode_eq_fsm_iff (p := .dTag) rfl]
    cases ht : nextTag s <;>
      simp [fires, exec, execDecTag, whenEnabled_ne, Instr.guardHolds, ht]
  case decFirstEof =>
    rw [encode_eq_fsm_iff (p := .dFirst) rfl]
    exact readRow_ne (fun hst => hread (.inl hst)) fun _ => nofun
  case decFirstLiteral =>
    rw [encode_eq_fsm_iff (p := .dFirst) rfl]
    exact readRow_ne (fun hst => hread (.inl hst)) fun _ => Flow.outcome_ne _
  case decFirstReserved =>
    rw [encode_eq_fsm_iff (p := .dFirst) rfl]
    exact readRow_ne (fun hst => hread (.inl hst)) fun _ => nofun
  case decEmit =>
    rw [encode_eq_fsm_iff (p := .dEmit) rfl]
    simp [fires, exec, execDecEmit, whenEnabled_ne, Instr.guardHolds, emitPrev_ne]
  case decReadLearn =>
    rw [encode_eq_fsm_iff (p := .dRead) rfl]
    exact readRow_ne (fun hst => hread (.inr hst)) fun _ => Flow.outcome_ne _
  case decReadEof =>
    rw [encode_eq_fsm_iff (p := .dRead) rfl]
    exact readRow_ne (fun hst => hread (.inr hst)) fun _ => nofun
  case decReadReserved =>
    rw [encode_eq_fsm_iff (p := .dRead) rfl]
    exact readRow_ne (fun hst => hread (.inr hst)) fun _ => nofun
  case decReset =>
    rw [encode_eq_fsm_iff (p := .dReset) rfl]
    simp [fires, exec, execDecReset, whenEnabled_ne, Instr.guardHolds, emitPrev_ne]

/-- The row a running state decodes to is admitted by its own guard. -/
theorem decodeFsm_guardHolds {v : View} {p : Phase} {i : Instr}
    (hread : p = .dFirst ∨ p = .dRead → v.next.isSome = true)
    (h : decodeFsm v p.code = .instr i) : i.guardHolds v = true := by
  unfold decodeFsm at h
  rw [phaseOfCode_code] at h
  cases p
  case eFirst => cases h; cases hempty : v.inEmpty <;> simp [Instr.guardHolds, hempty]
  case eScan =>
    cases h
    cases hempty : v.inEmpty <;> cases hlookup : v.lookup <;>
      simp [Instr.guardHolds, hempty, hlookup]
  case dFirst =>
    obtain ⟨cw, hcw⟩ := Option.isSome_iff_exists.1 (hread (.inl rfl))
    cases h
    simp only [hcw]
    split_ifs <;> simp only [Instr.guardHolds, hcw, Option.any_some, decide_eq_true_eq] <;> omega
  case dRead =>
    obtain ⟨cw, hcw⟩ := Option.isSome_iff_exists.1 (hread (.inr rfl))
    cases h
    simp only [hcw]
    split_ifs <;> simp only [Instr.guardHolds, hcw, Option.any_some, decide_eq_true_eq,
      Bool.and_eq_true] <;> omega
  all_goals cases h <;> rfl

theorem phaseRows_subset_fsmRows (p : Phase) : phaseRows p ⊆ fsmRows := by
  cases p <;> decide

theorem wf_of_mem_fsmRows : ∀ {i : Instr}, i ∈ fsmRows → i.wf = true := by
  decide

/-- Settles O44: the row ST and the guards decode to fires, and a row that fires decodes back to
itself. -/
theorem exactlyOneTransitionFires : Obligations.ExactlyOneTransitionFires := by
  intro s hrunning hread
  obtain ⟨i, hrow⟩ := decodeFsm_running (viewOf s) hrunning
  have hmem : i ∈ fsmRows := phaseRows_subset_fsmRows _ (decodeFsm_mem_rows hrow)
  refine ⟨i, hmem, (fires_iff hmem hread).2 ⟨encode_decodeFsm hrow,
    decodeFsm_guardHolds hread hrow⟩, hrow, fun j hj hfires => ?_⟩
  obtain ⟨hcode, hguard⟩ := (fires_iff hj hread).1 hfires
  have hback : decode (viewOf s) (encode j) = .instr j :=
    decodeOfEncodeIsTheInstruction j (viewOf s) (wf_of_mem_fsmRows hj) hguard
  rw [hcode] at hback
  exact Decoded.instr.inj (hback.symm.trans hrow)

end Sys2Proof.Machine
end


section
/-! PROOFS. A placed instruction is what the next step runs (log 21): its guard holds where it is
placed, and the item decodes back to it. -/

namespace Sys2Proof.Machine

/-! ### What stands where it is placed -/

theorem nextBits_placeBits {v w : Nat} (h : v < 2 ^ w) (s : State) :
    nextBits (placeBits (bitsOf v w) s) w = some v :=
  writtenValueReadsBack [] [] v w _ h (by simp [placeBits]) rfl

theorem nextTag_placeTag (t : Byte) (s : State) : nextTag (placeTag t s) = some t := by
  rw [nextTag, placeTag, nextBits_placeBits t.isLt]
  simp

theorem nextCode_placeFirst {cw : Code} (h : cw.toNat < 512) (s : State) :
    nextCode (placeFirst cw s) = some cw := by
  have hbits : nextBits (placeFirst cw s) 9 = some cw.toNat :=
    nextBits_placeBits (w := 9) h (placePhase .dec .dFirst s)
  change (nextBits (placeFirst cw s) 9).map (BitVec.ofNat 16) = some cw
  rw [hbits]
  simp

theorem nextCode_placeRead (cw : Code) (n : Count) (s : State) :
    nextCode (placeRead cw n s) = some cw := by
  have hbits : nextBits (placeRead cw n s) 16 = some cw.toNat :=
    nextBits_placeBits (w := 16) cw.isLt (placePhase .dec .dRead s)
  change (nextBits (placeRead cw n s) 16).map (BitVec.ofNat 16) = some cw
  rw [hbits]
  simp

@[simp] theorem placeRead_wid (cw : Code) (n : Count) (s : State) :
    (placeRead cw n s).wid = { w := 16, l := 65536, n := n } := rfl

/-! ### The step of a placed instruction -/

/-- A busy core with nothing pending runs the row its ST is the code of, where the guard holds. -/
theorem step_row {t : State} {i : Instr} (hpending : t.host.pending = [])
    (busy : t.ctl.busy = true) (hcode : encode i = .fsm t.ctl.st.code) (hwf : i.wf = true)
    (hguard : i.guardHolds (viewOf t) = true) : step t = exec i t := by
  have hback := decodeOfEncodeIsTheInstruction i (viewOf t) hwf hguard
  rw [hcode] at hback
  exact (stepRunsTheDecodedInstruction t i).1 hpending busy hback

theorem step_placeTag {t : Byte} {i : Instr} (s : State) (hitem : encode i = .tag8 t)
    (hwf : i.wf = true) (hguard : i.guardHolds (viewOf (placeTag t s)) = true) :
    step (placeTag t s) = exec i (placeTag t s) := by
  obtain ⟨j, hj, hstep⟩ :=
    (stepRunsTheItemItReads (placeTag t s)).1 t rfl rfl rfl (nextTag_placeTag t s)
  have hback := decodeOfEncodeIsTheInstruction i _ hwf hguard
  rw [hitem, hj, Decoded.instr.injEq] at hback
  rw [hstep, hback]

theorem step_placeFirst {cw : Code} {i : Instr} (s : State) (hlt : cw.toNat < 512)
    (hitem : encode i = .cwFirst cw) (hwf : i.wf = true)
    (hguard : i.guardHolds (viewOf (placeFirst cw s)) = true) :
    step (placeFirst cw s) = exec i (placeFirst cw s) := by
  obtain ⟨j, hj, hstep⟩ :=
    (stepRunsTheItemItReads (placeFirst cw s)).2.1 cw rfl rfl rfl (nextCode_placeFirst hlt s)
  have hback := decodeOfEncodeIsTheInstruction i _ hwf hguard
  rw [hitem, hj, Decoded.instr.injEq] at hback
  rw [hstep, hback]

theorem step_placeRead {cw : Code} {n : Count} {i : Instr} (s : State)
    (hitem : encode i = .cwRead cw) (hwf : i.wf = true)
    (hguard : i.guardHolds (viewOf (placeRead cw n s)) = true) :
    step (placeRead cw n s) = exec i (placeRead cw n s) := by
  obtain ⟨j, hj, hstep⟩ :=
    (stepRunsTheItemItReads (placeRead cw n s)).2.2.1 cw rfl rfl rfl (nextCode_placeRead cw n s)
  have hback := decodeOfEncodeIsTheInstruction i _ hwf hguard
  rw [hitem, hj, Decoded.instr.injEq] at hback
  rw [hstep, hback]

theorem step_placeCommand {c : BitVec 16} {i : Instr} (s : State) (hitem : encode i = .cmd16 c)
    (hwf : i.wf = true) (hguard : i.guardHolds (viewOf (placeCommand c s)) = true) :
    step (placeCommand c s) = exec i { placeCommand c s with
      host := { (placeCommand c s).host with pending := [] } } := by
  have hback := decodeOfEncodeIsTheInstruction i _ hwf hguard
  rw [hitem] at hback
  exact (stepRunsTheItemItReads (placeCommand c s)).2.2.2 1 [] i rfl rfl rfl hback

theorem step_placeAccess {a : CsrAccess} {i : Instr} (s : State) (hitem : encode i = .csr a)
    (hwf : i.wf = true) (hguard : i.guardHolds (viewOf (placeAccess a s)) = true) :
    step (placeAccess a s) = exec i { placeAccess a s with
      host := { (placeAccess a s).host with pending := [] } } := by
  have hback := decodeOfEncodeIsTheInstruction i _ hwf hguard
  rw [hitem] at hback
  exact (stepRunsTheDecodedInstruction (placeAccess a s) i).2.2 a [] rfl hback

/-- The N a HIT is placed at is above it. -/
theorem hit_lt_placed (cw : Code) :
    cw.toNat < (if cw.toNat < 257 then (257 : Count) else cw.setWidth 17 + 1).toNat := by
  have := cw.isLt
  split
  · assumption
  · rw [BitVec.toNat_add, BitVec.toNat_setWidth]
    change cw.toNat < (cw.toNat % 2 ^ 17 + 1) % 2 ^ 17
    omega

/-- Settles O50, by where each format is placed. -/
theorem placedInstructionRunsNext : Obligations.PlacedInstructionRunsNext := by
  intro i s hwf
  cases i
  case tagFrozen | tagSaturate | tagMonitored | tagReserved => exact step_placeTag s rfl hwf rfl
  case firstLiteral b =>
    refine step_placeFirst s ?_ rfl hwf rfl
    have := b.isLt
    rw [BitVec.toNat_setWidth]
    omega
  case firstEof => exact step_placeFirst s (by decide) rfl hwf rfl
  case firstReserved cw =>
    simp only [Instr.wf, Bool.and_eq_true, decide_eq_true_eq] at hwf
    exact step_placeFirst s hwf.2 rfl (by simpa [Instr.wf] using hwf) rfl
  case eof => exact step_placeRead s rfl hwf rfl
  case hit cw => exact step_placeRead s rfl hwf (decide_eq_true (hit_lt_placed cw))
  case kwkwk cw =>
    refine step_placeRead s rfl hwf (decide_eq_true ?_)
    have := cw.isLt
    change cw.toNat = (cw.setWidth 17).toNat
    rw [BitVec.toNat_setWidth]
    omega
  case codeReserved cw => exact step_placeRead s rfl hwf hwf
  case compressFrozen | compressSaturate | compressMonitored | expand =>
    exact step_placeCommand s rfl hwf rfl
  case start | cmdWrite | csrRead => exact step_placeAccess _ rfl hwf rfl
  case encScanHit =>
    refine step_row rfl rfl rfl hwf ?_
    simp [Instr.guardHolds, viewOf, placeInstr, placeInput, placePhase, inEmpty, nextLookup,
      nextByte, dictLookup_dictInsert]
  case encScanMiss =>
    refine step_row rfl rfl rfl hwf ?_
    simp [Instr.guardHolds, viewOf, placeInstr, placeInput, placePhase, inEmpty, nextLookup,
      nextByte]
  case decFirstEof | decFirstLiteral | decFirstReserved =>
    refine step_row rfl rfl rfl hwf ?_
    simp [Instr.guardHolds, viewOf, placeInstr, nextCode_placeFirst]
  case decReadLearn | decReadEof | decReadReserved =>
    refine step_row rfl rfl rfl hwf ?_
    simp [Instr.guardHolds, viewOf, placeInstr, nextCode_placeRead]
  all_goals exact step_row rfl rfl rfl hwf rfl

end Sys2Proof.Machine
end


section
/-! PROOFS. Reset and the CSR window (`70_reset_and_hazards.md` R400, `45_host_commands.md` R330,
`10_state.md` R51 to R67). -/

namespace Sys2Proof.Machine

/-! ### Reset -/

/-- Settles O1: the step takes the action and resets the core. -/
theorem hardwareResetSetsEveryRegister : Obligations.HardwareResetSetsEveryRegister := by
  intro s rest hpending
  refine ⟨_, step_of_action hpending, ?_⟩
  simp only [hardwareReset, and_self]

/-- Settles O2: State.reset written out; its table lists no entry. -/
theorem powerOnStateHoldsTheNamedValues : Obligations.PowerOnStateHoldsTheNamedValues := by
  refine ⟨rfl, rfl, rfl, rfl, rfl, rfl, rfl, rfl, rfl, rfl, rfl, rfl, rfl, fun j hj => ?_,
    fun _ _ => rfl, rfl, rfl, rfl⟩
  have hlearned : ¬ j.toNat < 256 := by omega
  simp only [tabRead, hlearned, if_false]
  rfl

/-! ### Reads of the CSR window -/

theorem exec_csrRead {s : State} {off : Byte} (h : off.toNat % 4 = 0) :
    exec (.csrRead off) s = .next { s with host := { s.host with rdata := csrValue s off } } := by
  simp [exec, execCsrRead, h]

/-- CTRL and every offset past BASEFLAG read 0. -/
theorem csrValue_unmapped (s : State) {off : Byte} (h : off.toNat = 0 ∨ 0x48 ≤ off.toNat) :
    csrValue s off = 0 := by
  have hne {o : Byte} (ho : 0 < o.toNat) (ho' : o.toNat < 0x48) : off ≠ o := by
    rintro rfl
    omega
  unfold csrValue
  simp only [hne (o := 0x04) (by decide) (by decide), hne (o := 0x08) (by decide) (by decide),
    hne (o := 0x0C) (by decide) (by decide), hne (o := 0x10) (by decide) (by decide),
    hne (o := 0x14) (by decide) (by decide), hne (o := 0x18) (by decide) (by decide),
    hne (o := 0x1C) (by decide) (by decide), hne (o := 0x20) (by decide) (by decide),
    hne (o := 0x24) (by decide) (by decide), hne (o := 0x28) (by decide) (by decide),
    hne (o := 0x2C) (by decide) (by decide), hne (o := 0x30) (by decide) (by decide),
    hne (o := 0x34) (by decide) (by decide), hne (o := 0x38) (by decide) (by decide),
    hne (o := 0x3C) (by decide) (by decide), hne (o := 0x40) (by decide) (by decide),
    hne (o := 0x44) (by decide) (by decide), if_false]

/-- A register narrower than the word reads with zeros above it. -/
theorem zero_append_eq_setWidth {n k : Nat} (v : BitVec n) :
    (0 : BitVec k) ++ v = v.setWidth (k + n) := by
  apply BitVec.eq_of_toNat_eq
  have := v.isLt
  have : 2 ^ n ≤ 2 ^ (k + n) := Nat.pow_le_pow_right (by omega) (by omega)
  rw [BitVec.toNat_append, BitVec.toNat_setWidth, Nat.mod_eq_of_lt (by omega)]
  simp

/-- Settles O3: the read returns `csrValue`, register by register. -/
theorem csrReadHasNoSideEffect : Obligations.CsrReadHasNoSideEffect := by
  intro s off haligned
  refine ⟨csrValue s off, exec_csrRead haligned, csrValue_unmapped s, ?_⟩
  refine ⟨?_, ?_, ?_, ?_, ?_, ?_, ?_, ?_, ?_, ?_, ?_, ?_, ?_, ?_, ?_, ?_, ?_⟩ <;> rintro rfl
  case refine_1 => exact zero_append_eq_setWidth (k := 16) s.ctl.cmd
  case refine_4 => exact zero_append_eq_setWidth (k := 15) s.wid.n
  case refine_8 => exact zero_append_eq_setWidth (k := 15) s.err.n
  case refine_17 => exact zero_append_eq_setWidth (k := 31) (BitVec.ofBool s.arb.baseValid)
  all_goals rfl

theorem extractLsb'_append_low {n m : Nat} (a : BitVec n) (b : BitVec m) :
    (a ++ b).extractLsb' 0 m = b := by
  ext k hk
  simp [BitVec.getLsbD_append, hk]

theorem extractLsb'_append_high {n m : Nat} (a : BitVec n) (b : BitVec m) (start : Nat)
    (len : Nat) : (a ++ b).extractLsb' (m + start) len = a.extractLsb' start len := by
  ext k hk
  simp [BitVec.getLsbD_append, show ¬ m + start + k < m by omega,
    show m + start + k - m = start + k by omega]

/-- Settles O4: the fields of the three packed words. -/
theorem statusWidthAndErrorFieldsStandAtTheirBits :
    Obligations.StatusWidthAndErrorFieldsStandAtTheirBits := by
  refine ⟨fun s => ⟨csrStatus s, exec_csrRead rfl, ?_⟩, fun s => ⟨csrWidth s, exec_csrRead rfl, ?_⟩,
    fun s => ⟨csrErrInfo s, exec_csrRead rfl, ?_⟩, by decide, by decide, by decide⟩
  · unfold csrStatus
    cases s.ctl.side <;> cases s.ctl.pol <;> cases s.ctl.st <;> cases s.ctl.error <;>
      cases s.ctl.done <;> cases s.ctl.busy <;> decide
  · exact ⟨extractLsb'_append_low _ s.wid.w,
      (extractLsb'_append_high _ s.wid.w 0 3).trans (extractLsb'_append_low _ 0),
      (extractLsb'_append_high _ s.wid.w 3 17).trans
        ((extractLsb'_append_high _ (0 : BitVec 3) 0 17).trans (extractLsb'_append_low _ s.wid.l)),
      (extractLsb'_append_high _ s.wid.w 20 7).trans
        ((extractLsb'_append_high _ (0 : BitVec 3) 17 7).trans
          ((extractLsb'_append_high (0 : BitVec 7) s.wid.l 0 7).trans (by decide)))⟩
  · exact ⟨extractLsb'_append_low _ s.err.cause,
      (extractLsb'_append_high _ s.err.cause 0 4).trans (extractLsb'_append_low _ s.err.detail),
      (extractLsb'_append_high _ s.err.cause 4 16).trans
        ((extractLsb'_append_high _ s.err.detail 0 16).trans (extractLsb'_append_low _ s.err.cw)),
      (extractLsb'_append_high _ s.err.cause 20 8).trans
        ((extractLsb'_append_high _ s.err.detail 16 8).trans
          ((extractLsb'_append_high (0 : BitVec 8) s.err.cw 0 8).trans (by decide)))⟩

/-- Settles O6: the decoder names the access misaligned. -/
theorem misalignedOffsetsAreRefused : Obligations.MisalignedOffsetsAreRefused := by
  intro s off hmis
  refine ⟨by simp [exec, execCsrRead, hmis], fun a rest ha hpending => ?_⟩
  have hdecode : decodeCsr a = .reject .misaligned := by
    rcases ha with rfl | ⟨v, rfl⟩ <;> simp [decodeCsr, hmis]
  rw [step_of_action hpending]
  simp only [hostTurn, csrTurn, decode, hdecode]

/-! ### START and the commands -/

/-- Settles O8: START, and each command CMD holds, answer the state they find busy. -/
theorem startIsIgnoredWhileBusy : Obligations.StartIsIgnoredWhileBusy := by
  intro s busy
  refine ⟨fun v _ => ?_, fun hcmd => ?_, fun hcmd => ?_, fun hcmd => ?_, fun p hcmd => ?_⟩
  · simp [exec, execStart, busy]
  · simp [exec, execCompressFrozen, hcmd, busy]
  · simp [exec, execCompressSaturate, hcmd, busy]
  · simp [exec, execCompressMonitored, hcmd, busy]
  · simp [exec, execExpand, hcmd, busy, opExpand]

/-- A command and START answer the same state with BUSY clear. -/
theorem exec_command_start {s : State} {i : Instr} (hidle : s.ctl.busy = false)
    (h : decodeCommand s.ctl.cmd = .instr i) :
    exec i s = .next (startPass s) ∧ exec (.start 1) s = .next (startPass s) :=
  ⟨exec_command hidle h, exec_start_idle rfl hidle⟩

/-- Settles O10: the four commands start their pass, the two faults of START otherwise. -/
theorem commandWordsStartTheirPass : Obligations.CommandWordsStartTheirPass := by
  intro s hidle
  have hcompress {p : Policy} {i : Instr} (hcmd : s.ctl.cmd = p.tag ++ opCompress)
      (hi : decodeCommand (p.tag ++ opCompress) = .instr i) :
      ∃ t, exec i s = .next t ∧ exec (.start 1) s = .next t
        ∧ t.ctl.st = .eTag ∧ t.ctl.side = .enc ∧ t.ctl.pol = p ∧ t.ctl.busy = true := by
    obtain ⟨hown, hstart⟩ := exec_command_start hidle (hcmd ▸ hi)
    refine ⟨_, hown, hstart, ?_⟩
    rw [startPass_compress (p := p) (by rw [hcmd, cmdOp_append]) (by rw [hcmd, cmdPolicy_append])]
    exact ⟨rfl, rfl, rfl, rfl⟩
  refine ⟨fun hcmd => hcompress (p := .frozen) hcmd rfl,
    fun hcmd => hcompress (p := .saturate) hcmd rfl,
    fun hcmd => hcompress (p := .monitored) hcmd rfl, fun p hcmd => ?_, fun hop hop' => ?_,
    fun hop h6E h72 h6D => ?_⟩
  · have hexpand : cmdOp s.ctl.cmd = opExpand := by rw [hcmd]; exact cmdOp_append p opExpand
    obtain ⟨hown, hstart⟩ := exec_command_start (i := .expand p) hidle (by
      rw [hcmd]
      exact decodeOfEncodeIsTheInstruction (.expand p) (viewOf s) rfl rfl)
    refine ⟨_, hown, hstart, ?_⟩
    rw [startPass_expand hexpand]
    exact ⟨rfl, rfl, rfl, rfl⟩
  · refine ⟨_, exec_start_idle rfl hidle, ?_⟩
    rw [startPass_badOp hop hop']
    exact ⟨rfl, rfl, rfl, rfl⟩
  · refine ⟨_, exec_start_idle rfl hidle, ?_⟩
    rw [startPass_badPolicy hop (by
      intro p; cases p <;> assumption)]
    exact ⟨rfl, rfl, rfl, rfl⟩

/-! ### What is refused -/

theorem not_tagAt {t : Byte} {s : State} (h : s.ctl.st ≠ .dTag ∨ nextTag s ≠ some t) :
    tagAt t s = false := by
  rcases h with h | h <;> simp [tagAt, h]

theorem not_codeAt {p : Phase} {cw : Code} {s : State}
    (h : s.ctl.st ≠ p ∨ nextCode s ≠ some cw) : codeAt p cw s = false := by
  rcases h with h | h <;> simp [codeAt, h]

theorem whenEnabled_of_not {g : Bool} {r : Result} (h : g = false) :
    whenEnabled g r = .refused .notEnabled := by
  rw [h, whenEnabled_false]

/-- Settles O28: an item that does not stand next, a command CMD does not hold, and a string that
does not exist. -/
theorem disabledInstructionsAreRefused : Obligations.DisabledInstructionsAreRefused := by
  intro s
  refine ⟨fun t h => ?_, fun cw h => ?_, fun cw h => ?_,
    fun h => whenEnabled_of_not (decide_eq_false h),
    fun h => whenEnabled_of_not (decide_eq_false h),
    fun h => whenEnabled_of_not (decide_eq_false h),
    fun p h => whenEnabled_of_not (decide_eq_false h),
    fun h => ⟨fun hst => ?_, fun hst => ?_⟩⟩
  · have hnot := not_tagAt h
    refine ⟨whenEnabled_of_not (by rw [hnot]; rfl), ?_, ?_, ?_⟩ <;>
      exact fun ht => whenEnabled_of_not (ht ▸ hnot)
  · have hnot := not_codeAt h
    exact ⟨whenEnabled_of_not (by rw [hnot]; rfl), fun hcw => whenEnabled_of_not (hcw ▸ hnot),
      fun b hcw => whenEnabled_of_not (hcw ▸ hnot)⟩
  · have hnot := not_codeAt h
    exact ⟨whenEnabled_of_not (by rw [hnot]; rfl), whenEnabled_of_not (by rw [hnot]; rfl),
      whenEnabled_of_not (by rw [hnot]; rfl), fun hcw => whenEnabled_of_not (hcw ▸ hnot)⟩
  · simp [exec, execDecEmit, hst, emitPrev, h]
  · simp [exec, execDecReset, hst, emitPrev, h]

/-! ### The code table, and the ratio test -/

/-- Settles O37: the rules of a table write. -/
theorem tableReadsBackWhatWasWritten : Obligations.TableReadsBackWhatWasWritten := by
  intro m j e hm
  refine ⟨tabWrite_wf hm j e, tabWrite_dict m j e, fun hj => ?_, fun j' h => ?_, fun b => ?_⟩
  · rw [tabRead_tabWrite hm, if_pos ⟨rfl, hj⟩]
  · rw [tabRead_tabWrite hm, if_neg]
    rintro ⟨rfl, hj⟩
    rcases h with h | h
    · exact h rfl
    · omega
  · rw [tabRead_hardwired m (toNat_code_of_byte b ▸ b.isLt), code_of_byte]

/-- Settles O34: the exact test is the comparison of the ratios cleared of denominators. -/
theorem degradedComparesTheRatios : Obligations.DegradedComparesTheRatios := by
  refine ⟨fun bn bd an ad hbd han had => ?_, fun _ _ _ _ => rfl, by decide⟩
  have hbd' : (0 : ℚ) < bd := by exact_mod_cast hbd
  have han' : (0 : ℚ) < an := by exact_mod_cast han
  have had' : (0 : ℚ) < ad := by exact_mod_cast had
  rw [degraded, decide_eq_true_iff, div_div_div_eq, div_lt_div_iff₀ (by norm_num) (by positivity)]
  rw [← Nat.cast_lt (α := ℚ)]
  push_cast
  constructor <;> intro h <;> linarith

end Sys2Proof.Machine
end


section
/-! PROOFS. Every next state exec can answer (`ExecTo`), whatever the state it starts from: what a
fault leaves (`60_exceptions.md` R370) and who writes each register (`10_state.md` R48). -/

namespace Sys2Proof.Machine

/-! ### The steps of a data transition -/

/-- The steps go on in a state with `Q`, or a raise ends them in a state with `P`. -/
inductive FlowTo (P Q : State → Prop) : Flow → Prop where
  | cont {t : State} (h : Q t) : FlowTo P Q (.cont t)
  | raised {u : State} (k : FaultKind) (v : Code) (h : P u) :
      FlowTo P Q (.raised (raiseFault k v u))

theorem FlowTo.andThen {P P' Q : State → Prop} {f : Flow} {k : State → Flow}
    (hf : FlowTo P P' f) (hk : ∀ t, P' t → FlowTo P Q (k t)) : FlowTo P Q (f.andThen k) := by
  cases hf with
  | cont h => exact hk _ h
  | raised kind v h => exact .raised kind v h

theorem FlowTo.checkValue {P : State → Prop} {s : State} (h : P s) : FlowTo P P (checkValue s) := by
  rcases checkValue_cases s with ⟨-, he⟩ | ⟨-, he⟩ <;> rw [he]
  · exact .cont h
  · exact .raised _ _ h

theorem FlowTo.checkCounter {P : State → Prop} {s : State} (h : P s) :
    FlowTo P P (checkCounter s) := by
  rcases checkCounter_cases s with ⟨-, he⟩ | ⟨-, he⟩ <;> rw [he]
  · exact .cont h
  · exact .raised _ _ h

theorem FlowTo.accumulate {P : State → Prop} {s : State} (len w : Nat) (h : P s)
    (ha : ∀ n d, P { s with arb := { s.arb with accNum := n, accDen := d } }) :
    FlowTo P P (accumulate len w s) := by
  rcases accumulate_cases len w s with
      ⟨-, he⟩ | ⟨-, -, -, n, d, -, -, he⟩ | ⟨-, ⟨-, he⟩ | ⟨-, -, he⟩⟩ <;> rw [he]
  · exact .cont h
  · exact .cont (ha n d)
  · exact .raised _ _ h
  · exact .raised _ _ h

/-- What a data transition answers: its last step's state, or the state after a raise. -/
theorem FlowTo.outcome {P Q : State → Prop} {f : Flow} {t : State} (hf : FlowTo P Q f)
    (h : f.outcome = .next t) : Q t ∨ ∃ k v u, P u ∧ t = raiseFault k v u := by
  cases hf with
  | cont hq => cases h; exact .inl hq
  | raised k v hp => cases h; exact .inr ⟨k, v, _, hp, rfl⟩

/-- The steps of E_STEP and E_LAST write the output, the width controller, the arbiter, the
counters and the dictionary. -/
def EmitTo (s t : State) : Prop :=
  ∃ wid arb dict cnt bits, t = { s with
    wid := wid, arb := arb, mem := { s.mem with dict := dict }, cnt := cnt
    port := { s.port with ob := s.port.ob ++ bits } }

theorem EmitTo.consult {s t : State} (h : EmitTo s t) : EmitTo s (consultEnc t) := by
  obtain ⟨wid, arb, dict, cnt, bits, rfl⟩ := h
  unfold consultEnc
  split
  · split
    · rw [afterArbitrate_eq]
      exact ⟨_, _, _, _, _, rfl⟩
    · rw [afterArbitrate_eq]
      unfold reinit
      cases s.ctl.side <;> exact ⟨_, _, _, _, _, rfl⟩
  · exact ⟨_, _, _, _, _, rfl⟩

theorem FlowTo.emitMatch {learn : State → State} {s : State}
    (hlearn : ∀ u, EmitTo s u → EmitTo s (learn u)) :
    FlowTo (EmitTo s) (EmitTo s) (emitMatch learn s) := by
  have hstart : EmitTo s s := ⟨s.wid, s.arb, s.mem.dict, s.cnt, [], by simp⟩
  refine (FlowTo.checkValue hstart).andThen fun u hu => ?_
  have hwritten : EmitTo s (writeCode u.enc.cur.toNat u) := by
    obtain ⟨wid, arb, dict, cnt, bits, rfl⟩ := hu
    exact ⟨wid, arb, dict, _, bits ++ _, by rw [← List.append_assoc]; rfl⟩
  refine (FlowTo.checkCounter (hlearn _ hwritten)).andThen fun v hv => ?_
  refine (FlowTo.accumulate _ _ hv fun n d => ?_).andThen fun w hw => .cont hw.consult
  obtain ⟨wid, arb, dict, cnt, bits, rfl⟩ := hv
  exact ⟨_, _, _, _, _, rfl⟩

theorem EmitTo.learnKey {s t : State} (h : EmitTo s t) : EmitTo s (learnKey t) := by
  obtain ⟨m, he, htab, -⟩ := learnKey_spec t
  obtain ⟨wid, arb, dict, cnt, bits, rfl⟩ := h
  rw [he]
  obtain ⟨tab, dict'⟩ := m
  obtain rfl : tab = s.mem.tab := htab
  exact ⟨_, _, _, _, _, rfl⟩

theorem EmitTo.advanceCounter {s t : State} (h : EmitTo s t) : EmitTo s (advanceCounter t) := by
  rw [advanceCounter_eq]
  obtain ⟨wid, arb, dict, cnt, bits, rfl⟩ := h
  exact ⟨_, _, _, _, _, rfl⟩

/-- The steps of a literal in D_FIRST write CW, PREV, CW_COUNT, the bit position and the two
accumulators. -/
def LiteralTo (s t : State) : Prop :=
  ∃ num den dec count bp, t = { s with
    arb := { s.arb with accNum := num, accDen := den }, dec := dec
    cnt := { s.cnt with cwCount := count }, port := { s.port with bp := bp } }

theorem FlowTo.startGeneration (cw : Code) (s : State) :
    FlowTo (LiteralTo s) (fun t => ∃ u, LiteralTo s u ∧ t = goto .dEmit u) (startGeneration cw s) :=
  (FlowTo.accumulate _ _ ⟨_, _, _, _, _, rfl⟩ fun _ _ => ⟨_, _, _, _, _, rfl⟩).andThen
    fun _ hu => .cont ⟨_, hu, rfl⟩

/-- The steps of a HIT or KWKWK in D_READ write CW, PREV, CW_COUNT, the bit position, the code
table, the width controller and the arbiter. -/
def LearnTo (s t : State) : Prop :=
  ∃ wid arb dec tab count bp, t = { s with
    wid := wid, arb := arb, dec := dec, mem := { s.mem with tab := tab }
    cnt := { s.cnt with cwCount := count }, port := { s.port with bp := bp } }

theorem LearnTo.insertEntry {s t : State} (e : TabEntry) (h : LearnTo s t) :
    LearnTo s (insertEntry e t) := by
  obtain ⟨wid, arb, dec, tab, count, bp, rfl⟩ := h
  unfold Machine.insertEntry tabWrite
  split
  · exact ⟨_, _, _, _, _, _, rfl⟩
  · split <;> exact ⟨_, _, _, _, _, _, rfl⟩

theorem LearnTo.learnEntry {s t : State} (e : TabEntry) (h : LearnTo s t) :
    LearnTo s (learnEntry e t) := by
  have hgrow {u : State} (hu : LearnTo s u) : LearnTo s (grow u) := by
    obtain ⟨wid, arb, dec, tab, count, bp, rfl⟩ := hu
    exact ⟨_, _, _, _, _, _, rfl⟩
  have hmaybe : LearnTo s (if canInsert t then Machine.insertEntry e t else t) := by
    split
    · exact h.insertEntry e
    · exact h
  have hpromote {u : State} (hu : LearnTo s u) :
      LearnTo s (if shouldGrow u then grow (Machine.insertEntry e u) else u) := by
    split
    · exact hgrow (hu.insertEntry e)
    · exact hu
  exact hpromote hmaybe

theorem LearnTo.consult {s t : State} (h : LearnTo s t) :
    ∃ u st, LearnTo s u ∧ st ≠ .error ∧ consultDec t = goto st u := by
  have hafter : LearnTo s (afterArbitrate t) := by
    rw [afterArbitrate_eq]
    obtain ⟨wid, arb, dec, tab, count, bp, rfl⟩ := h
    exact ⟨_, _, _, _, _, _, rfl⟩
  unfold consultDec
  split
  · split
    · exact ⟨_, .dEmit, hafter, nofun, rfl⟩
    · exact ⟨_, .dReset, hafter, nofun, rfl⟩
  · exact ⟨_, .dEmit, h, nofun, rfl⟩

theorem FlowTo.learnCode (cw : Code) (s : State) :
    FlowTo (LearnTo s) (fun t => ∃ u st, LearnTo s u ∧ st ≠ .error ∧ t = goto st u)
      (learnCode cw s) := by
  have htaken : LearnTo s (takeCode cw s) := ⟨_, _, _, _, _, _, rfl⟩
  refine (FlowTo.checkCounter (htaken.learnEntry _)).andThen fun u hu => ?_
  have hprev (a : Arbiter) : LearnTo s { u with dec := { u.dec with prev := cw }, arb := a } := by
    obtain ⟨wid, arb, dec, tab, count, bp, rfl⟩ := hu
    exact ⟨_, _, _, _, _, _, rfl⟩
  exact (FlowTo.accumulate _ _ (hprev u.arb) fun n d => hprev _).andThen
    fun w hw => .cont hw.consult

/-! ### Every answer of exec -/

/-- The states in which an instruction raises a fault: what its steps before the raise have made
(`60_exceptions.md` R371). -/
inductive Before (i : Instr) (s : State) : State → Prop where
  | untouched (hi : isTag i = true ∨ isCodeRead i = true) : Before i s s
  | tag (hi : isTag i = true) : Before i s (skipBits 8 s)
  | code (hi : isCodeRead i = true) (cw : Code) : Before i s (takeCode cw s)
  | literal {u : State} (hi : isLiteral i = true) (h : LiteralTo s u) : Before i s u
  | learn {u : State} (hi : isLearn i = true) (h : LearnTo s u) : Before i s u
  | emit {u : State} (hi : isEmit i = true) (h : EmitTo s u) : Before i s u
  | start (hi : isStart i = true) (d : Side) :
      Before i s { clearForStart s with ctl := { (clearForStart s).ctl with side := d } }

/-- The next states exec answers. -/
inductive ExecTo (s : State) : Instr → State → Prop where
  | raised {i : Instr} {u : State} (k : FaultKind) (v : Code) (h : Before i s u) :
      ExecTo s i (raiseFault k v u)
  | tag {i : Instr} (hi : isTag i = true) (p : Policy) :
      ExecTo s i (goto .dFirst { skipBits 8 s with ctl := { s.ctl with pol := p } })
  | ended {i : Instr} (hi : isCodeRead i = true) (cw : Code) : ExecTo s i (endStream cw s)
  | literal {i : Instr} {u : State} (hi : isLiteral i = true) (h : LiteralTo s u) :
      ExecTo s i (goto .dEmit u)
  | learn {i : Instr} {u : State} {p : Phase} (hi : isLearn i = true) (h : LearnTo s u)
      (hp : p ≠ .error) : ExecTo s i (goto p u)
  | emit (bs : List Byte) : ExecTo s .decEmit (goto .dRead (bytesWrite bs s))
  | reset (bs : List Byte) : ExecTo s .decReset (goto .dFirst (reinit (bytesWrite bs s)))
  | startCompress {i : Instr} (hi : isStart i = true) (p : Policy) : ExecTo s i (startCompress p s)
  | startExpand {i : Instr} (hi : isStart i = true) : ExecTo s i (startExpand s)
  | ignored {i : Instr} : ExecTo s i s
  | cmdWrite (v : CsrWord) (c : BitVec 16) :
      ExecTo s (.cmdWrite v) { s with ctl := { s.ctl with cmd := c } }
  | csrRead (off : Byte) (v : CsrWord) :
      ExecTo s (.csrRead off) { s with host := { s.host with rdata := v } }
  | encTag (v w : Nat) : ExecTo s .encTag (goto .eFirst (bitWrite v w s))
  | moved {i : Instr} {p : Phase} (hp : p ≠ .error) (hi : i ∈ scanRows) : ExecTo s i (goto p s)
  | byte {i : Instr} {p : Phase} (hp : p ≠ .error)
      (hi : i ∈ [.encFirstByte, .encScanHit, .encScanMiss]) (e : EncData) :
      ExecTo s i (goto p { skipByte s with enc := e })
  | encStep {u : State} (h : EmitTo s u) : ExecTo s .encStep (goto .eScan (restartMatch u))
  | encLast {u : State} (h : EmitTo s u) : ExecTo s .encLast (goto .eEof u)
  | encEof (v : Nat) : ExecTo s .encEof (finishPass (closeOut (writeCode v s)))

theorem ExecTo.takeTag {s : State} {i : Instr} (hi : isTag i = true) (t : Byte) :
    ExecTo s i (takeTag t s) := by
  unfold Machine.takeTag
  split
  · exact .tag hi _
  · exact .raised _ _ (.tag hi)

theorem ExecTo.startGeneration {s t : State} {i : Instr} {cw : Code} (hi : isLiteral i = true)
    (h : (startGeneration cw s).outcome = .next t) : ExecTo s i t := by
  rcases (FlowTo.startGeneration cw s).outcome h with ⟨u, hu, rfl⟩ | ⟨k, v, u, hu, rfl⟩
  · exact .literal hi hu
  · exact .raised k v (.literal hi hu)

theorem ExecTo.learnCode {s t : State} {i : Instr} {cw : Code} (hi : isLearn i = true)
    (h : (learnCode cw s).outcome = .next t) : ExecTo s i t := by
  rcases (FlowTo.learnCode cw s).outcome h with ⟨u, p, hu, hp, rfl⟩ | ⟨k, v, u, hu, rfl⟩
  · exact .learn hi hu hp
  · exact .raised k v (.learn hi hu)

theorem ExecTo.startPass {s : State} {i : Instr} (hi : isStart i = true) :
    ExecTo s i (startPass s) := by
  unfold Machine.startPass
  split
  · split
    · exact .startCompress hi _
    · exact .raised _ _ (.start hi .enc)
  · split
    · exact .startExpand hi
    · exact .raised _ _ (.start hi s.ctl.side)

/-- A guarded meaning answers what its body answers. -/
theorem ExecTo.guarded {s t : State} {i : Instr} {g : Bool} {r : Result}
    (h : whenEnabled g r = .next t) (hr : r = .next t → ExecTo s i t) : ExecTo s i t :=
  hr (whenEnabled_eq_next.1 h).2

/-- A transition that reads a codeword answers TRUNCATED, or what its meaning answers. -/
theorem ExecTo.read {s t : State} {i : Instr} {g : Bool} {g' : Code → Bool} {r : Code → Result}
    (hi : isCodeRead i = true)
    (h : whenEnabled g (readCode s fun cw => whenEnabled (g' cw) (r cw)) = .next t)
    (hr : ∀ cw, r cw = .next t → ExecTo s i t) : ExecTo s i t := by
  rcases readCode_eq_next (whenEnabled_eq_next.1 h).2 with rfl | ⟨cw, hcw⟩
  · exact .raised _ _ (.untouched (.inr hi))
  · exact hr cw hcw

/-- A command does what START does, or is ignored. -/
theorem ExecTo.command {s t u : State} {i : Instr} {g : Bool}
    (h : whenEnabled g (.next (if s.ctl.busy then s else u)) = .next t) (hu : ExecTo s i u) :
    ExecTo s i t := by
  obtain ⟨-, h⟩ := whenEnabled_eq_next.1 h
  split at h <;> cases h
  · exact .ignored
  · exact hu

/-- Every next state of exec is one of `ExecTo`. -/
theorem exec_cases {s t : State} {i : Instr} (h : exec i s = .next t) : ExecTo s i t := by
  cases i
  case tagFrozen | tagSaturate | tagMonitored | tagReserved =>
    exact .guarded h fun h => by cases h; exact .takeTag rfl _
  case firstLiteral => exact .guarded h (.startGeneration rfl)
  case firstEof | eof => exact .guarded h fun h => by cases h; exact .ended rfl _
  case firstReserved | codeReserved =>
    exact .guarded h fun h => by cases h; exact .raised _ _ (.code rfl _)
  case hit | kwkwk => exact .guarded h (.learnCode rfl)
  case compressFrozen | compressSaturate | compressMonitored =>
    exact .command h (.startCompress rfl _)
  case expand => exact .command h (.startExpand rfl)
  case start v =>
    simp only [exec, execStart] at h
    split at h <;> cases h
    · exact .startPass rfl
    · exact .ignored
  case cmdWrite v =>
    simp only [exec, execCmdWrite] at h
    split at h <;> cases h
    · exact .ignored
    · exact .cmdWrite v _
  case csrRead off =>
    simp only [exec, execCsrRead] at h
    split at h <;> cases h
    exact .csrRead off _
  case encTag => exact .guarded h fun h => by cases h; exact .encTag _ _
  case encFirstEmpty | encScanEnd =>
    exact .guarded h fun h => by cases h; exact .moved nofun (by decide)
  case encFirstByte =>
    simp only [exec, execEncFirstByte] at h
    split at h
    · exact .guarded h fun h => by cases h; exact .byte (p := .eScan) nofun (by decide) _
    · cases h
  case encScanHit =>
    simp only [exec, execEncScanHit] at h
    split at h
    · exact .guarded h fun h => by cases h; exact .byte (p := .eScan) nofun (by decide) _
    · cases h
  case encScanMiss =>
    simp only [exec, execEncScanMiss] at h
    split at h
    · exact .guarded h fun h => by cases h; exact .byte (p := .eStep) nofun (by decide) _
    · cases h
  case encStep =>
    obtain ⟨-, h⟩ := whenEnabled_eq_next.1 h
    have hflow := (FlowTo.emitMatch (s := s) fun _ => EmitTo.learnKey).andThen
      (Q := fun t => ∃ u, EmitTo s u ∧ t = goto .eScan (restartMatch u))
      (k := fun t => .cont (goto .eScan (restartMatch t))) fun u hu => .cont ⟨u, hu, rfl⟩
    rcases hflow.outcome h with ⟨u, hu, rfl⟩ | ⟨k, v, u, hu, rfl⟩
    · exact .encStep hu
    · exact .raised k v (.emit rfl hu)
  case encLast =>
    obtain ⟨-, h⟩ := whenEnabled_eq_next.1 h
    have hflow := (FlowTo.emitMatch (s := s) fun _ => EmitTo.advanceCounter).andThen
      (Q := fun t => ∃ u, EmitTo s u ∧ t = goto .eEof u)
      (k := fun t => .cont (goto .eEof t)) fun u hu => .cont ⟨u, hu, rfl⟩
    rcases hflow.outcome h with ⟨u, hu, rfl⟩ | ⟨k, v, u, hu, rfl⟩
    · exact .encLast hu
    · exact .raised k v (.emit rfl hu)
  case encEof => exact .guarded h fun h => by cases h; exact .encEof _
  case decTag =>
    obtain ⟨-, h⟩ := whenEnabled_eq_next.1 h
    split at h <;> cases h
    · exact .raised _ _ (.untouched (.inl rfl))
    · exact .takeTag rfl _
  case decFirstEof | decReadEof => exact .read rfl h fun cw h => by cases h; exact .ended rfl cw
  case decFirstLiteral => exact .read rfl h fun _ => .startGeneration rfl
  case decFirstReserved | decReadReserved =>
    exact .read rfl h fun cw h => by cases h; exact .raised _ _ (.code rfl cw)
  case decReadLearn => exact .read rfl h fun _ => .learnCode rfl
  case decEmit =>
    obtain ⟨bs, rfl⟩ := emitPrev_eq_next (whenEnabled_eq_next.1 h).2
    exact .emit bs
  case decReset =>
    obtain ⟨bs, rfl⟩ := emitPrev_eq_next (whenEnabled_eq_next.1 h).2
    exact .reset bs

/-! ### What a fault leaves -/

/-- Up to a raise the output is neither closed nor retracted, and the host's port stands. -/
structure OutputKept (s t : State) : Prop where
  closed_eq : t.port.closed = s.port.closed
  grows : s.port.ob <+: t.port.ob
  host_eq : t.host = s.host
  arith_eq : t.ratioArith = s.ratioArith

theorem Before.outputKept {i : Instr} {s u : State} (h : Before i s u) : OutputKept s u := by
  cases h with
  | untouched hi => exact ⟨rfl, List.prefix_rfl, rfl, rfl⟩
  | tag hi => exact ⟨rfl, List.prefix_rfl, rfl, rfl⟩
  | code hi cw => exact ⟨rfl, List.prefix_rfl, rfl, rfl⟩
  | literal hi h =>
    obtain ⟨_, _, _, _, _, rfl⟩ := h
    exact ⟨rfl, List.prefix_rfl, rfl, rfl⟩
  | learn hi h =>
    obtain ⟨_, _, _, _, _, _, rfl⟩ := h
    exact ⟨rfl, List.prefix_rfl, rfl, rfl⟩
  | emit hi h =>
    obtain ⟨_, _, _, _, bits, rfl⟩ := h
    exact ⟨rfl, List.prefix_append _ _, rfl, rfl⟩
  | start hi d => exact ⟨rfl, List.prefix_rfl, rfl, rfl⟩

/-- Only a raise leads into ERROR. -/
theorem ExecTo.raised_of_error {i : Instr} {s t : State} (h : ExecTo s i t)
    (hs : s.ctl.st ≠ .error) (ht : t.ctl.st = .error) :
    ∃ k v u, Before i s u ∧ t = raiseFault k v u := by
  cases h with
  | raised k v h => exact ⟨k, v, _, h, rfl⟩
  | learn hi h hp => exact absurd ht hp
  | moved hp hi => exact absurd ht hp
  | byte hp hi e => exact absurd ht hp
  | ignored => exact absurd ht hs
  | cmdWrite v c => exact absurd ht hs
  | csrRead off v => exact absurd ht hs
  | tag | ended | literal | emit | reset | startCompress | startExpand | encTag | encStep | encLast
  | encEof => cases ht

theorem FaultKind.cause_ne_zero (k : FaultKind) : k.cause ≠ 0 := by
  cases k <;> decide

/-- Settles O24: a transition into ERROR is a raise. -/
theorem faultEntryLatchesAndStops : Obligations.FaultEntryLatchesAndStops := by
  intro i s t hs hexec ht
  obtain ⟨k, v, u, hu, rfl⟩ := (exec_cases hexec).raised_of_error hs ht
  obtain ⟨hclosed, hgrows, hhost, harith⟩ := hu.outputKept
  exact ⟨rfl, rfl, rfl, rfl, k.listed, k.cause_ne_zero, hclosed, hgrows, hhost, harith⟩

/-! ### Who writes a register -/

/-- The rows of `10_state.md` R48 but those of the flags and the error latch. -/
structure Writes (i : Instr) (s t : State) : Prop where
  wid : t.wid = s.wid ∨ isStart i ∨ isEmit i ∨ isLearn i ∨ i = .decReset
  side : t.ctl.side = s.ctl.side ∨ isStart i
  pol : t.ctl.pol = s.ctl.pol ∨ isStart i ∨ isTag i
  cmd : t.ctl.cmd = s.ctl.cmd ∨ ∃ v, i = .cmdWrite v
  acc : (t.arb.accNum = s.arb.accNum ∧ t.arb.accDen = s.arb.accDen)
    ∨ isStart i ∨ isEmit i ∨ isLiteral i ∨ isLearn i ∨ i = .decReset
  base : (t.arb.baseValid = s.arb.baseValid ∧ t.arb.baseNum = s.arb.baseNum
      ∧ t.arb.baseDen = s.arb.baseDen)
    ∨ isStart i ∨ isEmit i ∨ isLearn i ∨ i = .decReset
  enc : t.enc = s.enc ∨ i ∈ [.encFirstByte, .encScanHit, .encScanMiss, .encStep]
  prev : t.dec.prev = s.dec.prev ∨ isLiteral i ∨ isLearn i
  cw : t.dec.cw = s.dec.cw ∨ isCodeRead i
  tab : (∀ j, tabRead t.mem j = tabRead s.mem j) ∨ isLearn i
  gen : t.cnt.gen = s.cnt.gen ∨ isStart i ∨ isEmit i ∨ i = .decReset
  count : t.cnt.cwCount = s.cnt.cwCount ∨ isStart i ∨ isEmit i ∨ i = .encEof ∨ isCodeRead i

theorem isCodeRead_of_isLiteral {i : Instr} (h : isLiteral i = true) : isCodeRead i = true := by
  cases i <;> cases h <;> rfl

theorem isCodeRead_of_isLearn {i : Instr} (h : isLearn i = true) : isCodeRead i = true := by
  cases i <;> cases h <;> rfl

/-- A raise writes only the flags and the error latch. -/
theorem Writes.raise {i : Instr} {s u : State} (h : Writes i s u) (k : FaultKind) (v : Code) :
    Writes i s (raiseFault k v u) :=
  ⟨h.wid, h.side, h.pol, h.cmd, h.acc, h.base, h.enc, h.prev, h.cw, h.tab, h.gen, h.count⟩

theorem Writes.refl (i : Instr) (s : State) : Writes i s s :=
  ⟨.inl rfl, .inl rfl, .inl rfl, .inl rfl, .inl ⟨rfl, rfl⟩, .inl ⟨rfl, rfl, rfl⟩, .inl rfl,
    .inl rfl, .inl rfl, .inl fun _ => rfl, .inl rfl, .inl rfl⟩

/-- START writes all but CMD, the datapaths, CW and the code table. -/
theorem Writes.start {i : Instr} {s t : State} (hi : isStart i = true)
    (hcmd : t.ctl.cmd = s.ctl.cmd) (henc : t.enc = s.enc) (hdec : t.dec = s.dec)
    (htab : t.mem.tab = s.mem.tab) : Writes i s t :=
  ⟨.inr (.inl hi), .inr hi, .inr (.inl hi), .inl hcmd, .inr (.inl hi), .inr (.inl hi), .inl henc,
    .inl (by rw [hdec]), .inl (by rw [hdec]), .inl fun j => by simp only [tabRead, htab],
    .inr (.inl hi), .inr (.inl hi)⟩

theorem Writes.literal {i : Instr} {s u : State} (hi : isLiteral i = true) (h : LiteralTo s u) :
    Writes i s u := by
  obtain ⟨num, den, dec, count, bp, rfl⟩ := h
  constructor <;> simp [hi, isCodeRead_of_isLiteral hi]

theorem Writes.learn {i : Instr} {s u : State} (hi : isLearn i = true) (h : LearnTo s u) :
    Writes i s u := by
  obtain ⟨wid, arb, dec, tab, count, bp, rfl⟩ := h
  constructor <;> simp [hi, isCodeRead_of_isLearn hi]

theorem Writes.emit {i : Instr} {s u : State} (hi : isEmit i = true) (h : EmitTo s u) :
    Writes i s u := by
  obtain ⟨wid, arb, dict, cnt, bits, rfl⟩ := h
  constructor <;> simp [hi, tabRead]

theorem Before.writes {i : Instr} {s u : State} (h : Before i s u) : Writes i s u := by
  cases h with
  | untouched hi => exact .refl i s
  | tag hi => constructor <;> simp [hi]
  | code hi cw => constructor <;> simp [hi]
  | literal hi h => exact .literal hi h
  | learn hi h => exact .learn hi h
  | emit hi h => exact .emit hi h
  | start hi d => exact .start hi rfl rfl rfl rfl

theorem Writes.goto {i : Instr} {s u : State} (h : Writes i s u) (p : Phase) :
    Writes i s (goto p u) :=
  ⟨h.wid, h.side, h.pol, h.cmd, h.acc, h.base, h.enc, h.prev, h.cw, h.tab, h.gen, h.count⟩

/-- Restarting the match, the last step of ENC_STEP, writes the encoder's datapath only. -/
theorem Writes.restartMatch {s u : State} (h : Writes .encStep s u) :
    Writes .encStep s (restartMatch u) :=
  ⟨h.wid, h.side, h.pol, h.cmd, h.acc, h.base, .inr (by decide), h.prev, h.cw, h.tab, h.gen,
    h.count⟩

theorem ExecTo.writes {i : Instr} {s t : State} (h : ExecTo s i t) : Writes i s t := by
  cases h with
  | raised k v h => exact h.writes.raise k v
  | tag hi p => constructor <;> simp [hi]
  | ended hi cw => constructor <;> simp [endStream, hi]
  | literal hi h => exact (Writes.literal hi h).goto .dEmit
  | learn hi h hp => exact (Writes.learn hi h).goto _
  | emit bs => constructor <;> simp
  | reset bs =>
    constructor <;> simp [reinit_mem]
    cases s.ctl.side <;> simp
  | startCompress hi p => exact .start hi rfl rfl rfl rfl
  | startExpand hi => exact .start hi rfl rfl rfl rfl
  | ignored => exact .refl i s
  | cmdWrite v c => constructor <;> simp
  | csrRead off v => constructor <;> simp
  | encTag v w => constructor <;> simp
  | moved hp hi => exact (Writes.refl i s).goto _
  | byte hp hi e =>
    have hfour : i ∈ [Instr.encFirstByte, .encScanHit, .encScanMiss] ++ [.encStep] :=
      List.mem_append_left _ hi
    exact { Writes.refl i s with enc := .inr hfour }
  | encStep h => exact (Writes.emit rfl h).restartMatch.goto .eScan
  | encLast h => exact (Writes.emit rfl h).goto .eEof
  | encEof v => constructor <;> simp

/-! ### The flags and the error latch -/

/-- The rows of the flags and the error latch. -/
structure Latches (i : Instr) (s t : State) : Prop where
  flags : (t.ctl.busy = s.ctl.busy ∧ t.ctl.done = s.ctl.done ∧ t.ctl.error = s.ctl.error)
    ∨ isStart i ∨ t.ctl.st = .done ∨ t.ctl.st = .error
  err : t.err = s.err ∨ isStart i ∨ t.ctl.st = .error

/-- A step that leaves the flags and the latch alone. -/
theorem Latches.same {i : Instr} {s t : State} (hbusy : t.ctl.busy = s.ctl.busy)
    (hdone : t.ctl.done = s.ctl.done) (herror : t.ctl.error = s.ctl.error)
    (herr : t.err = s.err) : Latches i s t :=
  ⟨.inl ⟨hbusy, hdone, herror⟩, .inl herr⟩

theorem ExecTo.latches {i : Instr} {s t : State} (h : ExecTo s i t) : Latches i s t := by
  cases h with
  | raised k v h => exact ⟨.inr (.inr (.inr rfl)), .inr (.inr rfl)⟩
  | ended hi cw => exact ⟨.inr (.inr (.inl rfl)), .inl rfl⟩
  | encEof v => exact ⟨.inr (.inr (.inl rfl)), .inl rfl⟩
  | literal hi h =>
    obtain ⟨_, _, _, _, _, rfl⟩ := h
    exact .same rfl rfl rfl rfl
  | learn hi h hp =>
    obtain ⟨_, _, _, _, _, _, rfl⟩ := h
    exact .same rfl rfl rfl rfl
  | encStep h | encLast h =>
    obtain ⟨_, _, _, _, _, rfl⟩ := h
    exact .same rfl rfl rfl rfl
  | startCompress hi p => exact ⟨.inr (.inl hi), .inr (.inl hi)⟩
  | startExpand hi => exact ⟨.inr (.inl hi), .inr (.inl hi)⟩
  | tag | emit | reset | ignored | cmdWrite | csrRead | encTag | moved | byte =>
    exact .same rfl rfl rfl rfl

/-- A CSR access writes no part of the control group but CMD. -/
theorem ctl_of_isCsr {i : Instr} {s t : State} (hi : isCsr i = true) (h : exec i s = .next t) :
    { t.ctl with cmd := s.ctl.cmd } = s.ctl := by
  cases i <;> simp only [isCsr, Bool.false_eq_true] at hi
  case cmdWrite v =>
    simp only [exec, execCmdWrite] at h
    split at h <;> cases h <;> rfl
  case csrRead off =>
    simp only [exec, execCsrRead] at h
    split at h <;> cases h
    rfl

/-- Settles O58, row by row. -/
theorem onlyTheNamedRulesWriteARegister : Obligations.OnlyTheNamedRulesWriteARegister := by
  intro i s t h
  have hto := exec_cases h
  obtain ⟨hwid, hside, hpol, hcmd, hacc, hbase, henc, hprev, hcw, htab, hgen, hcount⟩ := hto.writes
  obtain ⟨hflags, herr⟩ := hto.latches
  exact ⟨hwid, fun hi => ctl_of_isCsr hi h, hside, hpol, hcmd, hflags, hacc, hbase, henc, hprev,
    hcw, htab, hgen, hcount, herr⟩

end Sys2Proof.Machine
end


section
/-! PROOFS. The rounded quotients of the Monitored comparison (`43_reset_policy.md` R278): nearest
to the exact quotient, ties to even. All bounds are about rationals, an exponent as a power of 2. -/

namespace Sys2Proof.Machine

/-! ### Powers of 2 with an exponent of either sign -/

/-- A power of 2 is the quotient of the two natural powers of which one is 1. -/
theorem two_zpow_mul (e : ℤ) : (2 : ℚ) ^ e * 2 ^ (-e).toNat = 2 ^ e.toNat := by
  rw [← zpow_natCast, ← zpow_natCast, ← zpow_add₀ two_ne_zero]
  congr 1
  omega

/-- Clearing the exponent from a quotient, as `quotExp` and `roundQuot` do. -/
theorem cleared_quot (num den : ℕ) (e : ℤ) :
    ((num * 2 ^ (-e).toNat : ℕ) : ℚ) / ((den * 2 ^ e.toNat : ℕ) : ℚ) = (num : ℚ) / den / 2 ^ e := by
  have hpow : (2 : ℚ) ^ (-e).toNat ≠ 0 := by positivity
  push_cast
  rw [← two_zpow_mul e, ← mul_assoc, mul_div_mul_right _ _ hpow, div_div]

/-- A positive natural number lies between two consecutive powers of 2. -/
theorem log2_bounds {n : ℕ} (h : 0 < n) :
    (2 : ℚ) ^ (Nat.log2 n : ℤ) ≤ n ∧ (n : ℚ) < 2 ^ ((Nat.log2 n : ℤ) + 1) := by
  rw [Nat.log2_eq_log_two]
  constructor
  · exact_mod_cast Nat.pow_log_le_self 2 h.ne'
  · exact_mod_cast Nat.lt_pow_succ_log_self one_lt_two n

/-- The quotient of two numbers, by the positions of their highest bits. -/
theorem quot_bounds {num den : ℕ} (hnum : 0 < num) (hden : 0 < den) :
    (2 : ℚ) ^ ((Nat.log2 num : ℤ) - Nat.log2 den - 1) < (num : ℚ) / den
      ∧ (num : ℚ) / den < 2 ^ ((Nat.log2 num : ℤ) - Nat.log2 den + 1) := by
  obtain ⟨hn, hn'⟩ := log2_bounds hnum
  obtain ⟨hd, hd'⟩ := log2_bounds hden
  have hden' : (0 : ℚ) < den := by exact_mod_cast hden
  constructor
  · calc (2 : ℚ) ^ ((Nat.log2 num : ℤ) - Nat.log2 den - 1)
        = 2 ^ (Nat.log2 num : ℤ) / 2 ^ ((Nat.log2 den : ℤ) + 1) := by
          rw [← zpow_sub₀ two_ne_zero, sub_sub]
      _ < 2 ^ (Nat.log2 num : ℤ) / den := div_lt_div_of_pos_left (by positivity) hden' hd'
      _ ≤ num / den := div_le_div_of_nonneg_right hn hden'.le
  · calc (num : ℚ) / den < 2 ^ ((Nat.log2 num : ℤ) + 1) / den :=
          div_lt_div_of_pos_right hn' hden'
      _ ≤ 2 ^ ((Nat.log2 num : ℤ) + 1) / 2 ^ (Nat.log2 den : ℤ) :=
          div_le_div_of_nonneg_left (by positivity) (by positivity) hd
      _ = 2 ^ ((Nat.log2 num : ℤ) - Nat.log2 den + 1) := by
          rw [← zpow_sub₀ two_ne_zero]
          congr 1
          ring

/-- The exponent places the quotient among the significands of 53 bits. -/
theorem quotExp_bounds {num den : ℕ} (hnum : 0 < num) (hden : 0 < den) :
    (2 : ℚ) ^ 52 ≤ (num : ℚ) / den / 2 ^ quotExp num den
      ∧ (num : ℚ) / den / 2 ^ quotExp num den < 2 ^ 53 := by
  obtain ⟨hlow, hhigh⟩ := quot_bounds hnum hden
  have htest (e : ℤ) : num * 2 ^ (-e).toNat < den * 2 ^ e.toNat * 2 ^ 52
      ↔ (num : ℚ) / den / 2 ^ e < 2 ^ 52 := by
    have hden' : (0 : ℚ) < (den * 2 ^ e.toNat : ℕ) := by positivity
    rw [← cleared_quot, div_lt_iff₀ hden', ← Nat.cast_lt (α := ℚ), mul_comm ((2 : ℚ) ^ 52)]
    push_cast
    rfl
  unfold quotExp
  simp only [htest]
  set e : ℤ := (Nat.log2 num : ℤ) - (Nat.log2 den : ℤ) - 52 with he
  have hpos : (0 : ℚ) < 2 ^ e := by positivity
  have hlow' : (2 : ℚ) ^ 51 < (num : ℚ) / den / 2 ^ e := by
    have hexp : ((51 : ℕ) : ℤ) + e = (Nat.log2 num : ℤ) - Nat.log2 den - 1 := by omega
    rwa [lt_div_iff₀ hpos, ← zpow_natCast, ← zpow_add₀ two_ne_zero, hexp]
  have hhigh' : (num : ℚ) / den / 2 ^ e < 2 ^ 53 := by
    have hexp : ((53 : ℕ) : ℤ) + e = (Nat.log2 num : ℤ) - Nat.log2 den + 1 := by omega
    rwa [div_lt_iff₀ hpos, ← zpow_natCast, ← zpow_add₀ two_ne_zero, hexp]
  split
  · rename_i hsmall
    have hdouble : (num : ℚ) / den / 2 ^ (e - 1) = 2 * ((num : ℚ) / den / 2 ^ e) := by
      rw [zpow_sub_one₀ two_ne_zero]
      field_simp
    rw [hdouble]
    constructor <;> linarith
  · rename_i hlarge
    exact ⟨not_lt.1 hlarge, hhigh'⟩

/-! ### The nearest natural number -/

/-- `divNearest` is at most one half away, and even at exactly one half. -/
theorem divNearest_spec (a : ℕ) {b : ℕ} (hb : 0 < b) :
    |(a : ℚ) / b - divNearest a b| ≤ 1 / 2
      ∧ (|(a : ℚ) / b - divNearest a b| = 1 / 2 → divNearest a b % 2 = 0) := by
  have hb' : (0 : ℚ) < b := by exact_mod_cast hb
  have hlt : a % b < b := Nat.mod_lt a hb
  have hq : (a : ℚ) / b = (a / b : ℕ) + (a % b : ℕ) / b := by
    rw [eq_comm, ← eq_sub_iff_add_eq', div_eq_iff hb'.ne', sub_mul, div_mul_cancel₀ _ hb'.ne']
    have := Nat.div_add_mod a b
    rw [eq_sub_iff_add_eq']
    exact_mod_cast (by rw [mul_comm]; exact this)
  have hr : (0 : ℚ) ≤ (a % b : ℕ) / b := by positivity
  have hcmp : 2 * (a % b) < b ↔ (a % b : ℕ) / (b : ℚ) < 1 / 2 := by
    rw [div_lt_div_iff₀ hb' two_pos, one_mul, mul_comm, ← Nat.cast_lt (α := ℚ)]
    push_cast
    rfl
  have hcmp' : b < 2 * (a % b) ↔ 1 / 2 < (a % b : ℕ) / (b : ℚ) := by
    rw [div_lt_div_iff₀ two_pos hb', one_mul, mul_comm _ (2 : ℚ), ← Nat.cast_lt (α := ℚ)]
    push_cast
    rfl
  have hone : (a % b : ℕ) / (b : ℚ) < 1 := by
    rw [div_lt_one hb']
    exact_mod_cast hlt
  unfold divNearest
  simp only [hq, hcmp, hcmp']
  generalize ((a % b : ℕ) : ℚ) / b = r at *
  split_ifs with hlow hhigh heven
  · rw [add_sub_cancel_left, abs_of_nonneg hr]
    exact ⟨hlow.le, fun h => absurd h hlow.ne⟩
  · push_cast
    rw [add_sub_add_left_eq_sub, abs_of_nonpos (by linarith)]
    exact ⟨by linarith, fun h => by linarith⟩
  · rw [add_sub_cancel_left, abs_of_nonneg hr]
    exact ⟨not_lt.1 hhigh, fun _ => heven⟩
  · push_cast
    rw [add_sub_add_left_eq_sub, abs_of_nonpos (by linarith)]
    exact ⟨by linarith, fun _ => by omega⟩

/-! ### The nearest value of 53 bits -/

/-- A rational within one half of the natural number `m` is no nearer to another integer, nor to
anything half a unit below `2 ^ 52 ≤ x, m`; and it is as near only at one half. -/
theorem nearest_of_half {x y : ℚ} {m : ℕ} (hhalf : |x - m| ≤ 1 / 2) (hx : 2 ^ 52 ≤ x)
    (hm : 2 ^ 52 ≤ m) (hy : (∃ k : ℤ, y = k) ∨ y ≤ 2 ^ 52 - 1 / 2) :
    |x - m| ≤ |x - y| ∧ (|x - m| = |x - y| → y ≠ m → |x - m| = 1 / 2) := by
  have hm' : (2 : ℚ) ^ 52 ≤ m := by exact_mod_cast hm
  rcases hy with ⟨k, rfl⟩ | hy
  · by_cases hk : k = m
    · subst hk
      exact ⟨le_rfl, fun _ h => absurd rfl h⟩
    · have hone : (1 : ℚ) ≤ |(m : ℚ) - k| := by
        have : (1 : ℤ) ≤ |(m : ℤ) - k| := Int.one_le_abs (sub_ne_zero.2 fun h => hk h.symm)
        exact_mod_cast this
      have htri : |(m : ℚ) - k| ≤ |x - m| + |x - k| := by
        rw [abs_sub_comm x m]
        exact abs_sub_le _ x _
      exact ⟨by linarith, fun h _ => by linarith⟩
  · have hfar : 1 / 2 ≤ |x - y| := by
      rw [abs_of_nonneg (by linarith)]
      linarith
    refine ⟨hhalf.trans hfar, fun h _ => ?_⟩
    linarith

/-- What `roundQuot` answers: a normal value equal to the natural number nearest the quotient scaled
to 53 bits, times the scale. -/
theorem roundQuot_spec {num den : ℕ} (hnum : 0 < num) (hden : 0 < den) :
    ∃ (m : ℕ) (e : ℤ), (∀ shift, roundQuot num den shift = .normal m (e + shift))
      ∧ 2 ^ 52 ≤ m ∧ m < 2 ^ 53 ∧ ∃ n : ℕ, 2 ^ 52 ≤ n
        ∧ (m : ℚ) * 2 ^ e = n * 2 ^ quotExp num den
        ∧ |(num : ℚ) / den / 2 ^ quotExp num den - n| ≤ 1 / 2
        ∧ (|(num : ℚ) / den / 2 ^ quotExp num den - n| = 1 / 2 → m % 2 = 0) := by
  obtain ⟨hlow, hhigh⟩ := quotExp_bounds hnum hden
  obtain ⟨hhalf, heven⟩ := divNearest_spec (num * 2 ^ (-quotExp num den).toNat)
    (b := den * 2 ^ (quotExp num den).toNat) (by positivity)
  rw [cleared_quot] at hhalf heven
  simp only [roundQuot]
  generalize quotExp num den = q at *
  generalize divNearest (num * 2 ^ (-q).toNat) (den * 2 ^ q.toNat) = n at *
  generalize (num : ℚ) / den / 2 ^ q = x at *
  obtain ⟨habove, hbelow⟩ := abs_le.1 hhalf
  have hn : 2 ^ 52 ≤ n := by
    by_contra hlt
    have : (n : ℚ) + 1 ≤ 2 ^ 52 := by exact_mod_cast Nat.lt_of_not_le hlt
    linarith
  have hn' : n ≤ 2 ^ 53 := by
    by_contra hlt
    have : (2 : ℚ) ^ 53 + 1 ≤ n := by exact_mod_cast Nat.lt_of_not_le hlt
    linarith
  by_cases htop : n = 2 ^ 53
  · refine ⟨2 ^ 52, q + 1, fun shift => by simp only [htop, if_true], le_rfl, by norm_num, n, hn,
      ?_, hhalf, fun _ => by norm_num⟩
    rw [htop, zpow_add_one₀ two_ne_zero]
    push_cast
    ring
  · exact ⟨n, q, fun shift => by simp only [htop, if_false], hn, by omega, n, hn, rfl, hhalf, heven⟩

/-- Beside the scale `2 ^ q`, a value of 53 bits is an integer or half a unit below `2 ^ 52`. -/
theorem scaled_value {m : ℕ} (hm : m < 2 ^ 53) (e q : ℤ) :
    (∃ k : ℤ, (m : ℚ) * 2 ^ e / 2 ^ q = k) ∨ (m : ℚ) * 2 ^ e / 2 ^ q ≤ 2 ^ 52 - 1 / 2 := by
  rw [mul_div_assoc, ← zpow_sub₀ two_ne_zero]
  rcases le_or_gt q e with hle | hlt
  · left
    obtain ⟨k, hk⟩ := Int.eq_ofNat_of_zero_le (sub_nonneg.2 hle)
    refine ⟨m * 2 ^ k, ?_⟩
    rw [hk]
    push_cast
    rfl
  · right
    have hm' : (m : ℚ) ≤ 2 ^ 53 - 1 := by
      have : (m : ℚ) + 1 ≤ 2 ^ 53 := by exact_mod_cast hm
      linarith
    calc (m : ℚ) * 2 ^ (e - q) ≤ m * 2 ^ (-1 : ℤ) :=
          mul_le_mul_of_nonneg_left (zpow_le_zpow_right₀ one_le_two (by omega)) (by positivity)
      _ ≤ 2 ^ 52 - 1 / 2 := by
          rw [zpow_neg_one]
          linarith

/-- The rounded quotient is at least as near as any other value, and even at a tie. -/
theorem roundQuot_nearest {num den : ℕ} (hnum : 0 < num) (hden : 0 < den) :
    ∃ (m : ℕ) (e : ℤ), roundQuot num den 0 = .normal m e ∧ 2 ^ 52 ≤ m ∧ m < 2 ^ 53
      ∧ ∀ (m' : ℕ) (e' : ℤ), 2 ^ 52 ≤ m' → m' < 2 ^ 53 →
        |(num : ℚ) / den - m * 2 ^ e| ≤ |(num : ℚ) / den - m' * 2 ^ e'|
        ∧ (|(num : ℚ) / den - m * 2 ^ e| = |(num : ℚ) / den - m' * 2 ^ e'| →
            (m' : ℚ) * 2 ^ e' ≠ m * 2 ^ e → m % 2 = 0) := by
  obtain ⟨m, e, hround, hm, hm', n, hn, hvalue, hhalf, heven⟩ := roundQuot_spec hnum hden
  refine ⟨m, e, by simpa using hround 0, hm, hm', fun m' e' _ hlt => ?_⟩
  obtain ⟨hlow, -⟩ := quotExp_bounds hnum hden
  obtain ⟨hnear, htie⟩ := nearest_of_half hhalf hlow hn (scaled_value hlt e' (quotExp num den))
  generalize quotExp num den = q at *
  have hq : (0 : ℚ) < 2 ^ q := by positivity
  have hscale (y : ℚ) : |(num : ℚ) / den / 2 ^ q - y / 2 ^ q| = |(num : ℚ) / den - y| / 2 ^ q := by
    rw [← sub_div, abs_div, abs_of_pos hq]
  have hn' : (n : ℚ) = m * 2 ^ e / 2 ^ q := by rw [hvalue, mul_div_cancel_right₀ _ hq.ne']
  rw [hn', hscale] at hnear htie heven
  rw [hscale] at hnear htie
  refine ⟨(div_le_div_iff_of_pos_right hq).1 hnear, fun heq hne => heven (htie (by rw [heq]) ?_)⟩
  exact fun h => hne ((div_left_inj' hq.ne').1 h)

/-! ### The operations on values -/

theorem cvt_pos {x : ℕ} (h : 0 < x) : cvt x = roundQuot x 1 0 := if_neg h.ne'

/-- A number below `2 ^ 53` is a value of 53 bits, so it is its own nearest value. -/
theorem cvt_exact {x : ℕ} (hpos : 0 < x) (hlt : x < 2 ^ 53) :
    ∃ (m : ℕ) (e : ℤ), cvt x = .normal m e ∧ (m : ℚ) * 2 ^ e = x := by
  obtain ⟨m, e, hround, -, -, hnear⟩ := roundQuot_nearest hpos one_pos
  refine ⟨m, e, (cvt_pos hpos).trans hround, ?_⟩
  obtain ⟨k, hk⟩ := Nat.exists_eq_add_of_le
    (Nat.le_of_lt_succ (Nat.log_lt_of_lt_pow hpos.ne' hlt) : Nat.log 2 x ≤ 52)
  have hsplit : (2 : ℕ) ^ 52 = 2 ^ Nat.log 2 x * 2 ^ k := by rw [← pow_add, ← hk]
  have hself : ((x * 2 ^ k : ℕ) : ℚ) * 2 ^ (-(k : ℤ)) = x := by
    rw [zpow_neg, zpow_natCast]
    push_cast
    rw [mul_assoc, mul_inv_cancel₀ (by positivity), mul_one]
  have hlow : 2 ^ 52 ≤ x * 2 ^ k := by
    rw [hsplit]
    exact Nat.mul_le_mul_right _ (Nat.pow_log_le_self 2 hpos.ne')
  have hhigh : x * 2 ^ k < 2 ^ 53 := by
    rw [show (2 : ℕ) ^ 53 = 2 ^ (Nat.log 2 x + 1) * 2 ^ k by rw [pow_succ', hsplit]; ring]
    exact Nat.mul_lt_mul_of_pos_right (Nat.lt_pow_succ_log_self one_lt_two x) (by positivity)
  have hzero := (hnear _ (-(k : ℤ)) hlow hhigh).1
  rw [hself, Nat.cast_one, div_one, sub_self, abs_zero] at hzero
  linarith [abs_nonpos_iff.1 hzero]

/-- A value of 53 bits is below every one of a greater exponent. -/
theorem value_lt_of_exponent {m m' : ℕ} {e e' : ℤ} (hm : 2 ^ 52 ≤ m) (hm' : m' < 2 ^ 53)
    (h : e' < e) : (m' : ℚ) * 2 ^ e' < m * 2 ^ e := by
  have hlow : (2 : ℚ) ^ 52 ≤ m := by exact_mod_cast hm
  have hhigh : (m' : ℚ) < 2 ^ 53 := by exact_mod_cast hm'
  calc (m' : ℚ) * 2 ^ e' < 2 ^ 53 * 2 ^ e' := mul_lt_mul_of_pos_right hhigh (by positivity)
    _ = 2 ^ 52 * 2 ^ (e' + 1) := by rw [zpow_add_one₀ two_ne_zero]; ring
    _ ≤ 2 ^ 52 * 2 ^ e :=
        mul_le_mul_of_nonneg_left (zpow_le_zpow_right₀ one_le_two (by omega)) (by positivity)
    _ ≤ m * 2 ^ e := mul_le_mul_of_nonneg_right hlow (by positivity)

theorem fgt_iff {m m' : ℕ} {e e' : ℤ} (hm : 2 ^ 52 ≤ m) (hlt : m < 2 ^ 53) (hm' : 2 ^ 52 ≤ m')
    (hlt' : m' < 2 ^ 53) :
    fgt (.normal m e) (.normal m' e') = true ↔ (m' : ℚ) * 2 ^ e' < (m : ℚ) * 2 ^ e := by
  simp only [fgt, Bool.or_eq_true, Bool.and_eq_true, decide_eq_true_eq]
  rcases lt_trichotomy e' e with h | h | h
  · exact iff_of_true (.inl h) (value_lt_of_exponent hm hlt' h)
  · subst h
    have hpos : (0 : ℚ) < 2 ^ e' := by positivity
    rw [mul_lt_mul_iff_left₀ hpos, Nat.cast_lt]
    simp
  · refine iff_of_false ?_ (value_lt_of_exponent hm' hlt h).not_gt
    omega

/-- Settles O33, from the nearest natural number of the scaled quotient. -/
theorem ratioValuesAreNearestEven : Obligations.RatioValuesAreNearestEven := by
  refine ⟨fun _ _ => roundQuot_nearest, fun _ => cvt_pos, fun _ => cvt_exact,
    fun m m' e e' hm hm' => ?_, fun _ _ _ _ => fgt_iff⟩
  obtain ⟨a, d, hround, -⟩ := roundQuot_spec hm hm'
  exact ⟨a, d, by simpa using hround 0, hround (e - e')⟩

end Sys2Proof.Machine
end


section
/-! PROOFS. Runs of the core (`45_host_commands.md` R335), the host program that starts one and
waits for its end (`30_encoding.md` R146), and a bit sequence as it is read off the wire. -/

namespace Sys2Proof.Machine

/-! ### Runs of the core -/

/-- One transition of a busy core. -/
def CoreStep (s t : State) : Prop := s.ctl.busy = true ∧ coreTurn s = .next t

/-- Transitions of a busy core, one after the other. -/
abbrev Runs : State → State → Prop := Relation.ReflTransGen CoreStep

theorem Inv.coreStep {s t : State} (h : Inv s) (hst : CoreStep s t) : Inv t := by
  obtain ⟨busy, hturn⟩ := hst
  unfold coreTurn at hturn
  split at hturn
  next i hfetch => exact h.exec_row busy (fetchTransition_mem_rows hfetch).2 hturn
  next => cases hturn; exact h

theorem Inv.runs {s t : State} (h : Inv s) (hruns : Runs s t) : Inv t := by
  induction hruns with
  | refl => exact h
  | tail _ hstep ih => exact ih.coreStep hstep

/-- A transition runs where ST and the guards decode to it. -/
theorem CoreStep.of_row {s t : State} {p : Phase} {i : Instr} (busy : s.ctl.busy = true)
    (hst : s.ctl.st = p) (hrow : decodeFsm (viewOf s) p.code = .instr i)
    (hexec : exec i s = .next t) : CoreStep s t :=
  ⟨busy, (coreTurn_busy busy hst hrow).trans hexec⟩

theorem ne_csrRead_of_mem_phaseRows {p : Phase} {i : Instr} (h : i ∈ phaseRows p) :
    ∀ off, i ≠ .csrRead off := by
  rintro off rfl
  cases p <;> simp [phaseRows] at h

/-- The core's turn does not see the host's port. -/
theorem coreTurn_beside (s : State) (h : HostPort) :
    coreTurn (s.beside h) = withHost h (coreTurn s) := by
  have hfetch : fetchTransition (s.beside h) = fetchTransition s := rfl
  unfold coreTurn
  rw [hfetch]
  split
  next i hi => exact exec_withHost s h (ne_csrRead_of_mem_phaseRows (fetchTransition_mem_rows hi).2)
  next => rfl

/-! ### The host program around a run -/

/-- The machine comes to the core state of `t` with nothing pending. -/
def Completes (s t : State) : Prop :=
  ∃ k h, Sys2Proof.core.run k s = .next (t.beside h) ∧ h.pending = []

theorem Completes.step {s u t : State} (h : step s = .next u) (ht : Completes u t) :
    Completes s t := by
  obtain ⟨k, p, hrun, hpending⟩ := ht
  exact ⟨k + 1, p, (run_succ_of_next (M := Sys2Proof.core) h k).trans hrun, hpending⟩

/-- While the host waits, the core runs to the end of its pass. -/
theorem Runs.completes {s t : State} (hruns : Runs s t) (hidle : t.ctl.busy = false) :
    ∀ h : HostPort, h.pending = [.wait] → Completes (s.beside h) t := by
  induction hruns using Relation.ReflTransGen.head_induction_on with
  | refl =>
    intro h hpending
    have hstep : Machine.step (t.beside h)
        = .next (t.beside { rdata := csrStatus t, pending := [] }) := by
      rw [step_of_action (a := .wait) (rest := []) hpending]
      simp only [hostTurn, State.beside, hidle]
      rfl
    exact .step hstep ⟨0, _, rfl, rfl⟩
  | head hcs _ ih =>
    rename_i u v _
    intro h hpending
    obtain ⟨busy, hturn⟩ := hcs
    have hstep : Machine.step (u.beside h)
        = .next (v.beside { rdata := csrStatus u, pending := [.wait] }) := by
      rw [step_of_action (a := .wait) (rest := []) hpending]
      simp only [hostTurn, State.beside, busy, if_true]
      exact (coreTurn_beside u _).trans (by rw [hturn]; rfl)
    exact .step hstep (ih _ rfl)

/-- An access that decodes to an instruction runs it, beside the actions still pending. -/
theorem step_csr {s : State} {a : CsrAccess} {i : Instr} {r : CsrWord} {rest : List HostAction}
    (h : decodeCsr a = .instr i) :
    step (s.beside { rdata := r, pending := .csr a :: rest })
      = exec i (s.beside { rdata := r, pending := rest }) :=
  (stepRunsTheDecodedInstruction _ i).2.2 a rest rfl h

/-- A host that starts an idle core and waits. -/
theorem completes_of_start {s t : State} (hidle : s.ctl.busy = false)
    (hruns : Runs (startPass s) t) (hend : t.ctl.busy = false) (r : CsrWord) :
    Completes (s.beside { rdata := r, pending := [.csr (.write 0x00 1), .wait] }) t := by
  have hstep : Machine.step (s.beside { rdata := r, pending := [.csr (.write 0x00 1), .wait] })
      = .next ((startPass s).beside { rdata := r, pending := [.wait] }) := by
    rw [step_csr (i := .start 1) rfl, ← startPass_beside]
    exact exec_start_idle rfl hidle
  exact .step hstep (hruns.completes hend _ rfl)

/-- The state with another CMD. -/
def State.withCmd (s : State) (c : BitVec 16) : State := { s with ctl := { s.ctl with cmd := c } }

/-- A host that writes CMD, starts an idle core and waits. -/
theorem completes_of_program {s t : State} {v : CsrWord} (hidle : s.ctl.busy = false)
    (hruns : Runs (startPass (s.withCmd (v.extractLsb' 0 16))) t)
    (hend : t.ctl.busy = false) (r : CsrWord) :
    Completes (s.beside
      { rdata := r, pending := [.csr (.write 0x04 v), .csr (.write 0x00 1), .wait] }) t := by
  refine .step ?_ (completes_of_start (s := s.withCmd (v.extractLsb' 0 16)) hidle hruns hend r)
  rw [step_csr (i := .cmdWrite v) rfl]
  exact (cmdWriteSetsCmdWhileIdle (s.beside _) v).1 hidle

/-! ### The wire -/

/-- The bits from the bit position on begin with `bits`; what follows pads the last byte. -/
def Wire (s : State) (bits : List Bool) : Prop :=
  ∃ before, s.port.inp = packBytes (before ++ bits) ∧ s.port.bp = before.length

theorem Wire.nextBits {s : State} {v w : ℕ} {rest : List Bool} (h : Wire s (bitsOf v w ++ rest))
    (hv : v < 2 ^ w) : nextBits s w = some v := by
  obtain ⟨before, hinp, hbp⟩ := h
  rw [← List.append_assoc] at hinp
  exact writtenValueReadsBack before rest v w s hv hinp hbp

/-- What stands next after `w` bits are read. -/
theorem Wire.skip {s t : State} {v w : ℕ} {rest : List Bool} (h : Wire s (bitsOf v w ++ rest))
    (hinp : t.port.inp = s.port.inp) (hbp : t.port.bp = s.port.bp + w) : Wire t rest := by
  obtain ⟨before, hinp', hbp'⟩ := h
  exact ⟨before ++ bitsOf v w, by rw [hinp, hinp', List.append_assoc], by
    rw [hbp, hbp', List.length_append, length_bitsOf]⟩

theorem Wire.nextTag {s : State} {t : Byte} {rest : List Bool}
    (h : Wire s (bitsOf t.toNat 8 ++ rest)) : nextTag s = some t := by
  rw [Machine.nextTag, h.nextBits t.isLt]
  simp

theorem Wire.nextCode {s : State} {cw : Code} {w : ℕ} {rest : List Bool}
    (h : Wire s (bitsOf cw.toNat w ++ rest)) (hw : s.wid.w.toNat = w) (hcw : cw.toNat < 2 ^ w) :
    nextCode s = some cw := by
  rw [Machine.nextCode, hw, h.nextBits hcw]
  simp

end Sys2Proof.Machine
end


section
/-! PROOFS. The decoder behind the encoder (`41_decoder.md` R212, R213): its counter is one behind,
its table holds the strings of the encoder's codes, and reading a codeword it writes the match the
encoder emitted and falls in step again. -/

namespace Sys2Proof.Machine

/-! ### Registers the two sides keep in step -/

/-- The registers the arbiter's decision depends on are the same. -/
structure Level (s d : State) : Prop where
  pol_eq : d.ctl.pol = s.ctl.pol
  arb_eq : d.arb = s.arb
  arith_eq : d.ratioArith = s.ratioArith

theorem Level.accFits_eq {s d : State} (h : Level s d) (hw : d.wid.w = s.wid.w) (len : ℕ) :
    accFits len d = accFits len s := by
  simp only [accFits, h.pol_eq, h.arb_eq, hw]

theorem Level.accumulated_eq {s d : State} (h : Level s d) (hw : d.wid.w = s.wid.w) (len : ℕ) :
    accumulated len d = accumulated len s := by
  simp only [accumulated, h.pol_eq, h.arb_eq, hw]

theorem Level.reinitializes_eq {s d : State} (h : Level s d) (hw : d.wid.w = s.wid.w)
    (hsamples : samples d = samples s) (len : ℕ) : reinitializes len d = reinitializes len s := by
  simp only [reinitializes, h.pol_eq, h.arb_eq, h.arith_eq, hw, hsamples]

theorem Level.sampled_eq {s d : State} (h : Level s d) (hw : d.wid.w = s.wid.w)
    (hsamples : samples d = samples s) (len : ℕ) : sampled len d = sampled len s := by
  simp only [sampled, h.accumulated_eq hw, h.pol_eq, h.arb_eq, hsamples]

/-- The decoder's N is one behind the encoder's, up to the ceiling (`42_width_controller.md`
R250). -/
def Behind (n m : ℕ) : Prop := n + 1 = m ∨ n = 65536 ∧ m = 65536

/-- The decoder's width controller is one entry behind the encoder's. -/
structure Lag (s d : State) : Prop where
  w_eq : d.wid.w = s.wid.w
  l_eq : d.wid.l = s.wid.l
  behind : Behind d.wid.n.toNat s.wid.n.toNat

section

variable {s d : State} (h : Lag s d) (hs : WidthInv s) (hd : WidthInv d)
  (henc : s.ctl.side = .enc) (hdec : d.ctl.side = .dec)

include h hs hd henc hdec

/-- One entry behind, the decoder promotes at the same codeword: its boundary is one earlier. -/
theorem Lag.promotes_eq : promotes d = promotes s := by
  have hroom := hd.dec_room hdec
  have hfull := hs.w_eq_iff
  have hmax := hs.n_max
  rw [Bool.eq_iff_iff, promotes_iff, promotes_iff, henc, hdec, h.w_eq, h.l_eq]
  rw [h.w_eq, h.l_eq] at hroom
  have hgs := gain_cases s
  have hgd := gain_cases d
  rw [h.l_eq] at hgd
  have hb := h.behind
  simp only [Behind] at hb
  simp only [delta]
  omega

/-- The lag is kept, and a code the encoder assigns is the decoder's next. -/
theorem Lag.nextN : Behind (nextN d) (nextN s)
    ∧ (s.wid.n.toNat < Machine.nextN s → Machine.nextN d + 1 = Machine.nextN s) := by
  have hroom := hd.dec_room hdec
  have hfull := hs.w_eq_iff
  have hbounds := hs.bounds
  have hmax := hs.n_max
  have hpromotes := h.promotes_eq hs hd henc hdec
  rw [h.w_eq, h.l_eq] at hroom
  have hgs := gain_cases s
  have hgd := gain_cases d
  rw [h.l_eq] at hgd
  have hb := h.behind
  have hiff := promotes_iff s
  rw [henc] at hiff
  simp only [Behind, delta] at hb hiff ⊢
  unfold Machine.nextN
  rw [hpromotes]
  cases hp : promotes s
  · simp only [hp, Bool.false_eq_true, false_iff, Bool.toNat_false] at hiff ⊢
    omega
  · simp only [hp, true_iff, Bool.toNat_true] at hiff ⊢
    omega

theorem Lag.samples_eq : samples d = samples s := by
  obtain ⟨hnext, -⟩ := h.nextN hs hd henc hdec
  have hle := hs.nextN_le
  simp only [Behind] at hnext
  simp only [samples, henc, hdec, delta, decide_eq_decide]
  omega

end

/-! ### The decoder follows the encoder's current match -/

/-- Every learned key of the encoder stands in the decoder's table, but for the last one, which the
decoder learns at the next codeword: it extends PREV by the first byte of the match `text`. -/
def EntriesKnown (s d : State) (text : List Byte) : Prop :=
  ∀ p b k, dictLookup s.mem p b = some k →
    k.toNat < d.wid.n.toNat ∧ (tabRead d.mem k).prefixCode = p ∧ (tabRead d.mem k).suffix = b
      ∨ k.toNat = d.wid.n.toNat ∧ p = d.dec.prev ∧ text.head? = some b

/-- CUR names the match in the decoder's table, or is the code the decoder learns next: then the
match is the string of PREV with its own first byte appended. -/
def MatchKnown (s d : State) (text : List Byte) : Prop :=
  s.enc.cur.toNat < d.wid.n.toNat ∧ str d.mem s.enc.cur = some text
    ∨ s.enc.cur.toNat = d.wid.n.toNat ∧ ∃ init b, str d.mem d.dec.prev = some init
      ∧ init.head? = some b ∧ text = init ++ [b]

/-- The decoder, about to read, follows the encoder, whose current match is `text`. -/
inductive Follows (s d : State) (text : List Byte) : Prop where
  | fresh (b : Byte) (hst : d.ctl.st = .dFirst) (hdict : s.mem.dict = []) (hwid : s.wid = widStart)
      (hcur : s.enc.cur = b.setWidth 16) (htext : text = [b])
  | later (hst : d.ctl.st = .dRead) (hlag : Lag s d) (hentries : EntriesKnown s d text)
      (hmatch : MatchKnown s d text)

/-- The decoder has written the match and learned every key the encoder had when it emitted it; its
registers are those of the encoder after the emission. -/
structure CaughtUp (s d : State) : Prop where
  st_eq : d.ctl.st = .dRead
  arb_eq : d.arb = sampled s.enc.curLen.toNat s
  w_eq : d.wid.w = (nextWidth s).w
  l_eq : d.wid.l = (nextWidth s).l
  behind : Behind d.wid.n.toNat (nextN s)
  new_eq : s.wid.n.toNat < nextN s → d.wid.n.toNat + 1 = nextN s
  prev_eq : d.dec.prev = s.enc.cur
  entries : ∀ p b k, dictLookup s.mem p b = some k → k.toNat < d.wid.n.toNat
    ∧ (tabRead d.mem k).prefixCode = p ∧ (tabRead d.mem k).suffix = b

/-- The decoder has read the codeword of the match `text` and written it. -/
structure Decoded (s d d' : State) (text : List Byte) (rest : List Bool) : Prop where
  runs : Runs d d'
  ob_eq : d'.port.ob = d.port.ob ++ bytesBits text
  wire : Wire d' rest
  pol_eq : d'.ctl.pol = s.ctl.pol
  arith_eq : d'.ratioArith = s.ratioArith
  caught : reinitializes s.enc.curLen.toNat s = false → CaughtUp s d'
  restarted : reinitializes s.enc.curLen.toNat s = true → d'.ctl.st = .dFirst ∧ d'.arb = arbZero

/-- D_EMIT writes the string of PREV. -/
theorem Inv.emits {d : State} (hd : Inv d) (hst : d.ctl.st = .dEmit) {text : List Byte}
    (hstr : str d.mem d.dec.prev = some text) :
    CoreStep d { d with
      ctl := { d.ctl with st := .dRead }
      port := { d.port with ob := d.port.ob ++ bytesBits text } } := by
  have busy := (hd.control.dec_running (by rw [hst]; rfl)).1
  rw [bytesBits_eq]
  exact .of_row busy hst (i := .decEmit) rfl (decEmitWritesTheString d text hst hstr)

/-- D_RESET writes the string of PREV and starts a new generation. -/
theorem Inv.resets {d : State} (hd : Inv d) (hst : d.ctl.st = .dReset) {text : List Byte}
    (hstr : str d.mem d.dec.prev = some text) :
    CoreStep d { d with
      ctl := { d.ctl with st := .dFirst }
      wid := widStart, arb := arbZero, cnt := { d.cnt with gen := d.cnt.gen + 1 }
      port := { d.port with ob := d.port.ob ++ bytesBits text } } := by
  have hp : decPhase d.ctl.st = true := by rw [hst]; rfl
  have busy := (hd.control.dec_running hp).1
  rw [bytesBits_eq]
  exact .of_row busy hst (i := .decReset) rfl
    (decResetWritesThenReinitializes d text hst (hd.control.dec_side hp) hstr)

/-- At the start of a generation the first emission advances N by one and is no sample. -/
theorem start_next {s : State} (hside : s.ctl.side = .enc) (hwid : s.wid = widStart) :
    nextN s = 258 ∧ promotes s = false ∧ samples s = false := by
  have hgain : gain s = 1 := by rw [gain, hwid]; rfl
  have hpromotes : promotes s = false := by rw [promotes, hgain, hwid, hside]; rfl
  have hnext : nextN s = 258 := by rw [nextN, hgain, hpromotes, hwid]; rfl
  exact ⟨hnext, hpromotes, by rw [samples, hnext, hside]; rfl⟩

/-- A first match after a start: one literal, no sample, and the decoder's N stays at 257. -/
theorem decode_fresh {s d : State} {text : List Byte} {rest : List Bool} {b : Byte} (hd : Inv d)
    (hside : s.ctl.side = .enc) (hlevel : Level s d) (hst : d.ctl.st = .dFirst)
    (hdict : s.mem.dict = []) (hwid : s.wid = widStart) (hcur : s.enc.cur = b.setWidth 16)
    (htext : text = [b]) (hlen : s.enc.curLen.toNat = text.length)
    (hfits : accFits s.enc.curLen.toNat s = true)
    (hwire : Wire d (bitsOf s.enc.cur.toNat s.wid.w.toNat ++ rest)) :
    ∃ d', Decoded s d d' text rest := by
  subst htext
  rw [List.length_singleton] at hlen
  have hwd : d.wid = widStart := hd.decoder.fresh (.inr hst)
  have hw : d.wid.w = s.wid.w := by rw [hwd, hwid]
  have hlit : s.enc.cur.toNat < 256 := by
    rw [hcur, toNat_code_of_byte]
    exact b.isLt
  have hnext : nextCode d = some s.enc.cur := hwire.nextCode (by rw [hw]) (by
    rw [hwid]
    exact hlit.trans (by decide))
  have hrow := decodeFsm_dFirst hnext
  rw [if_neg (by omega), if_pos hlit] at hrow
  obtain ⟨u, hexec, -, hok, -⟩ :=
    (firstCodewordEndsStartsOrFaults d hst).2.1 b (by rw [hnext, hcur])
  have hread : CoreStep d u :=
    .of_row (hd.control.dec_running (by rw [hst]; rfl)).1 hst hrow hexec
  obtain rfl := hok (by rw [hlevel.accFits_eq hw, ← hlen, hfits])
  have hstr : str d.mem (b.setWidth 16) = some [b] := by
    rw [str_hardwired _ (hcur ▸ hlit), code_of_byte]
  have hemit := (hd.coreStep hread).emits rfl hstr
  obtain ⟨hN, hpromotes, hsamples⟩ := start_next hside hwid
  have hreinit : reinitializes s.enc.curLen.toNat s = false := by
    rw [reinitializes, hsamples, Bool.false_and]
  refine ⟨_, ((Relation.ReflTransGen.single hread).tail hemit), rfl, hwire.skip rfl (by rw [← hw]),
    hlevel.pol_eq, hlevel.arith_eq, fun _ => ⟨rfl, ?_, ?_, ?_, ?_, fun _ => ?_, hcur.symm, ?_⟩,
    fun h => absurd h (by rw [hreinit]; decide)⟩
  · rw [sampled_of_not hsamples, hlen]
    exact hlevel.accumulated_eq hw 1
  · simp only [nextWidth, hpromotes, hw]
    rfl
  · simp only [nextWidth, hpromotes, hwd, hwid]
    rfl
  · rw [hN, hwd]
    exact .inl rfl
  · rw [hN, hwd]
    rfl
  · intro p c k hk
    rw [dictLookup, hdict] at hk
    cases hk

/-- The first byte and the length of the match, as D_READ finds them in the table (`41_decoder.md`
R205). -/
theorem MatchKnown.first_len {s d : State} {text : List Byte} (h : MatchKnown s d text)
    (hd : DecPass d) (hprev : prevPhase d.ctl.st = true) (h256 : s.enc.cur.toNat ≠ 256) :
    ∃ first, text.head? = some first
      ∧ (s.enc.cur.toNat < d.wid.n.toNat ∧ first = (tabRead d.mem s.enc.cur).first
          ∧ text.length = (tabRead d.mem s.enc.cur).len.toNat
        ∨ s.enc.cur.toNat = d.wid.n.toNat ∧ first = (tabRead d.mem d.dec.prev).first
          ∧ text.length = (tabRead d.mem d.dec.prev).len.toNat + 1) := by
  rcases h with ⟨hlt, hstr⟩ | ⟨heq, init, b, hstr, hhead, rfl⟩
  · obtain ⟨hlen, hfirst⟩ := hd.links.str_length_head _ hlt h256 hstr
    exact ⟨_, hfirst, .inl ⟨hlt, rfl, hlen⟩⟩
  · obtain ⟨hprevlt, hprev256⟩ := hd.previous hprev
    obtain ⟨hlen, hfirst⟩ := hd.links.str_length_head _ hprevlt hprev256 hstr
    refine ⟨b, by rw [List.head?_append, hhead]; rfl, .inr ⟨heq, ?_, ?_⟩⟩
    · exact Option.some.inj (hhead.symm.trans hfirst)
    · rw [List.length_append, hlen]
      rfl

/-- The table of `t` is that of `d` with the entry `PREV + first` at every code from N on that the
step assigned. -/
def Learned (d t : State) (first : Byte) : Prop :=
  ∀ j : Code, tabRead t.mem j =
    if d.wid.n.toNat ≤ j.toNat ∧ j.toNat < nextN d then
      { prefixCode := d.dec.prev, suffix := first, first := (tabRead d.mem d.dec.prev).first
        len := (tabRead d.mem d.dec.prev).len + 1 }
    else tabRead d.mem j

section

variable {d t : State} {first : Byte} (h : Learned d t first)

include h

theorem Learned.old {j : Code} (hj : j.toNat < d.wid.n.toNat) :
    tabRead t.mem j = tabRead d.mem j := by
  rw [h j, if_neg (by omega)]

theorem Learned.new {j : Code} (hj : j.toNat = d.wid.n.toNat) (hnext : j.toNat < nextN d) :
    (tabRead t.mem j).prefixCode = d.dec.prev ∧ (tabRead t.mem j).suffix = first := by
  rw [h j, if_pos ⟨hj.ge, hnext⟩]
  exact ⟨rfl, rfl⟩

/-- The strings of the old codes are kept. -/
theorem Learned.str_old (hd : DecPass d) {j : Code} (hj : j.toNat < d.wid.n.toNat)
    (h256 : j.toNat ≠ 256) : str t.mem j = str d.mem j :=
  (hd.links.strFuel_congr (fun _ hk _ => (h.old hk).symm) _ j hj h256).symm

/-- The codeword just read names the match in the new table (`41_decoder.md` R205, KWKWK). -/
theorem Learned.str_match {s : State} {text : List Byte} (hd : DecPass d)
    (hprev : prevPhase d.ctl.st = true) (hlinks : LinksOk t.mem (nextN d))
    (hmatch : MatchKnown s d text) (hfirst : text.head? = some first)
    (h256 : s.enc.cur.toNat ≠ 256) (hnext : s.enc.cur.toNat < nextN d) :
    str t.mem s.enc.cur = some text := by
  rcases hmatch with ⟨hlt, hstr⟩ | ⟨heq, init, b, hstr, hhead, rfl⟩
  · rw [h.str_old hd hlt h256, hstr]
  · obtain ⟨hprevlt, hprev256⟩ := hd.previous hprev
    have hmin := hd.width.n_min
    obtain ⟨hprefix, hsuffix⟩ := h.new heq hnext
    obtain ⟨init', hinit', hstr'⟩ := hlinks.str_link (j := s.enc.cur) (by omega) hnext
    rw [hprefix, h.str_old hd hprevlt hprev256, hstr] at hinit'
    rw [List.head?_append, hhead] at hfirst
    rw [hstr', hsuffix, ← Option.some.inj hinit', ← Option.some.inj hfirst]

/-- Every key of the encoder now stands in the table. -/
theorem Learned.entries {s : State} {text : List Byte} (hd : DecPass d)
    (hentries : EntriesKnown s d text) (hfirst : text.head? = some first) {p k : Code} {b : Byte}
    (hk : dictLookup s.mem p b = some k) :
    k.toNat < nextN d ∧ (tabRead t.mem k).prefixCode = p ∧ (tabRead t.mem k).suffix = b := by
  rcases hentries p b k hk with ⟨hlt, hprefix, hsuffix⟩ | ⟨heq, rfl, hb⟩
  · rw [h.old hlt]
    exact ⟨hd.code_lt_nextN hlt.le, hprefix, hsuffix⟩
  · have hnext := hd.code_lt_nextN heq.le
    obtain ⟨hprefix, hsuffix⟩ := h.new heq hnext
    exact ⟨hnext, hprefix, hsuffix.trans (Option.some.inj (hfirst.symm.trans hb))⟩

end

/-- A later match: a code of the decoder's table, or the code it learns next. -/
theorem decode_later {s d : State} {text : List Byte} {rest : List Bool} (hs : Inv s) (hd : Inv d)
    (hside : s.ctl.side = .enc) (hm : matchPhase s.ctl.st = true) (hlevel : Level s d)
    (hst : d.ctl.st = .dRead) (hlag : Lag s d) (hentries : EntriesKnown s d text)
    (hmatch : MatchKnown s d text) (hlen : s.enc.curLen.toNat = text.length)
    (hfits : accFits s.enc.curLen.toNat s = true)
    (hwire : Wire d (bitsOf s.enc.cur.toNat s.wid.w.toNat ++ rest)) :
    ∃ d', Decoded s d d' text rest := by
  have hdec : decPhase d.ctl.st = true := by rw [hst]; rfl
  have hpass := hd.decPass hdec
  have hdside := hpass.side_eq
  have hprev : prevPhase d.ctl.st = true := by rw [hst]; rfl
  have h256 : s.enc.cur.toNat ≠ 256 := (hs.encoder.current hm).2.1
  obtain ⟨hbehind, hnew⟩ := hlag.nextN hs.width hd.width hside hdside
  have hpromotes := hlag.promotes_eq hs.width hd.width hside hdside
  have hsamples := hlag.samples_eq hs.width hd.width hside hdside
  have hreinit := hlevel.reinitializes_eq hlag.w_eq hsamples s.enc.curLen.toNat
  have hnext : nextCode d = some s.enc.cur := hwire.nextCode (by rw [hlag.w_eq])
    (hs.width.l_pow ▸ hs.cur_lt hm)
  obtain ⟨first, hfirst, hfound⟩ := hmatch.first_len hpass hprev h256
  have hle : s.enc.cur.toNat ≤ d.wid.n.toNat := by omega
  have hlt := hpass.code_lt_nextN hle
  obtain ⟨t, hexec, -, -, hctl, htdec, hport, hcnt, hwid, harb, htab, -, -, -, -, harith⟩ :=
    decReadLearnsOneEntry d s.enc.cur first s.enc.curLen.toNat hst hdside hd.width hd.memory hnext
      h256 (by rw [hlen]; exact hfound) (by rw [hlevel.accFits_eq hlag.w_eq, hfits])
  have hrow := decodeFsm_dRead hnext
  rw [if_neg h256, if_pos hle] at hrow
  have hread : CoreStep d t := .of_row (hd.control.dec_running hdec).1 hst hrow hexec
  have ht := hd.coreStep hread
  have hlearned : Learned d t first := htab
  have hn : t.wid.n.toNat = nextN d := by rw [hwid, hd.width.nextWidth_n]
  have htphase : decPhase t.ctl.st = true := by
    rw [hctl]
    cases reinitializes s.enc.curLen.toNat d <;> rfl
  have hlinks := ht.decoder.links htphase
  rw [hn] at hlinks
  have hstr : str t.mem t.dec.prev = some text := by
    rw [htdec]
    exact hlearned.str_match hpass hprev hlinks hmatch hfirst h256 hlt
  have hw : d.wid.w.toNat = s.wid.w.toNat := by rw [hlag.w_eq]
  have hbp : t.port.bp = d.port.bp + s.wid.w.toNat := by rw [hport, hw]
  have hinp : t.port.inp = d.port.inp := by rw [hport]
  have hob : t.port.ob = d.port.ob := by rw [hport]
  have hpol : t.ctl.pol = s.ctl.pol := by rw [hctl]; exact hlevel.pol_eq
  cases hr : reinitializes s.enc.curLen.toNat s with
  | true =>
    have htst : t.ctl.st = .dReset := by rw [hctl, hreinit, hr]; rfl
    refine ⟨_, (Relation.ReflTransGen.single hread).tail (ht.resets htst hstr), by rw [← hob],
      hwire.skip hinp hbp, hpol, harith.trans hlevel.arith_eq, ?_, fun _ => ⟨rfl, rfl⟩⟩
    exact fun h => absurd h (by rw [hr]; decide)
  | false =>
    have htst : t.ctl.st = .dEmit := by rw [hctl, hreinit, hr]; rfl
    refine ⟨_, (Relation.ReflTransGen.single hread).tail (ht.emits htst hstr), by rw [← hob],
      hwire.skip hinp hbp, hpol, harith.trans hlevel.arith_eq, fun _ => ⟨rfl, ?_, ?_, ?_, ?_, ?_,
      ?_, fun p b k hk => ?_⟩, ?_⟩
    · change t.arb = _
      rw [harb, hreinit, hr, hlevel.sampled_eq hlag.w_eq hsamples]
      rfl
    · change t.wid.w = _
      rw [hwid]
      simp only [nextWidth, hpromotes, hlag.w_eq]
    · change t.wid.l = _
      rw [hwid]
      simp only [nextWidth, hpromotes, hlag.l_eq]
    · exact hn.symm ▸ hbehind
    · exact hn.symm ▸ hnew
    · exact congrArg DecData.prev htdec
    · obtain ⟨hklt, hprefix, hsuffix⟩ := hlearned.entries hpass hentries hfirst hk
      exact ⟨hn.symm ▸ hklt, hprefix, hsuffix⟩
    · exact fun h => absurd h (by rw [hr]; decide)

/-- Reading the codeword of the current match, the decoder writes the match. -/
theorem Follows.decode {s d : State} {text : List Byte} {rest : List Bool}
    (h : Follows s d text) (hs : Inv s) (hd : Inv d) (hm : matchPhase s.ctl.st = true)
    (hside : s.ctl.side = .enc) (hlevel : Level s d) (hlen : s.enc.curLen.toNat = text.length)
    (hfits : accFits s.enc.curLen.toNat s = true)
    (hwire : Wire d (bitsOf s.enc.cur.toNat s.wid.w.toNat ++ rest)) :
    ∃ d', Decoded s d d' text rest := by
  cases h with
  | fresh b hst hdict hwid hcur htext =>
    exact decode_fresh hd hside hlevel hst hdict hwid hcur htext hlen hfits hwire
  | later hst hlag hentries hmatch =>
    exact decode_later hs hd hside hm hlevel hst hlag hentries hmatch hlen hfits hwire

end Sys2Proof.Machine
end


section
/-! PROOFS. Decoding the encoded stream gives the input (`41_decoder.md` R213): an induction over
the input the encoder has not read, with the decoder reading what the rest of the encoder's run
writes. -/

namespace Sys2Proof.Machine

/-! ### What a pass writes, and what a decoder makes of it -/

/-- The encoder runs from `s` to DONE, and a decoder in a state of `F` that reads what the run
writes comes to DONE with `input` as its output. -/
def Roundtrip (s : State) (F : State → Prop) (input : List Byte) : Prop :=
  ∃ e rest, Runs s e ∧ e.ctl.st = .done ∧ e.port.ob = s.port.ob ++ rest
    ∧ ∀ d, Inv d → F d → Wire d rest → ∃ d', Runs d d' ∧ d'.ctl.st = .done ∧ outBytes d' = input

/-- One transition of the encoder before, and what the decoder does with the bits it writes. -/
theorem Roundtrip.step {s t : State} {F G : State → Prop} {input : List Byte} {bits : List Bool}
    (hstep : CoreStep s t) (hob : t.port.ob = s.port.ob ++ bits)
    (hdecode : ∀ d rest, Inv d → F d → Wire d (bits ++ rest) →
      ∃ d', Runs d d' ∧ G d' ∧ Wire d' rest)
    (ht : Roundtrip t G input) : Roundtrip s F input := by
  obtain ⟨e, rest, hruns, hdone, hrest, hreads⟩ := ht
  refine ⟨e, bits ++ rest, hruns.head hstep, hdone, by rw [hrest, hob, List.append_assoc], ?_⟩
  intro d hd hF hwire
  obtain ⟨u, hu, hG, hwire'⟩ := hdecode d rest hd hF hwire
  obtain ⟨d', hd', hend⟩ := hreads u (hd.runs hu) hG hwire'
  exact ⟨d', hu.trans hd', hend⟩

/-- A transition of the encoder that writes nothing. -/
theorem Roundtrip.silent {s t : State} {F G : State → Prop} {input : List Byte}
    (hstep : CoreStep s t) (hob : t.port.ob = s.port.ob) (hFG : ∀ d, Inv d → F d → G d)
    (ht : Roundtrip t G input) : Roundtrip s F input :=
  ht.step (bits := []) hstep (by rw [hob, List.append_nil])
    fun d _ hd hF hwire => ⟨d, .refl, hFG d hd hF, hwire⟩

/-! ### The end of the stream -/

/-- The decoder is about to read a codeword of the width the encoder writes, its output is `out`. -/
structure AwaitsEnd (s : State) (out : List Byte) (d : State) : Prop where
  reading : d.ctl.st = .dFirst ∨ d.ctl.st = .dRead
  w_eq : d.wid.w = s.wid.w
  ob_eq : d.port.ob = bytesBits out

theorem outBytes_of_padded {d : State} {out : List Byte} {pad : ℕ} (hpad : pad < 8)
    (hwhole : ((bytesBits out).length + pad) % 8 = 0)
    (hob : d.port.ob = bytesBits out ++ List.replicate pad false) : outBytes d = out := by
  rw [bytesBits_length] at hwhole
  obtain rfl : pad = 0 := by omega
  rw [outBytes, hob, List.replicate_zero, List.append_nil, packBytes_bytesBits]

/-- The decoder takes the codeword EOF in either state, and its output stands. -/
theorem AwaitsEnd.ends {s d : State} {out : List Byte} (h : AwaitsEnd s out d) (hd : Inv d)
    (hnext : nextCode d = some 256) :
    ∃ d', CoreStep d d' ∧ d'.ctl.st = .done ∧ outBytes d' = out := by
  have hrunning : decPhase d.ctl.st = true := by
    rcases h.reading with hst | hst <;> rw [hst] <;> rfl
  have busy := (hd.control.dec_running hrunning).1
  rcases h.reading with hst | hst
  · obtain ⟨pad, u, hpad, hwhole, hexec, -, rfl⟩ := (firstCodewordEndsStartsOrFaults d hst).1 hnext
    rw [h.ob_eq] at hwhole
    exact ⟨_, .of_row busy hst (decodeFsm_dFirst hnext) hexec, rfl,
      outBytes_of_padded hpad hwhole (by rw [← h.ob_eq])⟩
  · obtain ⟨pad, u, hpad, hwhole, hexec, -, rfl⟩ := (decReadEndsOrFaults d hst).1 hnext
    rw [h.ob_eq] at hwhole
    exact ⟨_, .of_row busy hst (decodeFsm_dRead hnext) hexec, rfl,
      outBytes_of_padded hpad hwhole (by rw [← h.ob_eq])⟩

theorem eEof_roundtrip {s : State} (hs : Inv s) (hst : s.ctl.st = .eEof) (out : List Byte) :
    Roundtrip s (AwaitsEnd s out) out := by
  obtain ⟨pad, -, -, hexec⟩ := encEofClosesTheStream s hst
  have hstep : CoreStep s _ :=
    .of_row (hs.control.enc_running (by rw [hst]; rfl)).1 hst rfl hexec
  refine ⟨_, _, .single hstep, rfl, List.append_assoc _ _ _, fun d hd hF hwire => ?_⟩
  have h256 : (256 : Code).toNat < 2 ^ s.wid.w.toNat := by
    calc (256 : Code).toNat < 2 ^ 9 := by decide
      _ ≤ 2 ^ s.wid.w.toNat := Nat.pow_le_pow_right two_pos hs.width.w_min
  obtain ⟨d', hread, hdone, hout⟩ := hF.ends hd (hwire.nextCode (cw := 256) (by rw [hF.w_eq]) h256)
  exact ⟨d', .single hread, hdone, hout⟩

/-! ### The encoder's current match -/

/-- The encoder has emitted `out`, matches `text` and has not read `left`. -/
structure Encoding (s : State) (out text left : List Byte) : Prop where
  inv : Inv s
  matching : matchPhase s.ctl.st = true
  inp_eq : s.port.inp = out ++ text ++ left
  len_eq : s.enc.curLen.toNat = text.length
  num_le : s.arb.accNum.toNat ≤ 8 * out.length
  den_le : s.arb.accDen.toNat ≤ 16 * out.length
  short : s.ctl.pol = .monitored → s.port.inp.length < 2 ^ 60

theorem Encoding.text_pos {s : State} {out text left : List Byte} (h : Encoding s out text left) :
    1 ≤ text.length := h.len_eq ▸ (h.inv.encoder.current h.matching).2.2.2.1

theorem Encoding.fits {s : State} {out text left : List Byte} (h : Encoding s out text left) :
    accFits s.enc.curLen.toNat s = true := by
  by_cases hp : s.ctl.pol = .monitored
  · have hshort := h.short hp
    have hnum := h.num_le
    have hden := h.den_le
    have hpos := h.text_pos
    have hw := h.inv.width.w_max
    rw [h.inp_eq, List.length_append, List.length_append] at hshort
    simp only [accFits, hp, h.len_eq, ne_eq, not_true, decide_false, Bool.false_or,
      Bool.and_eq_true, decide_eq_true_eq]
    omega
  · simp [accFits, hp]

/-- The decoder follows the match, and its output is `out`. -/
structure Pursues (s : State) (out text : List Byte) (d : State) : Prop where
  level : Level s d
  follows : Follows s d text
  ob_eq : d.port.ob = bytesBits out

theorem Lag.frame {s t d : State} (h : Lag s d) (hwid : t.wid = s.wid) : Lag t d :=
  ⟨by rw [hwid]; exact h.w_eq, by rw [hwid]; exact h.l_eq, by rw [hwid]; exact h.behind⟩

/-- The decoder does not see the encoder's state, input and missed byte. -/
theorem Pursues.frame {s t d : State} {out text : List Byte} (h : Pursues s out text d)
    (hmem : t.mem = s.mem) (hwid : t.wid = s.wid) (hcur : t.enc.cur = s.enc.cur)
    (hpol : t.ctl.pol = s.ctl.pol) (harb : t.arb = s.arb) (harith : t.ratioArith = s.ratioArith) :
    Pursues t out text d := by
  obtain ⟨⟨hpol', harb', harith'⟩, hfollows, hob⟩ := h
  refine ⟨⟨hpol'.trans hpol.symm, harb'.trans harb.symm, harith'.trans harith.symm⟩, ?_, hob⟩
  cases hfollows with
  | fresh b hst hdict hwid' hcur' htext =>
    exact .fresh b hst (by rw [hmem, hdict]) (hwid.trans hwid') (hcur.trans hcur') htext
  | later hst hlag hentries hmatch =>
    refine .later hst (hlag.frame hwid) ?_ ?_
    · unfold EntriesKnown
      rw [hmem]
      exact hentries
    · unfold MatchKnown
      rw [hcur]
      exact hmatch

/-- A dictionary hit extends the match the decoder follows by the byte read. -/
theorem Follows.extend {s t d : State} {text : List Byte} {c : Byte} {k : Code}
    (h : Follows s d text) (hs : Inv s) (hd : Inv d) (hside : encPhase s.ctl.st = true)
    (hk : dictLookup s.mem s.enc.cur c = some k) (hmem : t.mem = s.mem) (hwid : t.wid = s.wid)
    (hcur : t.enc.cur = k) (hpos : 1 ≤ text.length) : Follows t d (text ++ [c]) := by
  cases h with
  | fresh b hst hdict hwid' hcur' htext =>
    rw [dictLookup, hdict] at hk
    cases hk
  | later hst hlag hentries hmatch =>
    have hhead : (text ++ [c]).head? = text.head? := by
      cases text with
      | nil => cases hpos
      | cons b bs => rfl
    refine .later hst (hlag.frame hwid) ?_ ?_
    · unfold EntriesKnown
      rw [hmem, hhead]
      exact hentries
    · have hpass := hd.decPass (by rw [hst]; rfl)
      have hprev := (hpass.previous (by rw [hst]; rfl)).1
      have h257 := (hs.encoder.learned hside _ _ _ hk).1
      unfold MatchKnown
      rw [hcur]
      rcases hentries _ _ _ hk with ⟨hlt, hprefix, hsuffix⟩ | ⟨heq, hlast, hfirst⟩
      · have hbelow := (hpass.links k h257 hlt).below
        obtain ⟨init, hinit, hstr⟩ := hpass.links.str_link h257 hlt
        rw [hprefix] at hbelow hinit
        rcases hmatch with ⟨-, hcurstr⟩ | ⟨hnew, -⟩
        · rw [hcurstr] at hinit
          rw [hstr, hsuffix, Option.some.inj hinit]
          exact .inl ⟨hlt, rfl⟩
        · omega
      · rcases hmatch with ⟨-, hcurstr⟩ | ⟨hnew, -⟩
        · exact .inr ⟨heq, text, c, by rw [← hlast, hcurstr], hfirst, rfl⟩
        · rw [hlast] at hnew
          omega

/-! ### Emitting the match -/

theorem bytesBits_append (as bs : List Byte) :
    bytesBits (as ++ bs) = bytesBits as ++ bytesBits bs := by
  simp only [bytesBits_eq, List.flatMap_append]

/-- The decoder reads the codeword the encoder emits. -/
theorem Pursues.decode {s d : State} {out text left : List Byte} {rest : List Bool}
    (h : Pursues s out text d) (hs : Encoding s out text left) (hd : Inv d)
    (hside : s.ctl.side = .enc)
    (hwire : Wire d (bitsOf s.enc.cur.toNat s.wid.w.toNat ++ rest)) :
    ∃ d', Decoded s d d' text rest ∧ d'.port.ob = bytesBits (out ++ text) := by
  obtain ⟨d', hdecoded⟩ :=
    h.follows.decode hs.inv hd hs.matching hside h.level hs.len_eq hs.fits hwire
  exact ⟨d', hdecoded, by rw [hdecoded.ob_eq, h.ob_eq, bytesBits_append]⟩

/-- The last match goes out, and EOF follows at the width the decoder has reached. -/
theorem eLast_roundtrip {s : State} {out text : List Byte} (hs : Encoding s out text [])
    (hst : s.ctl.st = .eLast) : Roundtrip s (Pursues s out text) (out ++ text) := by
  obtain ⟨busy, -, -, hside⟩ := hs.inv.control.enc_running (by rw [hst]; rfl)
  obtain ⟨t, hexec, hctl, hport, -, -, -, -, -, -, -, hkeep, hreinit⟩ :=
    encLastAdvancesTheCounterOnly s hst hside hs.inv.width (hs.inv.cur_lt hs.matching) hs.fits
  have hstep : CoreStep s t := .of_row busy hst rfl hexec
  refine .step hstep (by rw [hport]) (fun d rest hd hF hwire => ?_)
    (eEof_roundtrip (hs.inv.coreStep hstep) (by rw [hctl]) _)
  obtain ⟨d', hdecoded, hob⟩ := hF.decode hs hd hside hwire
  have hd' := hd.runs hdecoded.runs
  refine ⟨d', hdecoded.runs, ?_, hdecoded.wire⟩
  cases hr : reinitializes s.enc.curLen.toNat s with
  | true =>
    have hdst := (hdecoded.restarted hr).1
    exact ⟨.inl hdst, by rw [hd'.decoder.fresh (.inr hdst), (hreinit hr).1], hob⟩
  | false =>
    have hcaught := hdecoded.caught hr
    exact ⟨.inr hcaught.st_eq, by rw [hcaught.w_eq, (hkeep hr).1], hob⟩

/-- A first sample leaves the accumulators alone. -/
theorem sampled_acc (len : ℕ) (s : State) :
    (sampled len s).accNum = (accumulated len s).accNum
      ∧ (sampled len s).accDen = (accumulated len s).accDen := by
  unfold sampled
  split <;> exact ⟨rfl, rfl⟩

/-- The accumulators stay below the input read: eight bits for a byte, at most sixteen for a
codeword. -/
theorem Encoding.sampled_le {s : State} {out text left : List Byte}
    (h : Encoding s out text left) :
    (sampled s.enc.curLen.toNat s).accNum.toNat ≤ 8 * (out ++ text).length
      ∧ (sampled s.enc.curLen.toNat s).accDen.toNat ≤ 16 * (out ++ text).length := by
  obtain ⟨hnum, hden⟩ := sampled_acc s.enc.curLen.toNat s
  have hnum' := h.num_le
  have hden' := h.den_le
  have hpos := h.text_pos
  have hw := h.inv.width.w_max
  rw [hnum, hden, List.length_append]
  by_cases hp : s.ctl.pol = .monitored
  · obtain ⟨hn, hd⟩ := accumulated_toNat h.fits hp
    rw [hn, hd, h.len_eq]
    omega
  · rw [accumulated, if_neg hp]
    omega

/-- After E_STEP the decoder follows the match that starts at the missed byte: the key just learned
is the one it has still to learn. -/
theorem Decoded.follows {s d d' t : State} {text : List Byte} {rest : List Bool}
    (h : Decoded s d d' text rest) (hs : WidthInv s) (hd' : WidthInv d')
    (hcur : t.enc.cur = s.enc.nxt.setWidth 16)
    (hkeep : reinitializes s.enc.curLen.toNat s = false → t.wid = nextWidth s
      ∧ ∀ p b, dictLookup t.mem p b =
          if p = s.enc.cur ∧ b = s.enc.nxt ∧ s.wid.n.toNat < nextN s
          then some (BitVec.ofNat 16 (nextN s - 1)) else dictLookup s.mem p b)
    (hreinit : reinitializes s.enc.curLen.toNat s = true → t.wid = widStart ∧ t.mem.dict = []) :
    Follows t d' [s.enc.nxt] := by
  cases hr : reinitializes s.enc.curLen.toNat s with
  | true =>
    obtain ⟨hwid, hdict⟩ := hreinit hr
    exact .fresh s.enc.nxt (h.restarted hr).1 hdict hwid hcur rfl
  | false =>
    obtain ⟨hwid, hdict⟩ := hkeep hr
    obtain ⟨hst, -, hw, hl, hbehind, hnew, hprev, hentries⟩ := h.caught hr
    refine .later hst ⟨by rw [hw, hwid], by rw [hl, hwid], ?_⟩ (fun p b k hk => ?_) (.inl ⟨?_, ?_⟩)
    · rw [hwid, hs.nextWidth_n]
      exact hbehind
    · rw [hdict] at hk
      split at hk
      next hkey =>
        obtain ⟨hp, hb, hlt⟩ := hkey
        have hle := hs.nextN_le
        have hone := hnew hlt
        refine .inr ⟨?_, hp.trans hprev.symm, by rw [hb]; rfl⟩
        rw [← Option.some.inj hk, BitVec.toNat_ofNat, Nat.mod_eq_of_lt (by omega)]
        omega
      next => exact .inl (hentries p b k hk)
    · have hmin := hd'.n_min
      have hbyte := s.enc.nxt.isLt
      rw [hcur, toNat_code_of_byte]
      omega
    · have hbyte : (s.enc.nxt.setWidth 16 : Code).toNat < 256 := by
        rw [toNat_code_of_byte]
        exact s.enc.nxt.isLt
      rw [hcur, str_hardwired _ hbyte, code_of_byte]

/-- The match goes out, and the next one starts at the missed byte. -/
theorem eStep_roundtrip {s : State} {out text left input : List Byte} {c : Byte}
    (hs : Encoding s out text (c :: left)) (hst : s.ctl.st = .eStep) (hnxt : s.enc.nxt = c)
    (hrest : ∀ t, Encoding t (out ++ text) [c] left → t.ctl.st = .eScan →
      t.port.ip = s.port.ip → Roundtrip t (Pursues t (out ++ text) [c]) input) :
    Roundtrip s (Pursues s out text) input := by
  subst hnxt
  obtain ⟨busy, -, -, hside⟩ := hs.inv.control.enc_running (by rw [hst]; rfl)
  obtain ⟨t, hexec, hctl, hport, -, henc, -, -, -, -, harith, hkeep, hreinit⟩ :=
    encStepEmitsLearnsAndConsults s hst hside hs.inv.width (hs.inv.cur_lt hs.matching) hs.fits
  have hstep : CoreStep s t := .of_row busy hst rfl hexec
  obtain ⟨hnum, hden⟩ := hs.sampled_le
  have hpol : t.ctl.pol = s.ctl.pol := by rw [hctl]
  have ht : Encoding t (out ++ text) [s.enc.nxt] left := by
    refine ⟨hs.inv.coreStep hstep, by rw [hctl]; rfl, ?_, by rw [henc]; rfl, ?_, ?_, ?_⟩
    · rw [hport]
      simp [hs.inp_eq]
    · cases hr : reinitializes s.enc.curLen.toNat s with
      | true => rw [(hreinit hr).2.1]; exact Nat.zero_le _
      | false => rw [(hkeep hr).2.1]; exact hnum
    · cases hr : reinitializes s.enc.curLen.toNat s with
      | true => rw [(hreinit hr).2.1]; exact Nat.zero_le _
      | false => rw [(hkeep hr).2.1]; exact hden
    · rw [hpol, hport]
      exact hs.short
  refine .step hstep (by rw [hport]) (fun d rest hd hF hwire => ?_)
    (hrest t ht (by rw [hctl]) (by rw [hport]))
  obtain ⟨d', hdecoded, hob⟩ := hF.decode hs hd hside hwire
  have hd' := hd.runs hdecoded.runs
  refine ⟨d', hdecoded.runs, ⟨⟨hdecoded.pol_eq.trans hpol.symm, ?_,
    hdecoded.arith_eq.trans harith.symm⟩, ?_, hob⟩, hdecoded.wire⟩
  · cases hr : reinitializes s.enc.curLen.toNat s with
    | true => rw [(hreinit hr).2.1, (hdecoded.restarted hr).2]
    | false => rw [(hkeep hr).2.1, (hdecoded.caught hr).arb_eq]
  · exact hdecoded.follows hs.inv.width hd'.width (by rw [henc])
      (fun hr => ⟨(hkeep hr).1, (hkeep hr).2.2.2⟩) fun hr => ⟨(hreinit hr).1, (hreinit hr).2.2.2⟩

end Sys2Proof.Machine
end


section
/-! PROOFS. The whole pass (`41_decoder.md` R213): the encoder's scan by induction over the input
left, the mode tag and the first byte before it, and the two host programs around the two runs. -/

namespace Sys2Proof.Machine

/-! ### The scan -/

/-- A transition of the encoder that the decoder does not see. -/
theorem Roundtrip.pursued {s t : State} {out text input : List Byte} (hstep : CoreStep s t)
    (hob : t.port.ob = s.port.ob) (hmem : t.mem = s.mem) (hwid : t.wid = s.wid)
    (hcur : t.enc.cur = s.enc.cur) (hpol : t.ctl.pol = s.ctl.pol) (harb : t.arb = s.arb)
    (harith : t.ratioArith = s.ratioArith) (ht : Roundtrip t (Pursues t out text) input) :
    Roundtrip s (Pursues s out text) input :=
  ht.silent hstep hob fun _ _ hF => hF.frame hmem hwid hcur hpol harb harith

/-- From E_SCAN the pass round-trips, by induction over the input the encoder has not read. -/
theorem eScan_roundtrip : ∀ (left : List Byte) {s : State} {out text : List Byte},
    Encoding s out text left → s.ctl.st = .eScan → s.port.ip = (out ++ text).length →
    Roundtrip s (Pursues s out text) (out ++ text ++ left)
  | [], s, out, text, hs, hst, hip => by
    have busy := (hs.inv.control.enc_running (by rw [hst]; rfl)).1
    have hend : s.port.inp.length ≤ s.port.ip := by rw [hs.inp_eq, hip, List.append_nil]
    have hrow : decodeFsm (viewOf s) Phase.eScan.code = .instr .encScanEnd := by
      simp [decodeFsm, phaseOfCode_code, viewOf, inEmpty_of_le hend]
    have hstep : CoreStep s _ :=
      .of_row busy hst hrow ((encScanExtendsOrEndsTheMatch s hst).2.2 hend)
    rw [List.append_nil]
    refine .pursued hstep rfl rfl rfl rfl rfl rfl rfl (eLast_roundtrip ?_ rfl)
    exact ⟨hs.inv.coreStep hstep, rfl, hs.inp_eq, hs.len_eq, hs.num_le, hs.den_le, hs.short⟩
  | c :: left, s, out, text, hs, hst, hip => by
    have busy := (hs.inv.control.enc_running (by rw [hst]; rfl)).1
    have henc : encPhase s.ctl.st = true := by rw [hst]; rfl
    have hbyte : nextByte s = some c := by
      rw [nextByte, hs.inp_eq, hip, List.getElem?_append_right le_rfl, Nat.sub_self]
      rfl
    have hlookup := nextLookup_of_nextByte hbyte
    obtain ⟨hhit, hmiss, -⟩ := encScanExtendsOrEndsTheMatch s hst
    cases hk : dictLookup s.mem s.enc.cur c with
    | some k =>
      have hrow : decodeFsm (viewOf s) Phase.eScan.code = .instr .encScanHit := by
        simp [decodeFsm, phaseOfCode_code, viewOf, inEmpty, hbyte, hlookup, hk]
      have hstep : CoreStep s _ := .of_row busy hst hrow (hhit c k hbyte hk)
      obtain ⟨-, -, -, hlen, -⟩ := hs.inv.match_extends hst hk
      have hinput : out ++ text ++ c :: left = out ++ (text ++ [c]) ++ left := by simp
      rw [hinput]
      refine .silent hstep rfl (fun d hd hF =>
        ⟨⟨hF.level.pol_eq, hF.level.arb_eq, hF.level.arith_eq⟩,
        hF.follows.extend hs.inv hd henc hk rfl rfl rfl hs.text_pos, hF.ob_eq⟩)
        (eScan_roundtrip left ?_ hst ?_)
      · refine ⟨hs.inv.coreStep hstep, hs.matching, hs.inp_eq.trans hinput, ?_, hs.num_le,
          hs.den_le, hs.short⟩
        change (s.enc.curLen + 1).toNat = _
        rw [hlen, hs.len_eq, List.length_append]
        rfl
      · change s.port.ip + 1 = _
        rw [hip]
        simp [Nat.add_assoc]
    | none =>
      have hrow : decodeFsm (viewOf s) Phase.eScan.code = .instr .encScanMiss := by
        simp [decodeFsm, phaseOfCode_code, viewOf, inEmpty, hbyte, hlookup, hk]
      have hstep : CoreStep s _ := .of_row busy hst hrow (hmiss c hbyte hk)
      refine .pursued hstep rfl rfl rfl rfl rfl rfl rfl
        (eStep_roundtrip (left := left) ?_ rfl rfl fun t ht htst htip => ?_)
      · exact ⟨hs.inv.coreStep hstep, rfl, hs.inp_eq, hs.len_eq, hs.num_le, hs.den_le, hs.short⟩
      · have hinput : out ++ text ++ c :: left = out ++ text ++ [c] ++ left := by simp
        rw [hinput]
        refine eScan_roundtrip left ht htst (htip.trans ?_)
        change s.port.ip + 1 = _
        rw [hip, List.length_append (bs := [c])]
        rfl

/-! ### The start of the pass -/

/-- The decoder is at the start of the first generation with nothing written. -/
structure Started (s d : State) : Prop where
  st_eq : d.ctl.st = .dFirst
  level : Level s d
  ob_eq : d.port.ob = []

/-- The encoder is at the start of a pass over `input`. -/
structure Starting (s : State) (input : List Byte) : Prop where
  inv : Inv s
  inp_eq : s.port.inp = input
  ip_eq : s.port.ip = 0
  arb_eq : s.arb = arbZero
  short : s.ctl.pol = .monitored → input.length < 2 ^ 60

/-- The first byte starts the first match; empty input ends the stream at once. -/
theorem eFirst_roundtrip {s : State} {input : List Byte} (hs : Starting s input)
    (hst : s.ctl.st = .eFirst) : Roundtrip s (Started s) input := by
  have busy := (hs.inv.control.enc_running (by rw [hst]; rfl)).1
  obtain ⟨hdict, hwid⟩ := hs.inv.encoder.fresh (.inr hst)
  obtain ⟨hempty, hfirst⟩ := encFirstTakesTheFirstByte s hst
  cases input with
  | nil =>
    have hend : s.port.inp.length ≤ s.port.ip := by rw [hs.inp_eq]; exact Nat.zero_le _
    have hrow : decodeFsm (viewOf s) Phase.eFirst.code = .instr .encFirstEmpty := by
      simp [decodeFsm, phaseOfCode_code, viewOf, inEmpty_of_le hend]
    have hstep : CoreStep s _ := .of_row busy hst hrow (hempty hend)
    refine .silent hstep rfl (fun d hd hF => ⟨.inl hF.st_eq, ?_, hF.ob_eq⟩)
      (eEof_roundtrip (hs.inv.coreStep hstep) rfl [])
    rw [hd.decoder.fresh (.inr hF.st_eq)]
    exact (congrArg Width.w hwid).symm
  | cons b left =>
    have hbyte : nextByte s = some b := by
      rw [nextByte, hs.inp_eq, hs.ip_eq]
      rfl
    have hrow : decodeFsm (viewOf s) Phase.eFirst.code = .instr .encFirstByte := by
      simp [decodeFsm, phaseOfCode_code, viewOf, inEmpty, hbyte]
    have hstep : CoreStep s _ := .of_row busy hst hrow (hfirst b hbyte)
    refine .silent hstep rfl (fun d _ hF => ⟨⟨hF.level.pol_eq, hF.level.arb_eq, hF.level.arith_eq⟩,
      .fresh b hF.st_eq hdict hwid rfl rfl, hF.ob_eq⟩)
      (eScan_roundtrip left (out := []) (text := [b]) ?_ rfl (congrArg (· + 1) hs.ip_eq))
    refine ⟨hs.inv.coreStep hstep, rfl, hs.inp_eq, rfl, ?_, ?_, ?_⟩
    · exact (congrArg (fun a : Arbiter => a.accNum.toNat) hs.arb_eq).le
    · exact (congrArg (fun a : Arbiter => a.accDen.toNat) hs.arb_eq).le
    · intro hp
      change s.port.inp.length < 2 ^ 60
      rw [hs.inp_eq]
      exact hs.short hp

/-- The decoder waits for the mode tag with nothing written. -/
structure AwaitsTag (s d : State) : Prop where
  st_eq : d.ctl.st = .dTag
  arith_eq : d.ratioArith = s.ratioArith
  ob_eq : d.port.ob = []

/-- The mode tag goes out, and the decoder takes the policy from it. -/
theorem eTag_roundtrip {s : State} {input : List Byte} (hs : Starting s input)
    (hst : s.ctl.st = .eTag) : Roundtrip s (AwaitsTag s) input := by
  have busy := (hs.inv.control.enc_running (by rw [hst]; rfl)).1
  have hexec : exec .encTag s = .next (goto .eFirst (bitWrite s.ctl.pol.tag.toNat 8 s)) := by
    simp [exec, execEncTag, hst]
  have hstep : CoreStep s _ := .of_row busy hst rfl hexec
  refine .step hstep rfl (fun d rest hd hF hwire => ?_) (eFirst_roundtrip (input := input) ?_ rfl)
  · obtain ⟨u, hdec, -, rfl⟩ := (decTagSelectsThePolicy d hF.st_eq).1 s.ctl.pol hwire.nextTag
    have hread : CoreStep d _ :=
      .of_row (hd.control.dec_running (by rw [hF.st_eq]; rfl)).1 hF.st_eq rfl hdec
    refine ⟨_, .single hread, ⟨rfl, ⟨rfl, ?_, hF.arith_eq⟩, hF.ob_eq⟩, hwire.skip rfl rfl⟩
    exact (hd.arbiter.unused (.inr hF.st_eq)).trans hs.arb_eq.symm
  · exact ⟨hs.inv.coreStep hstep, hs.inp_eq, hs.ip_eq, hs.arb_eq, hs.short⟩

/-! ### The host programs -/

/-- At DONE the core is not busy. -/
theorem Inv.idle_of_done {s : State} (h : Inv s) (hst : s.ctl.st = .done) : s.ctl.busy = false := by
  rw [h.control.busy_running, hst]
  rfl

/-- `COMPRESS p` brings an idle machine to the end of a pass that round-trips: a decoder that waits
for the tag with the output as its input ends in DONE with the input as its output. -/
theorem compress_completes {s : State} {p : Policy} (hidle : s.ctl.busy = false)
    (hmem : s.mem.wf = true) (hshort : p = .monitored → s.port.inp.length < 2 ^ 60) (r : CsrWord) :
    ∃ e, e.ctl.st = .done ∧ Completes (s.beside { rdata := r, pending := compressProgram p }) e
      ∧ ∀ d, Inv d → d.ctl.st = .dTag → d.ratioArith = s.ratioArith → d.port.ob = [] →
          d.port.bp = 0 → d.port.inp = outBytes e →
          ∃ d', Runs d d' ∧ d'.ctl.st = .done ∧ outBytes d' = s.port.inp := by
  have hcmd : ((0 : BitVec 16) ++ p.tag ++ opCompress).extractLsb' 0 16 = p.tag ++ opCompress := by
    cases p <;> decide
  have hpass : startPass (s.withCmd (p.tag ++ opCompress))
      = startCompress p (s.withCmd (p.tag ++ opCompress)) :=
    startPass_compress (cmdOp_append _ _) (cmdPolicy_append _ _)
  have hstart : Starting (startCompress p (s.withCmd (p.tag ++ opCompress))) s.port.inp :=
    ⟨startCompress_inv (s := s.withCmd (p.tag ++ opCompress)) hmem p, rfl, rfl, rfl, hshort⟩
  obtain ⟨e, rest, hruns, hdone, hob, hreads⟩ := eTag_roundtrip hstart rfl
  refine ⟨e, hdone, completes_of_program hidle (by rw [hcmd, hpass]; exact hruns)
    ((hstart.inv.runs hruns).idle_of_done hdone) r, ?_⟩
  intro d hd hst harith hempty hbp hinp
  refine hreads d hd ⟨hst, harith, hempty⟩ ⟨[], ?_, hbp⟩
  rw [hinp, outBytes, hob]
  rfl

/-- `EXPAND` brings an idle machine to the end of the decoder's run over its input. -/
theorem expand_completes {d d' : State} (hidle : d.ctl.busy = false) (hmem : d.mem.wf = true)
    (hruns : Runs (startExpand (d.withCmd ((0 : Byte) ++ opExpand))) d')
    (hdone : d'.ctl.st = .done) (r : CsrWord) :
    Completes (d.beside { rdata := r, pending := expandProgram }) d' := by
  have hcmd : ((0 : BitVec 24) ++ opExpand).extractLsb' 0 16 = (0 : Byte) ++ opExpand := by decide
  have hpass : startPass (d.withCmd ((0 : Byte) ++ opExpand))
      = startExpand (d.withCmd ((0 : Byte) ++ opExpand)) :=
    startPass_expand (cmdOp_append _ _)
  refine completes_of_program hidle (by rw [hcmd, hpass]; exact hruns) ?_ r
  have hinv := startExpand_inv (s := d.withCmd ((0 : Byte) ++ opExpand)) hmem
  exact (hinv.runs hruns).idle_of_done hdone

/-- Settles O56: the compress program runs to an end whose output the expand program's run
decodes. -/
theorem decodingTheEncodedStreamGivesTheInput :
    Obligations.DecodingTheEncodedStreamGivesTheInput := by
  intro s0 d0 p input hsidle hdidle hsmem hdmem harith hshort
  obtain ⟨e, hedone, ⟨k, he, hrun, hepending⟩, hreads⟩ := compress_completes
    (s := { s0 with port := { s0.port with inp := input } }) (p := p) hsidle hsmem hshort
    s0.host.rdata
  obtain ⟨d', hruns, hddone, hout⟩ := hreads
    (startExpand (State.withCmd { d0 with port := { d0.port with inp := outBytes e } }
      ((0 : Byte) ++ opExpand)))
    (startExpand_inv hdmem) rfl harith rfl rfl rfl
  obtain ⟨j, hd, hrun', hdpending⟩ := expand_completes
    (d := { d0 with port := { d0.port with inp := outBytes e } }) hdidle hdmem hruns hddone
    d0.host.rdata
  exact ⟨k, e.beside he, j, d'.beside hd, hrun, hedone, hepending, hrun', hddone, hdpending, hout⟩

end Sys2Proof.Machine
end
